-- ==== Sys2Proof/Word.lean ====
section
/-! DEFINITION. The words of the block (00_scope.md R9): bytes, 16-bit values, and the host's opaque values. -/

namespace Sys2Proof

/-- A byte (R9): 8 bits, unsigned. -/
abbrev Byte := BitVec 8

/-- A `u16` (R9): 16 bits, unsigned. -/
abbrev U16 := BitVec 16

/-- A callback or hook handle (R40, R66): an opaque host value other than `none`. The model names host values by
numbers (DESIGN CHOICE, log 8: the block only compares them with `none` and copies them). -/
abbrev Handle := Nat

/-- An opaque user value (R35, R66): any host value, `none` among them (DESIGN CHOICE, log 8). -/
abbrev Opaque := Option Nat

/-- A rectangle of four `u16` fields (R35, R66). -/
structure Rect where
  x : U16
  y : U16
  w : U16
  h : U16
  deriving DecidableEq, Repr, Inhabited

/-- The rectangle `(0, 0, 0, 0)` of an empty slot, a code-addressed slot and an invalid window (R35, R37, R145). -/
def Rect.zero : Rect := { x := 0, y := 0, w := 0, h := 0 }

end Sys2Proof
end

