-- ==== Sys2Proof/Machine/Format.lean ====
section
/-! DEFINITION. The ENCODE format language: C-string content (30_encoding.md R67) and tokenising (R77, R78). -/

namespace Sys2Proof

/-- The directive tokens of R78. -/
inductive Token where
  /-- `LIT(b)`: a byte that is not `%`. -/
  | lit (b : Byte)
  /-- `%c`. -/
  | char
  /-- `%D`. -/
  | word
  /-- `%s`. -/
  | str
  /-- `%%`. -/
  | percent
  /-- `%d` for any other byte `d`. -/
  | unknown (d : Byte)
  /-- A `%` that is the last byte of the content. -/
  | trailing
  deriving DecidableEq, Repr

/-- The content of a C string (R67): the bytes before the first zero byte, or all of them. -/
def content : List Byte → List Byte
  | [] => []
  | b :: rest => if b = 0 then [] else b :: content rest

/-- The byte `%` (R77). -/
def percentByte : Byte := 0x25

/-- The directive a letter spells after `%` (R78); letters are case-sensitive. -/
def directiveOf (d : Byte) : Token :=
  if d = 0x63 then .char
  else if d = 0x44 then .word
  else if d = 0x73 then .str
  else if d = percentByte then .percent
  else .unknown d

/-- Tokenising, left to right (R77). -/
def tokenise : List Byte → List Token
  | [] => []
  | [b] => if b = percentByte then [.trailing] else [.lit b]
  | b :: d :: rest =>
    if b = percentByte then directiveOf d :: tokenise rest else .lit b :: tokenise (d :: rest)

/-- The tokens of a format string, read as a C string (R67, R77). -/
def formatTokens (fmt : List Byte) : List Token := tokenise (content fmt)

/-- Whether a token takes an argument (R78, third column). -/
def Token.takesArg : Token → Bool
  | .char | .word | .str => true
  | .lit _ | .percent | .unknown _ | .trailing => false

/-- Whether a token is a literal byte. -/
def Token.isLit : Token → Bool
  | .lit _ => true
  | .char | .word | .str | .percent | .unknown _ | .trailing => false

/-- The directives of a format string, literals left out (R7: the constraint on the two remove formats). A trailing `%` counts as one, which
R7 leaves open (R16 takes a directive to be two bytes, R78 lists `TRAILING_PCT` with the tokens): DESIGN CHOICE, log 23. -/
def formatDirectives (fmt : List Byte) : List Token := (formatTokens fmt).filter fun t => !t.isLit

end Sys2Proof
end

