-- ==== Sys2Proof/Config.lean ====
section
/-! DEFINITION. The implementation parameters (00_scope.md R7, R8), and the free values: what the spec leaves OPEN, and
what the environment draws. -/

namespace Sys2Proof

/-- The transport variant (R7 `TRANSPORT`, R142). -/
inductive Transport where
  | blocking
  | tick
  deriving DecidableEq, Repr, Inhabited

/-- The fields of `Cfg` in R7's table, before its constraints. -/
structure RawCfg where
  /-- `N_SLOTS` -/
  nSlots : Nat
  /-- `C_OUT` -/
  cOut : Nat
  /-- `C_IN` -/
  cIn : Nat
  /-- `ESC` -/
  esc : Byte
  /-- `CTRL_NORESP` -/
  ctrlNoresp : Byte
  /-- `CTRL_RESP` -/
  ctrlResp : Byte
  /-- `ACK` -/
  ack : Byte
  /-- `NAK` -/
  nak : Byte
  /-- `POLL_PAYLOAD` -/
  pollPayload : List Byte
  /-- `EV_BUTTON` -/
  evButton : Byte
  /-- `EV_TOUCH` -/
  evTouch : Byte
  /-- `OFF_CMD` -/
  offCmd : Nat
  /-- `TOUCH_LEN` -/
  touchLen : Nat
  /-- `OFF_SUB` -/
  offSub : Nat
  /-- `OFF_X` -/
  offX : Nat
  /-- `OFF_Y` -/
  offY : Nat
  /-- `SUB_RELEASE` -/
  subRelease : Byte
  /-- `SUB_PRESS` -/
  subPress : Byte
  /-- `SUB_REPEAT` -/
  subRepeat : Byte
  /-- `TRANSPORT` -/
  transport : Transport
  /-- `WAIT_TICKS` -/
  waitTicks : Nat
  /-- `DUMMY_TX` -/
  dummyTx : Byte
  /-- `RETRY_LIMIT` -/
  retryLimit : Option Nat
  /-- `REMOVE_CODE_FMT` -/
  removeCodeFmt : List Byte
  /-- `REMOVE_POINT_FMT` -/
  removePointFmt : List Byte
  deriving DecidableEq, Repr

/-- The constraint column of R7's table (R8). A remove format with a trailing `%` is refused (the model's choice, log 23). -/
def RawCfg.valid (r : RawCfg) : Bool :=
  decide (1 ≤ r.nSlots ∧ r.nSlots ≤ 127) && decide (4 ≤ r.cOut ∧ r.cOut ≤ 258) && decide (3 ≤ r.cIn)
  && decide (r.esc = 0x1B) && decide (r.ctrlNoresp ≠ r.ctrlResp) && decide (r.ack ≠ r.nak)
  && decide (r.pollPayload.length ≤ r.cOut - 3) && decide (r.evButton ≠ r.evTouch) && decide (r.offCmd < 256)
  && decide (r.offSub < r.touchLen ∧ r.offX + 1 < r.touchLen ∧ r.offY + 1 < r.touchLen)
  && decide (r.subRelease = 0 ∧ r.subPress = 1 ∧ r.subRepeat = 2)
  && decide (formatDirectives r.removeCodeFmt = [.char]) && decide (formatDirectives r.removePointFmt = [.word, .word])

/-- A configuration of this hardware (R7, R8): the fields, and that every constraint of R7 holds. A configuration that
breaks one is no value of this type, so no machine state carries it and it has no run. -/
structure Cfg extends RawCfg where
  ok : toRawCfg.valid = true
  deriving DecidableEq, Repr

/-- R8's refusal of a configuration: `none` exactly where a constraint of R7 breaks. -/
def Cfg.ofRaw (r : RawCfg) : Option Cfg :=
  if h : r.valid = true then some { toRawCfg := r, ok := h } else none

/-- The `OPEN` fields of R7. -/
structure OpenCfg where
  cOut : Nat
  cIn : Nat
  ctrlNoresp : Byte
  ctrlResp : Byte
  ack : Byte
  nak : Byte
  transport : Transport
  waitTicks : Nat
  dummyTx : Byte
  removeCodeFmt : List Byte
  removePointFmt : List Byte
  deriving DecidableEq, Repr, Inhabited

/-- The configuration that given OPEN fields make, with R7's value in every field that has one. -/
def OpenCfg.raw (o : OpenCfg) : RawCfg where
  nSlots := 16
  cOut := o.cOut
  cIn := o.cIn
  esc := 0x1B
  ctrlNoresp := o.ctrlNoresp
  ctrlResp := o.ctrlResp
  ack := o.ack
  nak := o.nak
  pollPayload := []
  evButton := 0x41
  evTouch := 0x48
  offCmd := 0
  touchLen := 6
  offSub := 1
  offX := 2
  offY := 4
  subRelease := 0
  subPress := 1
  subRepeat := 2
  transport := o.transport
  waitTicks := o.waitTicks
  dummyTx := o.dummyTx
  retryLimit := none
  removeCodeFmt := o.removeCodeFmt
  removePointFmt := o.removePointFmt

/-- R7's test configuration T0 in the OPEN fields. Not normative: it only stands in where free fields break a
constraint, and in tests. -/
def OpenCfg.t0 : OpenCfg where
  cOut := 64
  cIn := 64
  ctrlNoresp := 0x11
  ctrlResp := 0x12
  ack := 0x06
  nak := 0x15
  transport := .blocking
  waitTicks := 0
  dummyTx := 0x00
  removeCodeFmt := [0x41, 0x4C, 0x25, 0x63, 0x01]
  removePointFmt := [0x41, 0x56, 0x25, 0x44, 0x25, 0x44, 0x01]

/-- The given OPEN fields where they keep R7's constraints, T0's where they do not: every valid choice of the OPEN
fields is reached, and only valid ones. -/
def OpenCfg.normal (o : OpenCfg) : OpenCfg := if o.raw.valid then o else OpenCfg.t0

theorem OpenCfg.normal_valid (o : OpenCfg) : o.normal.raw.valid = true := by
  unfold OpenCfg.normal
  split
  · assumption
  · decide

/-- The values of the OPEN fields on this hardware (R7: no value in the source). A free value, log 2. -/
opaque Config.openFields : OpenCfg

/-- The configuration of this hardware (R7): the valued fields at their values, the OPEN fields free. -/
def Config.hardware : Cfg := { toRawCfg := Config.openFields.normal.raw, ok := OpenCfg.normal_valid _ }

/-- The display's answer to the `n`-th bus read that no given answer covers (R13, R143). A free value, log 3. -/
opaque Config.displayByte : Nat → BitVec 8

/-- How often the display refuses before it acknowledges, where no given answer says so and no retry ceiling stands (R143; 42_transport.md
R140): `none` where it never does (70_reset_and_hazards.md R199). A free value, log 15. -/
opaque Config.refusalsBeforeAck : Nat → Option Nat

/-- The outcome of the `n`-th OpenChannel that no given outcome covers (R124). A free value, log 4. -/
opaque Config.openOutcome : Nat → Bool

/-- Who takes the next atomic transition: the host agent, the tick source, or the RESET input (R5, R56, R189). -/
inductive Turn where
  | host
  | tick
  | reset
  deriving DecidableEq, Repr, Inhabited

/-- The `n`-th free choice of who moves next (R56, R181: in any order). A free value, log 5. -/
opaque Config.turnChoice : Nat → Turn

end Sys2Proof
end

