-- ==== Sys2Proof/Syntax.lean ====
section
/-! DEFINITION. Every row of spec/opcode_table.json as a constructor of `Instr`, and the record a row's words are read
from (30_encoding.md R64 to R66). -/

namespace Sys2Proof

/-- An argument of ENCODE (R66): `Int(n)` or `Str(bytes)`. -/
inductive Arg where
  | int (n : Nat)
  | str (bytes : List Byte)
  deriving DecidableEq, Repr

/-- A `Rect` operand as the host gives it: four naturals, not yet checked to be `u16` (R66, R168). -/
structure RawRect where
  x : Nat
  y : Nat
  w : Nat
  h : Nat
  deriving DecidableEq, Repr

/-- A typed operand of a host operation record (R64, R66). -/
inductive Operand where
  /-- A natural number: `u8`, `u16`, `natural`, `bit`. -/
  | nat (n : Nat)
  /-- A list of bytes. -/
  | bytes (l : List Byte)
  /-- A host value or `none`: `Handle`, `Opaque`. -/
  | value (v : Option Nat)
  /-- A rectangle. -/
  | rect (r : RawRect)
  /-- A list of `Arg`. -/
  | args (l : List Arg)
  deriving DecidableEq, Repr

/-- The `format` column of spec/opcode_table.json. The two inputs have no opcode (R65), so each is a format of its own. -/
inductive Format where
  | hostop
  | tickInput
  | resetInput
  | synthesized
  | directive
  | inboundEvent
  | codeByte
  | touchSub
  | wireCtrl
  | handshake
  | commandLead
  deriving DecidableEq, Repr

/-- What the decoder reads: the bytes of a row in their order, with the operands beside them. For a host operation this is R64's
record `(opcode, operands)`: the spec gives the operands no bytes (DESIGN CHOICE, log 9). -/
structure Record where
  format : Format
  bytes : List Byte
  operands : List Operand
  deriving DecidableEq, Repr

/-- The instructions: one constructor per row of spec/opcode_table.json. -/
inductive Instr where
  /-- SETUP (R124). -/
  | setup
  /-- BEGIN_FRAME (R93). -/
  | beginFrame
  /-- PUT_U8 `v` (R94). -/
  | putU8 (v : Nat)
  /-- PUT_U16LE `v` (R95). -/
  | putU16le (v : Nat)
  /-- PUT_CSTR `str` (R96). -/
  | putCstr (str : List Byte)
  /-- ENCODE `fmt, args` (R97). -/
  | encode (fmt : List Byte) (args : List Arg)
  /-- FLUSH (R119). -/
  | flush
  /-- STEP (R121). -/
  | step
  /-- IS_READY (R123). -/
  | isReady
  /-- ALLOC_CODE `cb, user` (R145). -/
  | allocCode (cb : Option Handle) (user : Opaque)
  /-- ALLOC_AREA `r, cb, user` (R146). -/
  | allocArea (r : RawRect) (cb : Option Handle) (user : Opaque)
  /-- FREE `i` (R148). -/
  | free (i : Nat)
  /-- SET_ENABLED `i, e` (R151). -/
  | setEnabled (i e : Nat)
  /-- SET_WINDOW `r` (R152). -/
  | setWindow (r : RawRect)
  /-- CLEAR_WINDOW (R153). -/
  | clearWindow
  /-- SET_HOOK `h` (R154). -/
  | setHook (h : Option Handle)
  /-- CLEAR_HOOK (R155). -/
  | clearHook
  /-- A host operation record that is no row of R65: an unlisted opcode byte, or operands whose number or types do not match
  (R64; log 18). -/
  | undefinedHostOpcode (o : Byte) (ops : List Operand)
  /-- The input TICK (R129, R179). -/
  | tick
  /-- The input RESET (R189). -/
  | reset
  /-- The poll the session synthesises in READY (R111). -/
  | poll
  /-- `LIT(b)` (R98). -/
  | lit (b : Byte)
  /-- `%c` with the argument NextArg finds, if any (R99). -/
  | dirChar (arg : Option Arg)
  /-- `%D` with the argument NextArg finds, if any (R100). -/
  | dirWord (arg : Option Arg)
  /-- `%s` with the argument NextArg finds, if any (R101). -/
  | dirStr (arg : Option Arg)
  /-- `%%` (R102). -/
  | dirPercent
  /-- `%d` for an unrecognised `d` (R103). -/
  | dirUnknown (d : Byte)
  /-- A trailing `%` (R104). -/
  | trailingPct
  /-- A button/switch event with its payload `p` (R75, R157). -/
  | evButton (p : List Byte)
  /-- A touch-area event with its payload `p` (R76, R158). -/
  | evTouch (p : List Byte)
  /-- An event with an unrecognised command type, or a payload too short to hold one (R81, R156). -/
  | evUnknown (p : List Byte)
  /-- The button code byte: press flag and `slot index + 1` (R74, R157). -/
  | buttonCode (press : Bool) (k : BitVec 7)
  /-- Touch sub-byte 0, with the point touched (R158). -/
  | subRelease (x y : U16)
  /-- Touch sub-byte 1, with the point touched (R158). -/
  | subPress (x y : U16)
  /-- Touch sub-byte 2 (R82). -/
  | subRepeat
  /-- Touch sub-bytes 3 to 255 (R82). -/
  | subOther (b : Byte)
  /-- The control byte of a frame that expects no response (R71, R112). -/
  | ctrlNoresp
  /-- The control byte of a frame that expects a response (R71, R112). -/
  | ctrlResp
  /-- The handshake byte ACK (R72, R133). -/
  | ack
  /-- Any handshake byte that is not ACK, NAK among them (R72, R133). -/
  | nak (b : Byte)
  /-- The lead byte of a command (R73, R93). -/
  | esc
  deriving DecidableEq, Repr

end Sys2Proof
end

