-- ==== Sys2Proof/WellFormed.lean ====
section
/-! DEFINITION. Which operands an encoding admits: the operand types of 30_encoding.md R66 and the bytes each row of
spec/opcode_table.json takes. -/

namespace Sys2Proof

/-- Four `u16` fields (R66). -/
def RawRect.wf (r : RawRect) : Bool := decide (r.x < 65536 ∧ r.y < 65536 ∧ r.w < 65536 ∧ r.h < 65536)

/-- A payload whose length byte is nonzero: 1 to 255 bytes (R70, R115). -/
def payloadWf (p : List Byte) : Bool := decide (1 ≤ p.length ∧ p.length ≤ 255)

/-- The number and the types of the operands of a listed opcode (R65, R66); false for an unlisted opcode. Values out of
their type's range are not looked at here: R168 step 3 looks at both. -/
def operandsMatch (o : Byte) (ops : List Operand) : Bool :=
  match o.toNat, ops with
  | 0x00, [] => true
  | 0x01, [] => true
  | 0x02, [.nat _] => true
  | 0x03, [.nat _] => true
  | 0x04, [.bytes _] => true
  | 0x05, [.bytes _, .args _] => true
  | 0x06, [] => true
  | 0x07, [] => true
  | 0x08, [] => true
  | 0x10, [.value _, .value _] => true
  | 0x11, [.rect _, .value _, .value _] => true
  | 0x12, [.nat _] => true
  | 0x13, [.nat _, .nat _] => true
  | 0x14, [.rect _] => true
  | 0x15, [] => true
  | 0x16, [.value _] => true
  | 0x17, [] => true
  | _, _ => false

/-- An instruction's operands are what its row admits, for a configuration. -/
def Instr.wf (c : Cfg) : Instr → Bool
  | .setup | .beginFrame | .flush | .step | .isReady | .clearWindow | .clearHook => true
  | .putU8 v => decide (v < 256)
  | .putU16le v => decide (v < 65536)
  | .putCstr _ => true
  | .encode _ _ => true
  | .allocCode cb _ => cb.isSome
  | .allocArea r cb _ => r.wf && cb.isSome
  | .free _ => true
  | .setEnabled _ e => decide (e < 2)
  | .setWindow r => r.wf
  | .setHook h => h.isSome
  | .undefinedHostOpcode o ops => !operandsMatch o ops
  | .tick | .reset | .poll => true
  | .lit b => decide (b ≠ 0 ∧ b ≠ percentByte)
  | .dirChar _ | .dirWord _ | .dirStr _ | .dirPercent | .trailingPct => true
  | .dirUnknown d => decide (d ≠ 0 ∧ directiveOf d = .unknown d)
  | .evButton p => payloadWf p && decide (p[c.offCmd]? = some c.evButton)
  | .evTouch p => payloadWf p && decide (p[c.offCmd]? = some c.evTouch)
  | .evUnknown p => payloadWf p && decide (p[c.offCmd]? ≠ some c.evButton ∧ p[c.offCmd]? ≠ some c.evTouch)
  | .buttonCode _ _ => true
  | .subRelease _ _ | .subPress _ _ | .subRepeat => true
  | .subOther b => decide (b ≠ c.subRelease ∧ b ≠ c.subPress ∧ b ≠ c.subRepeat)
  | .ctrlNoresp | .ctrlResp | .ack | .esc => true
  | .nak b => decide (b ≠ c.ack)

end Sys2Proof
end

