-- ==== Sys2Proof/Decode.lean ====
section
/-! DEFINITION. The decoder, total on every record and rejecting by name, and after it the encoder (30_encoding.md R64
to R90; spec/opcode_table.json). -/

namespace Sys2Proof

/-- Why a record spells no row of its format. A host operation record never does: it is total (R64). -/
inductive DecodeError where
  /-- Bytes that are not exactly one directive token with at most one argument. -/
  | notOneToken
  /-- A payload of no byte or of more than 255 bytes is no event's payload (R70, R85). -/
  | notAPayload
  /-- A code byte, sub-byte, control, handshake or lead record that is not one byte with the row's operands. -/
  | notOneByte
  /-- A control byte that is neither of the two (R71). -/
  | notAControlByte
  /-- A command lead byte that is not ESC (R73). -/
  | notTheLeadByte
  /-- A host operation record that is not one opcode byte (R64). -/
  | notAnOpcode
  /-- An input or synthesised record that carries bytes or operands. -/
  | notBare
  deriving DecidableEq, Repr

/-- The opcode map (R65, R90). Every record that is no row of it is `undefinedHostOpcode` (R64). -/
def decodeHost (o : Byte) (ops : List Operand) : Instr :=
  match o.toNat, ops with
  | 0x00, [] => .setup
  | 0x01, [] => .beginFrame
  | 0x02, [.nat v] => .putU8 v
  | 0x03, [.nat v] => .putU16le v
  | 0x04, [.bytes str] => .putCstr str
  | 0x05, [.bytes fmt, .args args] => .encode fmt args
  | 0x06, [] => .flush
  | 0x07, [] => .step
  | 0x08, [] => .isReady
  | 0x10, [.value cb, .value user] => .allocCode cb user
  | 0x11, [.rect r, .value cb, .value user] => .allocArea r cb user
  | 0x12, [.nat i] => .free i
  | 0x13, [.nat i, .nat e] => .setEnabled i e
  | 0x14, [.rect r] => .setWindow r
  | 0x15, [] => .clearWindow
  | 0x16, [.value h] => .setHook h
  | 0x17, [] => .clearHook
  | _, _ => .undefinedHostOpcode o ops

/-- The argument beside a directive token: none, or one. -/
def tokenArg : List Operand → Option (Option Arg)
  | [] => some none
  | [.args [a]] => some (some a)
  | _ => none

/-- A directive token with the argument found for it (R78). -/
def decodeToken (t : Token) (arg : Option Arg) : Except DecodeError Instr :=
  match t, arg with
  | .lit b, none => .ok (.lit b)
  | .char, a => .ok (.dirChar a)
  | .word, a => .ok (.dirWord a)
  | .str, a => .ok (.dirStr a)
  | .percent, none => .ok .dirPercent
  | .unknown d, none => .ok (.dirUnknown d)
  | .trailing, none => .ok .trailingPct
  | _, some _ => .error .notOneToken

/-- A directive record: exactly one token (R77, R78). -/
def decodeDirective (bytes : List Byte) (ops : List Operand) : Except DecodeError Instr :=
  match formatTokens bytes, tokenArg ops with
  | [t], some arg => decodeToken t arg
  | _, _ => .error .notOneToken

/-- The kinds of inbound event (R75, R76, R81). -/
inductive EventKind where
  | button
  | touch
  | unknown
  deriving DecidableEq, Repr

/-- The kind of an inbound event, by the byte at `OFF_CMD` (R156); unknown if the payload is too short to hold it. -/
def eventKind (c : Cfg) (p : List Byte) : EventKind :=
  match p[c.offCmd]? with
  | none => .unknown
  | some t => if t = c.evButton then .button else if t = c.evTouch then .touch else .unknown

/-- An inbound event from its payload bytes (R75, R76, R81). -/
def decodeEvent (c : Cfg) (p : List Byte) : Except DecodeError Instr :=
  if payloadWf p then
    match eventKind c p with
    | .button => .ok (.evButton p)
    | .touch => .ok (.evTouch p)
    | .unknown => .ok (.evUnknown p)
  else .error .notAPayload

/-- The press flag of a button code byte: bit 7 (R74). -/
def codePress (b : Byte) : Bool := b.getLsbD 7

/-- `slot index + 1` in a button code byte: bits 6..0 (R74). -/
def codeNumber (b : Byte) : BitVec 7 := b.setWidth 7

/-- The button code byte of a press flag and a number (R74). -/
def codeByte (press : Bool) (k : BitVec 7) : Byte := BitVec.ofBool press ++ k

/-- A touch sub-byte with the point beside it (R76, R82, R158). -/
def decodeSub (c : Cfg) (b : Byte) (ops : List Operand) : Except DecodeError Instr :=
  match ops with
  | [.nat x, .nat y] =>
    if x < 65536 ∧ y < 65536 then
      if b = c.subRelease then .ok (.subRelease (BitVec.ofNat 16 x) (BitVec.ofNat 16 y))
      else if b = c.subPress then .ok (.subPress (BitVec.ofNat 16 x) (BitVec.ofNat 16 y))
      else .error .notOneByte
    else .error .notOneByte
  | [] =>
    if b = c.subRelease ∨ b = c.subPress then .error .notOneByte
    else if b = c.subRepeat then .ok .subRepeat
    else .ok (.subOther b)
  | _ => .error .notOneByte

/-- The control byte of an outbound frame (R71). -/
def decodeControl (c : Cfg) (b : Byte) : Except DecodeError Instr :=
  if b = c.ctrlNoresp then .ok .ctrlNoresp
  else if b = c.ctrlResp then .ok .ctrlResp
  else .error .notAControlByte

/-- A handshake byte (R72): every value but ACK asks for a resend. -/
def decodeHandshake (c : Cfg) (b : Byte) : Instr := if b = c.ack then .ack else .nak b

/-- The decoder: total, by the record's format. -/
def decode (c : Cfg) (r : Record) : Except DecodeError Instr :=
  match r.format, r.bytes, r.operands with
  | .hostop, [o], ops => .ok (decodeHost o ops)
  | .hostop, _, _ => .error .notAnOpcode
  | .tickInput, [], [] => .ok .tick
  | .resetInput, [], [] => .ok .reset
  | .synthesized, [], [] => .ok .poll
  | .tickInput, _, _ => .error .notBare
  | .resetInput, _, _ => .error .notBare
  | .synthesized, _, _ => .error .notBare
  | .directive, bytes, ops => decodeDirective bytes ops
  | .inboundEvent, p, [] => decodeEvent c p
  | .inboundEvent, _, _ => .error .notAPayload
  | .codeByte, [b], [] => .ok (.buttonCode (codePress b) (codeNumber b))
  | .codeByte, _, _ => .error .notOneByte
  | .touchSub, [b], ops => decodeSub c b ops
  | .touchSub, _, _ => .error .notOneByte
  | .wireCtrl, [b], [] => decodeControl c b
  | .wireCtrl, _, _ => .error .notOneByte
  | .handshake, [b], [] => .ok (decodeHandshake c b)
  | .handshake, _, _ => .error .notOneByte
  | .commandLead, [b], [] => if b = c.esc then .ok .esc else .error .notTheLeadByte
  | .commandLead, _, _ => .error .notOneByte

/-! ## The encoder -/

/-- A host operation record (R64). -/
def hostRecord (o : Byte) (ops : List Operand) : Record := { format := .hostop, bytes := [o], operands := ops }

/-- A directive record: the token's bytes (R78) and its argument. -/
def tokenRecord (bytes : List Byte) (arg : Option Arg) : Record where
  format := .directive
  bytes := bytes
  operands := match arg with
    | none => []
    | some a => [.args [a]]

/-- The record of an instruction, from R65, R74 to R78 and spec/opcode_table.json. -/
def encode (c : Cfg) : Instr → Record
  | .setup => hostRecord 0x00 []
  | .beginFrame => hostRecord 0x01 []
  | .putU8 v => hostRecord 0x02 [.nat v]
  | .putU16le v => hostRecord 0x03 [.nat v]
  | .putCstr str => hostRecord 0x04 [.bytes str]
  | .encode fmt args => hostRecord 0x05 [.bytes fmt, .args args]
  | .flush => hostRecord 0x06 []
  | .step => hostRecord 0x07 []
  | .isReady => hostRecord 0x08 []
  | .allocCode cb user => hostRecord 0x10 [.value cb, .value user]
  | .allocArea r cb user => hostRecord 0x11 [.rect r, .value cb, .value user]
  | .free i => hostRecord 0x12 [.nat i]
  | .setEnabled i e => hostRecord 0x13 [.nat i, .nat e]
  | .setWindow r => hostRecord 0x14 [.rect r]
  | .clearWindow => hostRecord 0x15 []
  | .setHook h => hostRecord 0x16 [.value h]
  | .clearHook => hostRecord 0x17 []
  | .undefinedHostOpcode o ops => hostRecord o ops
  | .tick => { format := .tickInput, bytes := [], operands := [] }
  | .reset => { format := .resetInput, bytes := [], operands := [] }
  | .poll => { format := .synthesized, bytes := [], operands := [] }
  | .lit b => tokenRecord [b] none
  | .dirChar arg => tokenRecord [percentByte, 0x63] arg
  | .dirWord arg => tokenRecord [percentByte, 0x44] arg
  | .dirStr arg => tokenRecord [percentByte, 0x73] arg
  | .dirPercent => tokenRecord [percentByte, percentByte] none
  | .dirUnknown d => tokenRecord [percentByte, d] none
  | .trailingPct => tokenRecord [percentByte] none
  | .evButton p => { format := .inboundEvent, bytes := p, operands := [] }
  | .evTouch p => { format := .inboundEvent, bytes := p, operands := [] }
  | .evUnknown p => { format := .inboundEvent, bytes := p, operands := [] }
  | .buttonCode press k => { format := .codeByte, bytes := [codeByte press k], operands := [] }
  | .subRelease x y => { format := .touchSub, bytes := [c.subRelease], operands := [.nat x.toNat, .nat y.toNat] }
  | .subPress x y => { format := .touchSub, bytes := [c.subPress], operands := [.nat x.toNat, .nat y.toNat] }
  | .subRepeat => { format := .touchSub, bytes := [c.subRepeat], operands := [] }
  | .subOther b => { format := .touchSub, bytes := [b], operands := [] }
  | .ctrlNoresp => { format := .wireCtrl, bytes := [c.ctrlNoresp], operands := [] }
  | .ctrlResp => { format := .wireCtrl, bytes := [c.ctrlResp], operands := [] }
  | .ack => { format := .handshake, bytes := [c.ack], operands := [] }
  | .nak b => { format := .handshake, bytes := [b], operands := [] }
  | .esc => { format := .commandLead, bytes := [c.esc], operands := [] }

/-! ## Words numbered as spec/opcode_table.json numbers them -/

/-- The operands of zeros that follow a row's own bits: 0, the empty string, the empty list, host value 0 for a handle,
`none` for an opaque value, the zero rectangle. -/
def zeroOperands (o : Nat) : List Operand :=
  match o with
  | 0x02 => [.nat 0]
  | 0x03 => [.nat 0]
  | 0x04 => [.bytes []]
  | 0x05 => [.bytes [], .args []]
  | 0x10 => [.value (some 0), .value none]
  | 0x11 => [.rect ⟨0, 0, 0, 0⟩, .value (some 0), .value none]
  | 0x12 => [.nat 0]
  | 0x13 => [.nat 0, .nat 0]
  | 0x14 => [.rect ⟨0, 0, 0, 0⟩]
  | 0x16 => [.value (some 0)]
  | _ => []

/-- The argument of zeros that follows a directive token (R78): `Int(0)`, the empty string, or none. -/
def zeroArg : List Byte → Option Arg
  | [0x25, 0x63] => some (.int 0)
  | [0x25, 0x44] => some (.int 0)
  | [0x25, 0x73] => some (.str [])
  | _ => none

/-- Whether R65 lists an opcode byte. -/
def listedOpcode (o : Nat) : Bool := decide (o ≤ 0x08 ∨ 0x10 ≤ o ∧ o ≤ 0x17)

/-- The record of a table word. The table numbers a two-byte token with its first byte in bits 15..8 (its `%c` is 0x2563).
One-byte rows of several formats share values; the word names no format, so the rows are tried with all bits fixed first, in the
table's order, then the host port's pattern row (DEDUCED, log 11). A word of no bits is the table's first row without an opcode. -/
def tableRecord (nbits w : Nat) : Record :=
  match nbits with
  | 0 => { format := .tickInput, bytes := [], operands := [] }
  | 8 =>
    if listedOpcode w then hostRecord (BitVec.ofNat 8 w) (zeroOperands w)
    else if w = 0x25 then tokenRecord [0x25] none
    else if w = 0x41 ∨ w = 0x48 then { format := .inboundEvent, bytes := [BitVec.ofNat 8 w], operands := [] }
    else if w = 0x1B then { format := .commandLead, bytes := [0x1B], operands := [] }
    else hostRecord (BitVec.ofNat 8 w) []
  | 16 =>
    let bytes : List Byte := [BitVec.ofNat 8 (w / 256), BitVec.ofNat 8 w]
    tokenRecord bytes (zeroArg bytes)
  | _ => { format := .directive, bytes := [], operands := [] }

/-- The instruction the decoder reads from a table word, on this hardware. -/
def decodeTableWord (nbits w : Nat) : Option Instr := (decode Config.hardware (tableRecord nbits w)).toOption

end Sys2Proof
end

