-- ==== Sys2Proof/Machine/State.lean ====
section
/-! DEFINITION. The state of the block as plain data (10_state.md), the reasons a step can stop, and the state after
reset (70_reset_and_hazards.md R189). -/

namespace Sys2Proof.Machine

/-- The session states (R19). -/
inductive SessionState where
  | ready
  | transmit
  | receive
  | event
  | reset
  deriving DecidableEq, Repr

/-- The legal values of `s.next_state` (R20). -/
inductive NextState where
  | receive
  | reset
  deriving DecidableEq, Repr

/-- The session state a `s.next_state` names (R113). -/
def NextState.session : NextState → SessionState
  | .receive => .receive
  | .reset => .reset

/-- The transport states (R30), the source's names with the `T_` left off. -/
inductive TransportState where
  | ready
  | start
  | send
  | wait
  | receiveAck
  | receive
  | receiveHeader
  | receivePayload
  deriving DecidableEq, Repr

/-- The fault causes, the legal values of `s.fault` (R29, 60_exceptions.md R167). -/
inductive FaultCode where
  | none
  | frameTooLarge
  | registryFull
  | badArgument
  | badSlot
  | sequence
  | notAttached
  | retryLimit
  deriving DecidableEq, Repr

/-- The numeric codes of R167. -/
def FaultCode.code : FaultCode → Nat
  | .none => 0
  | .frameTooLarge => 1
  | .registryFull => 2
  | .badArgument => 3
  | .badSlot => 4
  | .sequence => 5
  | .notAttached => 6
  | .retryLimit => 7

/-- The diagnostic codes (R176). -/
inductive Diag where
  | unknownDirective
  | checksumMismatch
  | inboundOverflow
  | unknownEvent
  | badCode
  | unregisteredCode
  | badTouchLength
  | badTouchSub
  | noHit
  deriving DecidableEq, Repr

/-- The numeric codes of R176. -/
def Diag.code : Diag → Nat
  | .unknownDirective => 1
  | .checksumMismatch => 2
  | .inboundOverflow => 3
  | .unknownEvent => 4
  | .badCode => 5
  | .unregisteredCode => 6
  | .badTouchLength => 7
  | .badTouchSub => 8
  | .noHit => 9

/-- A record of the output event stream (R39(a), R12). -/
inductive Event where
  | dispatch (i : Nat) (cb : Handle) (user : Opaque) (down : Bool)
  | hook (h : Handle)
  | diag (d : Diag)
  deriving DecidableEq, Repr

/-- A record of the bus log (R39(b), R13). -/
inductive BusRecord where
  /-- `BusTx(b)`. -/
  | tx (b : Byte)
  /-- `BusRx()`: the byte driven (`DUMMY_TX`) and the byte the display answered. -/
  | rx (driven answer : Byte)
  /-- The value of `s.cs` at a delivered tick. -/
  | cs (v : Bool)
  deriving DecidableEq, Repr

/-- The result of a host operation (R15, R39(c), and the result column of R65). -/
inductive Result where
  | unit
  | number (n : Nat)
  | bool (b : Bool)
  | slot (i : Nat)
  | ok
  | setupFailed
  | stepped
  | deferred
  | halted
  | fault (c : FaultCode)
  deriving DecidableEq, Repr

/-- An entry of the widget table (R35). Empty exactly when `cb = none`; no kind tag (R36). -/
structure Slot where
  cb : Option Handle
  user : Opaque
  rect : Rect
  enabled : Bool
  deriving DecidableEq, Repr

/-- The empty slot (R35's reset value, R148's cleared slot). -/
def Slot.empty : Slot := { cb := none, user := none, rect := Rect.zero, enabled := false }

/-- The placement window (R37). -/
structure Window where
  valid : Bool
  rect : Rect
  deriving DecidableEq, Repr

/-- The window's reset value (R37), and what CLEAR_WINDOW leaves (R153). -/
def Window.none : Window := { valid := false, rect := Rect.zero }

/-- A buffer: (index, byte) pairs with indices strictly rising. An unlisted index has not been written, and reads as no value
(R55; log 6), so no listed byte equals what an unlisted index reads as. -/
abbrev Memory := List Host.Cell

/-- The host agent's position inside the operation it performs (R18): which driving loop (R14) of which operation. The
operation itself stands first in `env.port`. -/
inductive HostPos where
  /-- No operation in progress. -/
  | idle
  /-- In the loop of BEGIN_FRAME (R93). -/
  | beginning
  /-- In a loop of FLUSH (R119). A loop that ends leaves nothing staged (R116), so FLUSH goes on from its first line (log 14). -/
  | flushing
  /-- In the loop of FREE's BEGIN_FRAME (R148). -/
  | freeingBegin
  /-- In a loop of FREE's FLUSH (R148). -/
  | freeingFlush
  /-- In the blocking transmit of a STEP that the display never acknowledges (R121, R142, R199; log 15). -/
  | stepping
  deriving DecidableEq, Repr

/-- The environment: what the other agents will do next, as far as it is given, and how many free choices were made after that
(R5; log 3, log 4, log 5, log 10). -/
structure Env where
  /-- The operation records the host has still to issue, the one in progress first. -/
  port : List Record
  /-- Who moves next. -/
  turns : List Turn
  /-- Free choices of `turns` made so far. -/
  turnCount : Nat
  /-- The display's next answers to bus reads. -/
  rx : List Byte
  /-- Free answers drawn so far. -/
  rxCount : Nat
  /-- The next outcomes of OpenChannel. -/
  opens : List Bool
  /-- Free outcomes drawn so far. -/
  openCount : Nat
  deriving DecidableEq, Repr

/-- No operation issued, nothing given, nothing drawn. -/
def Env.initial : Env where
  port := []
  turns := []
  turnCount := 0
  rx := []
  rxCount := 0
  opens := []
  openCount := 0

/-- The block's three outputs (R39), each in order. The block never reads them. -/
structure Outputs where
  events : List Event
  bus : List BusRecord
  results : List Result
  deriving DecidableEq, Repr

/-- No output yet. -/
def Outputs.none : Outputs := { events := [], bus := [], results := [] }

/-- The state of the machine: the fields of 10_state.md, then what the model carries beside them. -/
structure State where
  /-- The configuration (R7): carried, never written. -/
  cfg : Cfg
  /-- `s.state` (R19) -/
  state : SessionState
  /-- `s.next_state` (R20) -/
  nextState : NextState
  /-- `s.out_len` (R21) -/
  outLen : Nat
  /-- `s.out_sum` (R22) -/
  outSum : Byte
  /-- `s.ctrl` (R23) -/
  ctrl : Byte
  /-- `s.out_buf` (R24) -/
  outBuf : Memory
  /-- `s.in_buf` (R25) -/
  inBuf : Memory
  /-- `s.in_len` (R26) -/
  inLen : Nat
  /-- `s.in_ovf` (R27) -/
  inOvf : Bool
  /-- `s.attached` (R28) -/
  attached : Bool
  /-- `s.fault` (R29) -/
  fault : FaultCode
  /-- `s.tstate` (R30) -/
  tstate : TransportState
  /-- `s.t_idx` (R31) -/
  tIdx : Nat
  /-- `s.t_cnt` (R31) -/
  tCnt : Nat
  /-- `s.t_wait` (R31) -/
  tWait : Nat
  /-- `s.t_retries` (R31) -/
  tRetries : Nat
  /-- `s.t_ack` (R32) -/
  tAck : Byte
  /-- `s.cs` (R33) -/
  cs : Bool
  /-- `s.tick_en` (R34) -/
  tickEn : Bool
  /-- `s.slot[i]` (R35) -/
  slots : List Slot
  /-- `s.window` (R37) -/
  window : Window
  /-- `s.hook` (R38) -/
  hook : Option Handle
  /-- The host's position in its operation (R18). -/
  pos : HostPos
  /-- The environment (R5). -/
  env : Env
  /-- The outputs (R39). -/
  out : Outputs
  deriving DecidableEq, Repr

/-- The reasons the model stops with a fault. No rule of the spec leads to one: each is a read or an index that the spec says no
rule produces. The block's own faults (R167) are next states with `s.fault` set. -/
inductive Fault where
  /-- A byte of the outbound buffer was read that nothing has written (R55). Raised by the transport's reads. Safe. -/
  | unwrittenOut
  /-- A byte of the inbound buffer was read that nothing has written (R55). Raised by the EVENT step and the receive ticks. Safe. -/
  | unwrittenIn
  /-- An index outside the outbound buffer was written (R11). Raised by the appends and the finalize. Safe. -/
  | outIndex
  /-- A payload byte outside the payload was read (R47). Raised by the dispatcher. Safe. -/
  | payloadIndex
  deriving DecidableEq, Repr

/-- The reasons a step is refused. -/
inductive Refusal where
  /-- The instruction has no meaning yet. Raised by `exec`'s arms only. Safe. -/
  | notModelled (mnemonic : String)
  /-- The record at the port spells no row of its format. Raised by `step`; never for a host operation (R64). Safe. -/
  | badRecord (e : DecodeError)
  deriving DecidableEq, Repr

/-- The state after reset under a given configuration (R189): every field at R189's value. The buffers list no byte (log 6); `s.t_ack`,
which R189 leaves unspecified, is 0 (DESIGN CHOICE, log 7). -/
def State.resetOf (c : Cfg) : State where
  cfg := c
  state := .ready
  nextState := .reset
  outLen := 0
  outSum := 0
  ctrl := c.ctrlNoresp
  outBuf := []
  inBuf := []
  inLen := 0
  inOvf := false
  attached := false
  fault := .none
  tstate := .ready
  tIdx := 0
  tCnt := 0
  tWait := 0
  tRetries := 0
  tAck := 0
  cs := false
  tickEn := false
  slots := List.replicate c.nSlots Slot.empty
  window := Window.none
  hook := none
  pos := .idle
  env := Env.initial
  out := Outputs.none

/-- The machine right after reset (R189, R190), on this hardware's configuration (R7). -/
def State.reset : State := State.resetOf Config.hardware

end Sys2Proof.Machine
end

