-- ==== Sys2Proof/Machine/Ops.lean ====
section
/-! DEFINITION. The named operations over buffers, bus, slots and outputs (00_scope.md R11 to R13), taking a fault as one shared
operation (60_exceptions.md R171), and the common checks of every host operation (R168). -/

namespace Sys2Proof.Machine

/-! ## How an operation ends -/

/-- The outcome of an operation or a tick rule. -/
inductive Res where
  /-- It ran to its end. -/
  | ok (s : State)
  /-- A driving loop waits for ticks, or a blocking transmit is never acknowledged; the operation is in progress (R14, R199). -/
  | wait (s : State)
  /-- `raise Fault(c)` ended it (R171). -/
  | raised (s : State)
  /-- It did what the spec says no rule does. -/
  | stop (f : Fault)

/-- Go on only where the first part ran to its end. -/
def Res.andThen (r : Res) (k : State → Res) : Res :=
  match r with
  | .ok s => k s
  | .wait s => .wait s
  | .raised s => .raised s
  | .stop f => .stop f

/-- Where an operation waits, the host's position is `p` (R18). -/
def Res.at (p : HostPos) (r : Res) : Res :=
  match r with
  | .wait s => .wait { s with pos := p }
  | .ok s => .ok s
  | .raised s => .raised s
  | .stop f => .stop f

/-! ## Taking a fault -/

/-- `raise Fault(c)` (R171): the cause is recorded if none is, nothing else changes, and the operation or tick ends here. No handler, no
saved state (R173), and no return but the RESET input (R174). -/
def raise (c : FaultCode) (s : State) : Res :=
  .raised (if s.fault = .none then { s with fault := c } else s)

/-! ## Buffers -/

/-- One byte of a buffer; `none` where nothing has written it. -/
def readMem : Memory → Nat → Option Byte
  | [], _ => none
  | (k, b) :: rest, a => if a = k then some b else readMem rest a

/-- Writing one byte; indices stay strictly rising. -/
def writeMem : Memory → Nat → Byte → Memory
  | [], a, v => [(a, v)]
  | (k, b) :: rest, a, v =>
    if a < k then (a, v) :: (k, b) :: rest
    else if a = k then (k, v) :: rest
    else (k, b) :: writeMem rest a v

/-- The canonical form from a lower bound on: indices strictly rising. -/
def wfFrom : Nat → Memory → Bool
  | _, [] => true
  | lo, (k, _) :: rest => decide (lo ≤ k) && wfFrom (k + 1) rest

/-- The canonical form of a buffer. An unlisted byte reads as no value, so no entry can equal it. -/
def Memory.wf (m : Memory) : Bool := wfFrom 0 m

/-- The bytes at `a, a+1, ..., a+n-1`, if all are written. -/
def readRange (m : Memory) : Nat → Nat → Option (List Byte)
  | _, 0 => some []
  | a, n + 1 =>
    match readMem m a, readRange m (a + 1) n with
    | some b, some rest => some (b :: rest)
    | _, _ => none

/-- `OutRead(i)` (R11). -/
def outRead (s : State) (i : Nat) : Option Byte := readMem s.outBuf i

/-- `InRead(i)` (R11). -/
def inRead (s : State) (i : Nat) : Option Byte := readMem s.inBuf i

/-- `OutWrite(i, v)` (R11), with `0 <= i < C_OUT`. -/
def outWrite (i : Nat) (v : Byte) (s : State) : Res :=
  if i < s.cfg.cOut then .ok { s with outBuf := writeMem s.outBuf i v } else .stop .outIndex

/-! ## Outputs -/

/-- `emit` (R12): append a record to the output event stream. -/
def State.emit (e : Event) (s : State) : State :=
  { s with out := { s.out with events := s.out.events ++ [e] } }

/-- Append a record to the bus log (R39(b)). -/
def State.logBus (b : BusRecord) (s : State) : State :=
  { s with out := { s.out with bus := s.out.bus ++ [b] } }

/-- A host operation returns (R15): its result is delivered and the host's position is discarded (R18). -/
def State.ret (r : Result) (s : State) : State :=
  { s with pos := .idle, out := { s.out with results := s.out.results ++ [r] } }

/-! ## Bus and environment -/

/-- `CS <- v` (R13). In the `Blocking` variant the line is not driven (R33, R142). -/
def State.setCs (v : Bool) (s : State) : State :=
  match s.cfg.transport with
  | .blocking => s
  | .tick => { s with cs := v }

/-- `BusTx(b)` (R13). -/
def busTx (b : Byte) (s : State) : State := s.logBus (.tx b)

/-- The byte the display answers next, and the environment after it (R13, R143): a given answer, or a free one. -/
def drawByte (e : Env) : Byte × Env :=
  match e.rx with
  | b :: rest => (b, { e with rx := rest })
  | [] => (Config.displayByte e.rxCount, { e with rxCount := e.rxCount + 1 })

/-- `BusRx()` (R13): `DUMMY_TX` is driven and recorded, and the display's byte comes back. -/
def busRx (s : State) : Byte × State :=
  ((drawByte s.env).1,
   State.logBus (.rx s.cfg.dummyTx (drawByte s.env).1) { s with env := (drawByte s.env).2 })

/-- `OpenChannel()` (R124): a given outcome, or a free one. -/
def openChannel (s : State) : Bool × State :=
  match s.env.opens with
  | r :: rest => (r, { s with env := { s.env with opens := rest } })
  | [] => (Config.openOutcome s.env.openCount, { s with env := { s.env with openCount := s.env.openCount + 1 } })

/-- Who takes the next atomic transition (R56, R181): a given turn, or a free one. -/
def nextTurn (s : State) : Turn × State :=
  match s.env.turns with
  | t :: rest => (t, { s with env := { s.env with turns := rest } })
  | [] => (Config.turnChoice s.env.turnCount, { s with env := { s.env with turnCount := s.env.turnCount + 1 } })

/-! ## Staging -/

/-- `AppendByte(b)` (40_codec.md R92): the overflow check first, then the write at the cursor `2 + s.out_len` (R45), the
length and the running sum. -/
def appendByte (b : Byte) (s : State) : Res :=
  if s.outLen + 1 > s.cfg.cOut - 3 then raise .frameTooLarge s
  else (outWrite (2 + s.outLen) b s).andThen fun t =>
    .ok { t with outLen := t.outLen + 1, outSum := t.outSum + b }

/-- `AppendByte` for each byte in order. -/
def appendAll : List Byte → State → Res
  | [], s => .ok s
  | b :: rest, s => (appendByte b s).andThen (appendAll rest)

/-! ## The widget table -/

/-- `s.slot[i]`; an index the table does not hold reads as the empty slot (log 22). -/
def slotAt (s : State) (i : Nat) : Slot := s.slots.getD i Slot.empty

/-- `s.slot[i] <- v`. -/
def setSlot (i : Nat) (v : Slot) (s : State) : State := { s with slots := s.slots.set i v }

/-- Whether a slot is occupied (R35). -/
def occupied (s : State) (i : Nat) : Bool := (slotAt s i).cb.isSome

/-- The first empty slot from the front (R145). -/
def firstEmpty (s : State) : Option Nat := (List.range s.cfg.nSlots).find? fun i => !occupied s i

/-- The first empty slot from the back (R146). -/
def lastEmpty (s : State) : Option Nat := (List.range s.cfg.nSlots).reverse.find? fun i => !occupied s i

/-! ## Host operations and single transitions -/

/-- A host operation ends with its result, with `Fault(c)`, or stays in progress (R15, R171). -/
def Res.toOutcome (result : State → Result) (r : Res) : Host.Outcome State Fault Refusal :=
  match r with
  | .ok s => .next (s.ret (result s))
  | .wait s => .next s
  | .raised s => .next (s.ret (.fault s.fault))
  | .stop f => .fault f

/-- The common checks (R168), in their order: halted, attached, operands; then the operation's own pseudocode. `isSetup` exempts
SETUP from the second (R169). -/
def hostOp (isSetup operandsOk : Bool) (s : State) (result : State → Result) (body : State → Res) :
    Host.Outcome State Fault Refusal :=
  if s.fault ≠ .none then .next (s.ret .halted)
  else if !s.attached && !isSetup then (raise .notAttached s).toOutcome result
  else if !operandsOk then (raise .badArgument s).toOutcome result
  else (body s).toOutcome result

/-- A transition of the session, the transport or the dispatcher that no host operation returns from. It is taken only where it is
enabled; where it is not, nothing happens (log 13). -/
def transition (enabled : Bool) (s : State) (body : State → Res) : Host.Outcome State Fault Refusal :=
  if enabled then
    match body s with
    | .ok t => .next t
    | .wait t => .next t
    | .raised t => .next t
    | .stop f => .fault f
  else .next s

/-- Every operand of the result is `Unit` (R15). -/
def unitResult (_ : State) : Result := .unit

end Sys2Proof.Machine
end

