-- ==== Sys2Proof/Machine/Operands.lean ====
section
/-! DEFINITION. Every operand form: the operand types of 30_encoding.md R66, how an argument becomes bytes (R79), how bytes become a
16-bit field (20_memory.md R51) and a button code (R74), and the rectangle arithmetic of 43_registry.md. -/

namespace Sys2Proof.Machine

/-- `u8` (R66). -/
def isU8 (n : Nat) : Bool := decide (n < 256)

/-- `u16` (R66). -/
def isU16 (n : Nat) : Bool := decide (n < 65536)

/-- `bit` (R66). -/
def isBit (n : Nat) : Bool := decide (n < 2)

/-- `Rect` (R66): four `u16` fields. -/
def isRect (r : RawRect) : Bool := isU16 r.x && isU16 r.y && isU16 r.w && isU16 r.h

/-- The rectangle of a checked operand. -/
def rectOf (r : RawRect) : Rect where
  x := BitVec.ofNat 16 r.x
  y := BitVec.ofNat 16 r.y
  w := BitVec.ofNat 16 r.w
  h := BitVec.ofNat 16 r.h

/-- `n mod 256` (R79, R99). -/
def byteOf (n : Nat) : Byte := BitVec.ofNat 8 n

/-- `n mod 65536` (R79, R100). -/
def u16Of (n : Nat) : U16 := BitVec.ofNat 16 n

/-- `v[7:0]` (R51). -/
def lowByte (v : U16) : Byte := v.extractLsb' 0 8

/-- `v[15:8]` (R51). -/
def highByte (v : U16) : Byte := v.extractLsb' 8 8

/-- A 16-bit value as two appends, low byte first (R50, R51). -/
def u16Bytes (v : U16) : List Byte := [lowByte v, highByte v]

/-- `u16(o)`: the little-endian 16-bit field at payload offset `o` (R51); `none` outside the payload. -/
def u16At (p : List Byte) (o : Nat) : Option U16 :=
  match p[o]?, p[o + 1]? with
  | some lo, some hi => some (lo.setWidth 16 ||| (hi.setWidth 16 <<< 8))
  | _, _ => none

/-- The bytes a C-string argument appends: its content, then 0x00 (R67, R87, R96, R101). -/
def cstrBytes (str : List Byte) : List Byte := content str ++ [0]

/-- Whether a slot's rectangle has zero area (R36). -/
def zeroArea (r : Rect) : Bool := decide (r.w = 0 ∨ r.h = 0)

/-- The centroid's x, modulo 65536 (R148). -/
def centroidX (r : Rect) : U16 := r.x + u16Of (r.w.toNat / 2)

/-- The centroid's y, modulo 65536 (R148). -/
def centroidY (r : Rect) : U16 := r.y + u16Of (r.h.toNat / 2)

/-- `Contains(r, x, y)` (R160): both edges inclusive, over unbounded naturals. -/
def contains (r : Rect) (x y : U16) : Bool :=
  decide (r.x.toNat ≤ x.toNat ∧ x.toNat ≤ r.x.toNat + r.w.toNat
    ∧ r.y.toNat ≤ y.toNat ∧ y.toNat ≤ r.y.toNat + r.h.toNat)

/-- An area's rectangle with the window's origin added modulo 65536, if a window is set (R146). -/
def placed (w : Window) (r : Rect) : Rect :=
  if w.valid then { r with x := r.x + w.rect.x, y := r.y + w.rect.y } else r

end Sys2Proof.Machine
end

