-- ==== Sys2Proof/Machine/Flags.lean ====
section
/-! DEFINITION. Every check value and status predicate the spec computes: the additive checksums (40_codec.md R105 to
R107) and readiness (41_session.md R109). The block has no arithmetic condition codes (10_state.md R41). -/

namespace Sys2Proof.Machine

/-- `sum8(L)` (R10): the sum of every byte modulo 256. -/
def sum8 : List Byte → Byte
  | [] => 0
  | b :: rest => b + sum8 rest

/-- The outbound trailer (R105): it includes the control byte and the length byte. -/
def outTrailer (s : State) : Byte := s.outSum + s.ctrl + byteOf s.outLen

/-- The payload and the trailer of the inbound frame with declared length `n` (R46), if every byte is stored. -/
def inFrame (s : State) (n : Nat) : Option (List Byte × Byte) :=
  match readRange s.inBuf 2 n, inRead s (2 + n) with
  | some p, some t => some (p, t)
  | _, _ => none

/-- The sum test of `InboundValid()` (R107): length byte and payload, without the control byte. -/
def inboundSumOk (n : Byte) (p : List Byte) (trailer : Byte) : Bool := decide (sum8 (n :: p) = trailer)

/-- `is_ready()` (R109). -/
def isReady (s : State) : Bool :=
  match s.cfg.transport with
  | .blocking => true
  | .tick => decide (s.tstate = .ready)

/-- The block is not halted (R171). -/
def running (s : State) : Bool := decide (s.fault = .none)

end Sys2Proof.Machine
end

