-- ==== Sys2Proof/Machine/Dispatcher.lean ====
section
/-! DEFINITION. The dispatcher (43_registry.md R156 to R165): button and touch events, the hit test and the hook, and the meanings of the event
rows of spec/opcode_table.json. -/

namespace Sys2Proof.Machine

/-- `emit Diag(d)` (R12, R176). -/
def emitDiag (d : Diag) (s : State) : State := s.emit (.diag d)

/-- `emit Dispatch(i, s.slot[i].cb, s.slot[i].user, down)` (R157, R158); the slot is occupied wherever a rule does this. -/
def emitDispatch (i : Nat) (down : Bool) (s : State) : State :=
  match (slotAt s i).cb with
  | some cb => s.emit (.dispatch i cb (slotAt s i).user down)
  | none => s

/-- `HookCall()` (R164). -/
def hookCall (s : State) : State :=
  match s.hook with
  | some h => s.emit (.hook h)
  | none => s

/-- `HitTest(x, y)` (R159): from the highest index down, the first occupied slot that contains the point. -/
def hitTest (s : State) (x y : U16) : Option Nat :=
  (List.range s.cfg.nSlots).reverse.find? fun i => occupied s i && contains (slotAt s i).rect x y

/-- The code byte of a button event, resolved by index (R157, R83). -/
def resolveCode (c : Byte) (s : State) : State :=
  let k := (codeNumber c).toNat
  if k = 0 ∨ s.cfg.nSlots < k then emitDiag .badCode s
  else if !occupied s (k - 1) then emitDiag .unregisteredCode s
  else emitDispatch (k - 1) (codePress c) s

/-- `ButtonEvent()` (R157): the code byte is the last payload byte (R75). -/
def buttonEvent (p : List Byte) (s : State) : Res :=
  match p.getLast? with
  | some c => .ok (resolveCode c s)
  | none => .stop .payloadIndex

/-- A press or a release at a point (R158). -/
def touchPoint (down : Bool) (x y : U16) (s : State) : State :=
  match hitTest s x y with
  | some i => emitDispatch i down s
  | none => emitDiag .noHit s

/-- A touch by its sub-byte (R158, R82). -/
def touchSub (sub : Byte) (x y : U16) (s : State) : State :=
  if sub = s.cfg.subRepeat then s
  else if sub ≠ s.cfg.subPress ∧ sub ≠ s.cfg.subRelease then emitDiag .badTouchSub s
  else touchPoint (decide (sub = s.cfg.subPress)) x y s

/-- `TouchEvent()` (R158). -/
def touchEvent (p : List Byte) (s : State) : Res :=
  if p.length ≠ s.cfg.touchLen then .ok (emitDiag .badTouchLength s)
  else
    match p[s.cfg.offSub]?, u16At p s.cfg.offX, u16At p s.cfg.offY with
    | some sub, some x, some y => .ok (touchSub sub x y s)
    | _, _, _ => .stop .payloadIndex

/-- An event with an unrecognised command type, or too short to hold one (R81, R156). -/
def unknownEvent (s : State) : State := emitDiag .unknownEvent s

/-- `Dispatch()` on the payload of a valid frame (R156): one event, then the hook. -/
def dispatch (p : List Byte) (s : State) : Res :=
  (match eventKind s.cfg p with
    | .button => buttonEvent p s
    | .touch => touchEvent p s
    | .unknown => .ok (unknownEvent s)).andThen fun t => .ok (hookCall t)

/-! ## Meanings -/

/-- The dispatcher runs only in the EVENT step (R156), once the receive is done (R110), while not halted. -/
def dispatching (s : State) : Bool := decide (s.state = .event) && isReady s && running s

/-- A button/switch event (R75, R157), then the hook (R164). -/
def execEvButton (p : List Byte) (s : State) : Host.Outcome State Fault Refusal :=
  transition (dispatching s) s fun s => (buttonEvent p s).andThen fun t => .ok (hookCall t)

/-- A touch-area event (R76, R158), then the hook (R164). -/
def execEvTouch (p : List Byte) (s : State) : Host.Outcome State Fault Refusal :=
  transition (dispatching s) s fun s => (touchEvent p s).andThen fun t => .ok (hookCall t)

/-- An unrecognised event (R81), then the hook (R164). What its payload holds is not read. -/
def execEvUnknown (_p : List Byte) (s : State) : Host.Outcome State Fault Refusal :=
  transition (dispatching s) s fun s => .ok (hookCall (unknownEvent s))

/-- The button code byte (R74, R157). -/
def execButtonCode (press : Bool) (k : BitVec 7) (s : State) : Host.Outcome State Fault Refusal :=
  transition (dispatching s) s fun s => .ok (resolveCode (codeByte press k) s)

/-- Touch sub-byte `SUB_RELEASE` (R158). -/
def execSubRelease (x y : U16) (s : State) : Host.Outcome State Fault Refusal :=
  transition (dispatching s) s fun s => .ok (touchSub s.cfg.subRelease x y s)

/-- Touch sub-byte `SUB_PRESS` (R158). -/
def execSubPress (x y : U16) (s : State) : Host.Outcome State Fault Refusal :=
  transition (dispatching s) s fun s => .ok (touchSub s.cfg.subPress x y s)

/-- Touch sub-byte `SUB_REPEAT` (R82): ignored outright. The point is not read. -/
def execSubRepeat (s : State) : Host.Outcome State Fault Refusal :=
  transition (dispatching s) s fun s => .ok (touchSub s.cfg.subRepeat 0 0 s)

/-- Any other touch sub-byte (R82). The point is not read. -/
def execSubOther (b : Byte) (s : State) : Host.Outcome State Fault Refusal :=
  transition (dispatching s) s fun s => .ok (touchSub b 0 0 s)

end Sys2Proof.Machine
end

