-- ==== Sys2Proof/Machine/Transport.lean ====
section
/-! DEFINITION. The transport (42_transport.md): one tick, `transmit()`, `receive()`, the blocking variant, and the meanings of TICK and of the
handshake bytes. -/

namespace Sys2Proof.Machine

/-! ## One tick -/

/-- Tick in `T_START` (R130). -/
def tickStart (s : State) : Res :=
  match outRead s 1 with
  | some n => .ok { s.setCs true with tIdx := 0, tCnt := n.toNat + 3, tstate := .send }
  | none => .stop .unwrittenOut

/-- Tick in `T_SEND` (R131). -/
def tickSend (s : State) : Res :=
  if 0 < s.tCnt then
    match outRead s s.tIdx with
    | some b => .ok { busTx b s with tIdx := s.tIdx + 1, tCnt := s.tCnt - 1 }
    | none => .stop .unwrittenOut
  else .ok { s.setCs false with tWait := s.cfg.waitTicks, tstate := .wait }

/-- Tick in `T_WAIT` (R132). -/
def tickWait (s : State) : Res :=
  if 0 < s.tWait then .ok { s with tWait := s.tWait - 1 }
  else
    match busRx (s.setCs true) with
    | (b, t) => .ok { t with tAck := b, tstate := .receiveAck }

/-- The retries passed the ceiling (R133, R140). -/
def overLimit (limit : Option Nat) (retries : Nat) : Bool :=
  match limit with
  | none => false
  | some k => decide (k < retries)

/-- A handshake byte that is ACK (R133): the transfer succeeded. -/
def handshakeAck (s : State) : Res := .ok { s with tstate := .ready }

/-- A handshake byte that is not ACK (R133): the frame is resent from byte 0, or the ceiling is passed. -/
def handshakeNak (s : State) : Res :=
  let t := { s.setCs false with tRetries := s.tRetries + 1 }
  if overLimit s.cfg.retryLimit (s.tRetries + 1) then raise .retryLimit t
  else .ok { t with tstate := .start }

/-- Tick in `T_RECEIVE_ACK` (R133). -/
def tickReceiveAck (s : State) : Res := if s.tAck = s.cfg.ack then handshakeAck s else handshakeNak s

/-- Tick in `T_RECEIVE` (R134). -/
def tickReceive (s : State) : Res := .ok { s.setCs true with tIdx := 0, tCnt := 2, tstate := .receiveHeader }

/-- `RxStore(b)` (R137). -/
def rxStore (b : Byte) (s : State) : State :=
  if s.tIdx < s.cfg.cIn then
    { s with inBuf := writeMem s.inBuf s.tIdx b, inLen := s.inLen + 1, tIdx := s.tIdx + 1 }
  else { s with inOvf := true, tIdx := s.tIdx + 1 }

/-- One byte read and stored, and the countdown (R135, R136). -/
def rxByte (s : State) : State :=
  match busRx s with
  | (b, t) => { rxStore b t with tCnt := s.tCnt - 1 }

/-- Tick in `T_RECEIVE_HEADER` (R135). -/
def tickReceiveHeader (s : State) : Res :=
  let t := rxByte s
  if t.tCnt = 0 then
    match inRead t 1 with
    | some n => .ok { t with tCnt := n.toNat + 1, tstate := .receivePayload }
    | none => .stop .unwrittenIn
  else .ok t

/-- Tick in `T_RECEIVE_PAYLOAD` (R136). -/
def tickReceivePayload (s : State) : Res :=
  let t := rxByte s
  if t.tCnt = 0 then .ok { t with tstate := .ready } else .ok t

/-- Tick in `T_READY` (R138). -/
def tickReady (s : State) : Res := .ok { s.setCs false with tickEn := false }

/-- One transport step, chosen by `s.tstate` (R129). -/
def transportStep (s : State) : Res :=
  match s.tstate with
  | .start => tickStart s
  | .send => tickSend s
  | .wait => tickWait s
  | .receiveAck => tickReceiveAck s
  | .receive => tickReceive s
  | .receiveHeader => tickReceiveHeader s
  | .receivePayload => tickReceivePayload s
  | .ready => tickReady s

/-! ## The interface -/

/-- The tick rules applied until `T_READY` (R142), at most `n` of them; where that is not enough the transfer is in progress (log 15). -/
def runTransfer : Nat → State → Res
  | n, s =>
    if s.tstate = .ready then .ok s
    else
      match n with
      | 0 => .wait s
      | n + 1 => (transportStep s).andThen (runTransfer n)

/-- A handshake answer that is not ACK (R133, R143): a free byte where that is none, and NAK where it would be ACK. -/
def refusal (c : Cfg) (n : Nat) : Byte := if Config.displayByte n = c.ack then c.nak else Config.displayByte n

/-- The handshake answers of a blocking transmit, all drawn where it begins (R142, R143; log 15). Under a retry ceiling (R140), or
where an ACK is given, it ends on what is given. Else the display refuses a free number of times and then acknowledges, or it never
does: then one refusal more is drawn, and one more in each later turn of the same transmit, which never returns (R199). -/
def drawHandshakes (s : State) : State :=
  if s.cfg.retryLimit.isSome || decide (s.cfg.ack ∈ s.env.rx) then s
  else
    match if s.tstate = .ready then Config.refusalsBeforeAck s.env.rxCount else none with
    | some k =>
      { s with env := { s.env with
          rx := s.env.rx ++ (List.range k).map (fun i => refusal s.cfg (s.env.rxCount + i)) ++ [s.cfg.ack]
          rxCount := s.env.rxCount + k + 1 } }
    | none => { s with env := { s.env with rx := s.env.rx ++ [refusal s.cfg s.env.rxCount], rxCount := s.env.rxCount + 1 } }

/-- The attempts of a blocking transmit: at most `k + 1` under the ceiling `k` (R140), else one for each answer drawn. -/
def attempts (s : State) : Nat :=
  match s.cfg.retryLimit with
  | some k => k + 1
  | none => s.env.rx.length

/-- The tick rules one attempt takes (R139): `L + 7 + WAIT_TICKS`. -/
def attemptTicks (s : State) : Nat := ((outRead s 1).getD 0).toNat + 7 + s.cfg.waitTicks

/-- The tick rules a receive takes at most (R139): `n + 4`, with `n` at most 255. -/
def receiveTicks : Nat := 259

/-- `transmit()` (R127; in `Blocking`, R142). A blocking transmit that the display never acknowledges goes on (log 15). -/
def transmit (s : State) : Res :=
  match s.cfg.transport with
  | .tick => .ok { s with tstate := .start, tRetries := 0, tickEn := true }
  | .blocking =>
    let t := drawHandshakes s
    runTransfer (attempts t * attemptTicks t) (if s.tstate = .ready then { t with tstate := .start, tRetries := 0 } else t)

/-- `receive()` (R128; in `Blocking`, R142). -/
def receive (s : State) : Res :=
  match s.cfg.transport with
  | .tick => .ok { s with inLen := 0, inOvf := false, tstate := .receive, tickEn := true }
  | .blocking =>
    runTransfer receiveTicks
      (if s.tstate = .ready then { s with inLen := 0, inOvf := false, tstate := .receive } else s)

/-! ## Meanings -/

/-- A tick is taken only in the `Tick` variant, while enabled and not halted (R129, R179); otherwise it is lost. -/
def tickDelivered (s : State) : Bool :=
  decide (s.cfg.transport = .tick) && s.tickEn && running s

/-- The value of `s.cs` goes to the bus log at each delivered tick (R39(b)), also where the tick raises (R171). -/
def Res.logTick (r : Res) : Res :=
  match r with
  | .ok s => .ok (s.logBus (.cs s.cs))
  | .wait s => .wait (s.logBus (.cs s.cs))
  | .raised s => .raised (s.logBus (.cs s.cs))
  | .stop f => .stop f

/-- TICK (R129, R179). -/
def execTick (s : State) : Host.Outcome State Fault Refusal :=
  transition (tickDelivered s) s fun s => (transportStep s).logTick

/-- A handshake byte is compared only in `T_RECEIVE_ACK`, while not halted (R72, R133). -/
def handshakePending (s : State) : Bool := decide (s.tstate = .receiveAck) && running s

/-- The handshake byte ACK (R72, R133). -/
def execAck (s : State) : Host.Outcome State Fault Refusal :=
  transition (handshakePending s) s fun s => tickReceiveAck { s with tAck := s.cfg.ack }

/-- A handshake byte that is not ACK (R72, R133). -/
def execNak (b : Byte) (s : State) : Host.Outcome State Fault Refusal :=
  transition (handshakePending s) s fun s => tickReceiveAck { s with tAck := b }

end Sys2Proof.Machine
end

