-- ==== Sys2Proof/Machine/Session.lean ====
section
/-! DEFINITION. The session state machine (41_session.md): the finalize, the arming, the poll, the session step, driving, and the meanings of
SETUP, FLUSH, STEP, IS_READY, POLL and the two control bytes. -/

namespace Sys2Proof.Machine

/-! ## The session step -/

/-- `Finalize()` (40_codec.md R105). -/
def finalize (s : State) : Res :=
  (outWrite 0 s.ctrl s).andThen fun t =>
    (outWrite 1 (byteOf s.outLen) t).andThen fun t => outWrite (2 + s.outLen) (outTrailer s) t

/-- The next state a control byte chooses (R112, R71). -/
def nextStateOf (s : State) : NextState := if s.ctrl = s.cfg.ctrlResp then .receive else .reset

/-- `Arm()` (R112). -/
def arm (s : State) : Res :=
  (finalize s).andThen fun t => .ok { t with nextState := nextStateOf s, state := .transmit }

/-- Step in `READY` (R111): the poll. -/
def pollStep (s : State) : Res :=
  (appendAll s.cfg.pollPayload { s with ctrl := s.cfg.ctrlResp }).andThen arm

/-- Step in `TRANSMIT` (R113). -/
def transmitStep (s : State) : Res :=
  (transmit s).andThen fun t => .ok { t with state := t.nextState.session }

/-- Step in `RECEIVE` (R114). -/
def receiveStep (s : State) : Res := (receive s).andThen fun t => .ok { t with state := .event }

/-- What the EVENT step does with a frame of declared length `n` (R115). -/
def eventFrame (n : Byte) (s : State) : Res :=
  if n = 0 then .ok s
  else if s.inOvf then .ok (emitDiag .inboundOverflow s)
  else
    match inFrame s n.toNat with
    | some (p, trailer) =>
      if inboundSumOk n p trailer then dispatch p s else .ok (emitDiag .checksumMismatch s)
    | none => .stop .unwrittenIn

/-- Step in `EVENT` (R115). -/
def eventStep (s : State) : Res :=
  match inRead s 1 with
  | some n => (eventFrame n s).andThen fun t => .ok { t with state := .reset }
  | none => .stop .unwrittenIn

/-- Step in `RESET` (R116). -/
def resetStep (s : State) : Res :=
  .ok { s with outLen := 0, outSum := 0, ctrl := s.cfg.ctrlNoresp, state := .ready }

/-- The arm of `SessionStep()` that `s.state` chooses (R110). -/
def sessionArm (s : State) : Res :=
  match s.state with
  | .ready => pollStep s
  | .transmit => transmitStep s
  | .receive => receiveStep s
  | .event => eventStep s
  | .reset => resetStep s

/-- `SessionStep()` (R110): a step that is not ready is deferred, which is a wait that changes nothing. -/
def sessionStep (s : State) : Res := if isReady s then sessionArm s else .wait s

/-! ## Driving -/

/-- Iterations of a driving loop that one atomic transition takes: all of them in `Blocking` (at most four lead from TRANSMIT to READY, R117);
in `Tick`, ticks may come between any two (R14, R181; log 14). -/
def driveFuel (s : State) : Nat :=
  match s.cfg.transport with
  | .blocking => 4
  | .tick => 1

/-- `DriveToReady()` (R14), at most `n` iterations: it tests first, and ends at the first test after the block halts (R171). -/
def driveLoop : Nat → State → Res
  | n, s =>
    if s.fault ≠ .none then .raised s
    else if s.state = .ready then .ok s
    else
      match n with
      | 0 => .wait s
      | n + 1 => (sessionStep s).andThen (driveLoop n)

/-- `DriveToReady()` (R14) as far as one atomic transition takes it; where it waits, the host's position is `p`. -/
def drive (p : HostPos) (s : State) : Res := (driveLoop (driveFuel s) s).at p

/-- FLUSH's pseudocode (R119); `p` is the host's position in its loops. -/
def flushBody (p : HostPos) (s : State) : Res :=
  (drive p s).andThen fun t => if 0 < t.outLen then (arm t).andThen (drive p) else .ok t

/-! ## Meanings -/

/-- SETUP's pseudocode (R124). -/
def setupBody (s : State) : Res :=
  if s.attached then .ok s
  else
    match openChannel s with
    | (true, t) => .ok { t with attached := true }
    | (false, t) => .ok t

/-- SETUP's result (R124): the channel is attached, or its opening failed. -/
def setupResult (s : State) : Result := if s.attached then .ok else .setupFailed

/-- SETUP (R124). -/
def execSetup (s : State) : Host.Outcome State Fault Refusal := hostOp true true s setupResult setupBody

/-- FLUSH (R119). In progress, it goes on without the common checks (R18, R168). -/
def execFlush (s : State) : Host.Outcome State Fault Refusal :=
  match s.pos with
  | .flushing => (flushBody .flushing s).toOutcome unitResult
  | _ => hostOp false true s unitResult (flushBody .flushing)

/-- STEP's result where its step was taken (R110). -/
def steppedResult (_ : State) : Result := .stepped

/-- STEP's result where its step was deferred (R110). -/
def deferredResult (_ : State) : Result := .deferred

/-- STEP (R121). A blocking transmit that the display never acknowledges goes on (log 15). -/
def execStep (s : State) : Host.Outcome State Fault Refusal :=
  match s.pos with
  | .stepping =>
    (if running s then (sessionStep s).at .stepping else .raised s).toOutcome steppedResult
  | _ =>
    if isReady s then hostOp false true s steppedResult fun s => (sessionArm s).at .stepping
    else hostOp false true s deferredResult .ok

/-- IS_READY's result (R123). -/
def readyResult (s : State) : Result := .bool (isReady s)

/-- IS_READY (R123). -/
def execIsReady (s : State) : Host.Outcome State Fault Refusal := hostOp false true s readyResult .ok

/-- A frame can be armed: the session is READY, no transfer is in progress, the channel is open and the block is not halted (R110, R112, R169). -/
def armable (s : State) : Bool := decide (s.state = .ready) && isReady s && s.attached && running s

/-- POLL (R111): the frame the session arms when progress is requested in READY. -/
def execPoll (s : State) : Host.Outcome State Fault Refusal := transition (armable s) s pollStep

/-- The control byte `CTRL_NORESP` (R71, R112): the staged frame is armed under it. -/
def execCtrlNoresp (s : State) : Host.Outcome State Fault Refusal :=
  transition (armable s) s fun s => arm { s with ctrl := s.cfg.ctrlNoresp }

/-- The control byte `CTRL_RESP` (R71, R112): the staged frame is armed under it. -/
def execCtrlResp (s : State) : Host.Outcome State Fault Refusal :=
  transition (armable s) s fun s => arm { s with ctrl := s.cfg.ctrlResp }

end Sys2Proof.Machine
end

