-- ==== Sys2Proof/Machine/Codec.lean ====
section
/-! DEFINITION. The frame codec's operations (40_codec.md R91 to R104): BEGIN_FRAME, the typed calls, ENCODE and its directives, and the lead
byte of a command. -/

namespace Sys2Proof.Machine

/-- The sequencing guard (R91): staging starts only in READY. -/
def staging (body : State → Res) (s : State) : Res :=
  if s.state ≠ .ready then raise .sequence s else body s

/-- BEGIN_FRAME's pseudocode (R93); `p` names its loop. -/
def beginBody (p : HostPos) (s : State) : Res := (drive p s).andThen fun t => appendByte t.cfg.esc t

/-- BEGIN_FRAME (R93). In progress, it goes on where the host's position says (R18). -/
def execBeginFrame (s : State) : Host.Outcome State Fault Refusal :=
  match s.pos with
  | .beginning => (beginBody .beginning s).toOutcome unitResult
  | _ => hostOp false true s unitResult (beginBody .beginning)

/-- PUT_U8 (R94). -/
def execPutU8 (v : Nat) (s : State) : Host.Outcome State Fault Refusal :=
  hostOp false (isU8 v) s unitResult (staging (appendByte (byteOf v)))

/-- PUT_U16LE (R95). -/
def execPutU16le (v : Nat) (s : State) : Host.Outcome State Fault Refusal :=
  hostOp false (isU16 v) s unitResult (staging (appendAll (u16Bytes (u16Of v))))

/-- PUT_CSTR (R96). -/
def execPutCstr (str : List Byte) (s : State) : Host.Outcome State Fault Refusal :=
  hostOp false true s unitResult (staging (appendAll (cstrBytes str)))

/-! ## Directives -/

/-- Token `LIT(b)` (R98). -/
def opLit (b : Byte) (s : State) : Res := appendByte b s

/-- Token `%c` (R99). `NextArg(Int)` (R97) found `arg`. -/
def opChar (arg : Option Arg) (s : State) : Res :=
  match arg with
  | some (.int n) => appendByte (byteOf n) s
  | some (.str _) => raise .badArgument s
  | none => raise .badArgument s

/-- Token `%D` (R100). `NextArg(Int)` (R97) found `arg`. -/
def opWord (arg : Option Arg) (s : State) : Res :=
  match arg with
  | some (.int n) => appendAll (u16Bytes (u16Of n)) s
  | some (.str _) => raise .badArgument s
  | none => raise .badArgument s

/-- Token `%s` (R101). `NextArg(Str)` (R97) found `arg`. -/
def opStr (arg : Option Arg) (s : State) : Res :=
  match arg with
  | some (.str t) => appendAll (cstrBytes t) s
  | some (.int _) => raise .badArgument s
  | none => raise .badArgument s

/-- Token `%%` (R102). -/
def opPercent (s : State) : Res := appendByte percentByte s

/-- Token `%d` for an unrecognised `d` (R103). -/
def opUnknown (_d : Byte) (s : State) : Res := .ok (emitDiag .unknownDirective s)

/-- Token `TRAILING_PCT` (R104). -/
def opTrailing (s : State) : Res := .ok (emitDiag .unknownDirective s)

/-- One token with the argument NextArg finds (R97, R98 to R104). -/
def opToken (t : Token) (arg : Option Arg) (s : State) : Res :=
  match t with
  | .lit b => opLit b s
  | .char => opChar arg s
  | .word => opWord arg s
  | .str => opStr arg s
  | .percent => opPercent s
  | .unknown d => opUnknown d s
  | .trailing => opTrailing s

/-- The tokens in order, each that takes an argument consuming one (R97); arguments left over are ignored. -/
def encodeTokens : List Token → List Arg → State → Res
  | [], _, s => .ok s
  | t :: rest, args, s =>
    (opToken t args.head? s).andThen (encodeTokens rest (if t.takesArg then args.tail else args))

/-- ENCODE's pseudocode (R97). -/
def encodeBody (fmt : List Byte) (args : List Arg) (s : State) : Res :=
  staging (encodeTokens (formatTokens fmt) args) s

/-- ENCODE's result (R97): the new outbound length. -/
def lengthResult (s : State) : Result := .number s.outLen

/-- ENCODE (R97). -/
def execEncode (fmt : List Byte) (args : List Arg) (s : State) : Host.Outcome State Fault Refusal :=
  hostOp false true s lengthResult (encodeBody fmt args)

/-- A directive token by itself: the ENCODE of that one token (R97; log 12). -/
def oneToken (body : State → Res) (s : State) : Host.Outcome State Fault Refusal :=
  hostOp false true s lengthResult (staging body)

/-- `LIT(b)` (R98). -/
def execLit (b : Byte) (s : State) : Host.Outcome State Fault Refusal := oneToken (opLit b) s

/-- `%c` (R99). -/
def execDirChar (arg : Option Arg) (s : State) : Host.Outcome State Fault Refusal := oneToken (opChar arg) s

/-- `%D` (R100). -/
def execDirWord (arg : Option Arg) (s : State) : Host.Outcome State Fault Refusal := oneToken (opWord arg) s

/-- `%s` (R101). -/
def execDirStr (arg : Option Arg) (s : State) : Host.Outcome State Fault Refusal := oneToken (opStr arg) s

/-- `%%` (R102). -/
def execDirPercent (s : State) : Host.Outcome State Fault Refusal := oneToken opPercent s

/-- `%d` for an unrecognised `d` (R103). -/
def execDirUnknown (d : Byte) (s : State) : Host.Outcome State Fault Refusal := oneToken (opUnknown d) s

/-- A trailing `%` (R104). -/
def execTrailingPct (s : State) : Host.Outcome State Fault Refusal := oneToken opTrailing s

/-- The lead byte of a command (R73, R93): BEGIN_FRAME's append, once the session is READY (log 12). -/
def execEsc (s : State) : Host.Outcome State Fault Refusal :=
  hostOp false true s unitResult (staging fun s => appendByte s.cfg.esc s)

end Sys2Proof.Machine
end

