-- ==== Sys2Proof/Machine/Registry.lean ====
section
/-! DEFINITION. The widget registry's operations (43_registry.md R145 to R155). -/

namespace Sys2Proof.Machine

/-- A new widget's slot, for a handle that is not `none` (R145, R146): enabled (D27 of 92_eei_decisions.md). -/
def newSlot (cb : Option Handle) (user : Opaque) (r : Rect) : Slot :=
  { cb := cb, user := user, rect := r, enabled := true }

/-- Write the widget into the slot the scan found, or the table is full (R145, R146). -/
def allocate (found : Option Nat) (v : Slot) (s : State) : Res :=
  match found with
  | some i => .ok (setSlot i v s)
  | none => raise .registryFull s

/-- The result of an allocation (R65): the slot the scan found in the state before. -/
def slotResult (found : Option Nat) (_ : State) : Result := .slot (found.getD 0)

/-- ALLOC_CODE (R145): front-to-back. -/
def execAllocCode (cb : Option Handle) (user : Opaque) (s : State) : Host.Outcome State Fault Refusal :=
  hostOp false cb.isSome s (slotResult (firstEmpty s)) (allocate (firstEmpty s) (newSlot cb user Rect.zero))

/-- ALLOC_AREA (R146): back-to-front, the window's origin added. -/
def execAllocArea (r : RawRect) (cb : Option Handle) (user : Opaque) (s : State) :
    Host.Outcome State Fault Refusal :=
  hostOp false (isRect r && cb.isSome) s (slotResult (lastEmpty s))
    (allocate (lastEmpty s) (newSlot cb user (placed s.window (rectOf r))))

/-- The check of FREE and SET_ENABLED (R148, R151). -/
def slotInUse (i : Nat) (s : State) : Bool := decide (i < s.cfg.nSlots) && occupied s i

/-- FREE's last line (R148). -/
def freeClear (i : Nat) (s : State) : Res := .ok (setSlot i Slot.empty s)

/-- The remove command of slot `i` (R148): by code for a zero-area slot, else by centroid. -/
def removeCommand (i : Nat) (s : State) : Res :=
  let r := (slotAt s i).rect
  if zeroArea r then encodeBody s.cfg.removeCodeFmt [.int (i + 1)] s
  else encodeBody s.cfg.removePointFmt [.int (centroidX r).toNat, .int (centroidY r).toNat] s

/-- FREE's pseudocode from its FLUSH on (R148). -/
def freeFromFlush (i : Nat) (s : State) : Res := (flushBody .freeingFlush s).andThen (freeClear i)

/-- FREE's pseudocode from its BEGIN_FRAME on (R148). -/
def freeFromBegin (i : Nat) (s : State) : Res :=
  (beginBody .freeingBegin s).andThen fun t => (removeCommand i t).andThen (freeFromFlush i)

/-- FREE's pseudocode from its first line (R148). -/
def freeBody (i : Nat) (s : State) : Res := if slotInUse i s then freeFromBegin i s else raise .badSlot s

/-- FREE (R148). In progress, it goes on where the host's position says (R18). -/
def execFree (i : Nat) (s : State) : Host.Outcome State Fault Refusal :=
  match s.pos with
  | .freeingBegin => (freeFromBegin i s).toOutcome unitResult
  | .freeingFlush => (freeFromFlush i s).toOutcome unitResult
  | _ => hostOp false true s unitResult (freeBody i)

/-- SET_ENABLED's pseudocode (R151). -/
def setEnabledBody (i : Nat) (e : Bool) (s : State) : Res :=
  if slotInUse i s then .ok (setSlot i { slotAt s i with enabled := e } s) else raise .badSlot s

/-- SET_ENABLED (R151). -/
def execSetEnabled (i e : Nat) (s : State) : Host.Outcome State Fault Refusal :=
  hostOp false (isBit e) s unitResult (setEnabledBody i (decide (e = 1)))

/-- SET_WINDOW (R152). -/
def execSetWindow (r : RawRect) (s : State) : Host.Outcome State Fault Refusal :=
  hostOp false (isRect r) s unitResult fun s => .ok { s with window := { valid := true, rect := rectOf r } }

/-- CLEAR_WINDOW (R153). -/
def execClearWindow (s : State) : Host.Outcome State Fault Refusal :=
  hostOp false true s unitResult fun s => .ok { s with window := Window.none }

/-- SET_HOOK (R154). -/
def execSetHook (h : Option Handle) (s : State) : Host.Outcome State Fault Refusal :=
  hostOp false h.isSome s unitResult fun s => .ok { s with hook := h }

/-- CLEAR_HOOK (R155). -/
def execClearHook (s : State) : Host.Outcome State Fault Refusal :=
  hostOp false true s unitResult fun s => .ok { s with hook := none }

end Sys2Proof.Machine
end

