-- ==== Sys2Proof/Machine/System.lean ====
section
/-! DEFINITION. The RESET input (70_reset_and_hazards.md R189 to R192) and host operation records that are no row of the opcode map
(30_encoding.md R64). -/

namespace Sys2Proof.Machine

/-- Every field of R189 at its reset value. The configuration is not state; outputs already delivered stay delivered (R189); what the
environment will do next is not the block's (R191; log 16). -/
def resetBlock (s : State) : State := { State.resetOf s.cfg with env := s.env, out := s.out }

/-- RESET (R189): at any time, also while halted or in a transfer. -/
def execReset (s : State) : Host.Outcome State Fault Refusal := .next (resetBlock s)

/-- A record that is no row of the opcode map (R64): BAD_ARGUMENT, after the two checks before it (R168). SETUP's own opcode is exempt from
the second (R169; log 18). -/
def execUndefinedHostOpcode (o : Byte) (_ops : List Operand) (s : State) : Host.Outcome State Fault Refusal :=
  hostOp (decide (o = 0x00)) false s unitResult .ok

end Sys2Proof.Machine
end

