-- ==== Sys2Proof/Machine/Dispatch.lean ====
section
/-! DEFINITION. One arm per constructor of `Instr`: what each row of spec/opcode_table.json does. -/

namespace Sys2Proof.Machine

def exec (i : Instr) (s : State) : Host.Outcome State Fault Refusal :=
  match i with
  | .setup => Sys2Proof.Machine.execSetup s
  | .beginFrame => Sys2Proof.Machine.execBeginFrame s
  | .putU8 v => Sys2Proof.Machine.execPutU8 v s
  | .putU16le v => Sys2Proof.Machine.execPutU16le v s
  | .putCstr str => Sys2Proof.Machine.execPutCstr str s
  | .encode fmt args => Sys2Proof.Machine.execEncode fmt args s
  | .flush => Sys2Proof.Machine.execFlush s
  | .step => Sys2Proof.Machine.execStep s
  | .isReady => Sys2Proof.Machine.execIsReady s
  | .allocCode cb user => Sys2Proof.Machine.execAllocCode cb user s
  | .allocArea r cb user => Sys2Proof.Machine.execAllocArea r cb user s
  | .free n => Sys2Proof.Machine.execFree n s
  | .setEnabled n e => Sys2Proof.Machine.execSetEnabled n e s
  | .setWindow r => Sys2Proof.Machine.execSetWindow r s
  | .clearWindow => Sys2Proof.Machine.execClearWindow s
  | .setHook h => Sys2Proof.Machine.execSetHook h s
  | .clearHook => Sys2Proof.Machine.execClearHook s
  | .undefinedHostOpcode o ops => Sys2Proof.Machine.execUndefinedHostOpcode o ops s
  | .tick => Sys2Proof.Machine.execTick s
  | .reset => Sys2Proof.Machine.execReset s
  | .poll => Sys2Proof.Machine.execPoll s
  | .lit b => Sys2Proof.Machine.execLit b s
  | .dirChar arg => Sys2Proof.Machine.execDirChar arg s
  | .dirWord arg => Sys2Proof.Machine.execDirWord arg s
  | .dirStr arg => Sys2Proof.Machine.execDirStr arg s
  | .dirPercent => Sys2Proof.Machine.execDirPercent s
  | .dirUnknown d => Sys2Proof.Machine.execDirUnknown d s
  | .trailingPct => Sys2Proof.Machine.execTrailingPct s
  | .evButton p => Sys2Proof.Machine.execEvButton p s
  | .evTouch p => Sys2Proof.Machine.execEvTouch p s
  | .evUnknown p => Sys2Proof.Machine.execEvUnknown p s
  | .buttonCode press k => Sys2Proof.Machine.execButtonCode press k s
  | .subRelease x y => Sys2Proof.Machine.execSubRelease x y s
  | .subPress x y => Sys2Proof.Machine.execSubPress x y s
  | .subRepeat => Sys2Proof.Machine.execSubRepeat s
  | .subOther b => Sys2Proof.Machine.execSubOther b s
  | .ctrlNoresp => Sys2Proof.Machine.execCtrlNoresp s
  | .ctrlResp => Sys2Proof.Machine.execCtrlResp s
  | .ack => Sys2Proof.Machine.execAck s
  | .nak b => Sys2Proof.Machine.execNak b s
  | .esc => Sys2Proof.Machine.execEsc s

end Sys2Proof.Machine
end

