-- ==== Sys2Proof/Machine/Turns.lean ====
section
/-! DEFINITION. What a step adds around an instruction: taking the host's record from its port and giving the port up when the operation
returns (10_state.md R18, 20_memory.md R56). -/

namespace Sys2Proof.Machine

/-- The record the host's turn runs: the operation in progress, or the next one the host issues. -/
def portRecord (s : State) : Option Record := s.env.port.head?

/-- The first record leaves the port. -/
def State.popPort (s : State) : State := { s with env := { s.env with port := s.env.port.tail } }

/-- An operation that has returned leaves the port; one in progress stays there, and the host's next turn goes on with it (R18; log 14). -/
def State.retire (s : State) : State := if s.pos = .idle then s.popPort else s

/-- RESET abandons an operation in progress: it returns no result (R189, R191; log 16). -/
def State.abandon (s : State) : State := if s.pos = .idle then s else s.popPort

/-- Retire in the outcome of an instruction. -/
def retireOutcome (o : Host.Outcome State Fault Refusal) : Host.Outcome State Fault Refusal :=
  match o with
  | .next t => .next t.retire
  | .fault f => .fault f
  | .refused r => .refused r

/-- A record placed so that the host's next turn, which comes next, issues it (log 10). -/
def State.place (r : Record) (s : State) : State :=
  { s with pos := .idle, env := { s.env with port := r :: s.env.port, turns := .host :: s.env.turns } }

end Sys2Proof.Machine
end

