-- ==== Sys2Proof/Machine/Step.lean ====
section
/-! DEFINITION. One atomic transition of one agent (20_memory.md R56, 60_exceptions.md R181), and the table's words placed where the host's
next turn takes them. -/

namespace Sys2Proof.Machine

/-- The host's turn: the record at the port is decoded and run. With nothing to issue, the block waits (70_reset_and_hazards.md R190). -/
def hostTurn (s : State) : Host.Outcome State Fault Refusal :=
  match portRecord s with
  | none => .next s
  | some r =>
    match decode s.cfg r with
    | .ok i => retireOutcome (exec i s)
    | .error e => .refused (.badRecord e)

/-- One machine step: whose turn it is takes one atomic transition. -/
def step (s : State) : Host.Outcome State Fault Refusal :=
  match nextTurn s with
  | (.host, t) => hostTurn t
  | (.tick, t) => exec .tick t
  | (.reset, t) => exec .reset t.abandon

/-- The state whose next step runs the table word `w` of `nbits` bits. -/
def State.withFetchWord (s : State) (nbits w : Nat) : State := s.place (tableRecord nbits w)

end Sys2Proof.Machine
end

