-- ==== Sys2Proof/Safety.lean ====
section
/-! DEFINITION. The terms claims are stated in: what a good state is, what stays the same, and the closed forms of staging, arming and repeated
ticks. -/

namespace Sys2Proof.Machine

/-! ## The configuration -/

/-- The constraint column of R7's table (00_scope.md), as a proposition. -/
def ConfigConstraints (r : RawCfg) : Prop :=
  1 ≤ r.nSlots ∧ r.nSlots ≤ 127
  ∧ 4 ≤ r.cOut ∧ r.cOut ≤ 258
  ∧ 3 ≤ r.cIn
  ∧ r.esc = 0x1B
  ∧ r.ctrlNoresp ≠ r.ctrlResp
  ∧ r.ack ≠ r.nak
  ∧ r.pollPayload.length + 3 ≤ r.cOut
  ∧ r.evButton ≠ r.evTouch
  ∧ r.offCmd < 256
  ∧ r.offSub < r.touchLen ∧ r.offX + 1 < r.touchLen ∧ r.offY + 1 < r.touchLen
  ∧ r.subRelease = 0 ∧ r.subPress = 1 ∧ r.subRepeat = 2
  ∧ formatDirectives r.removeCodeFmt = [.char]
  ∧ formatDirectives r.removePointFmt = [.word, .word]

/-! ## Outcomes and runs -/

/-- Run `k` ticks one after another (42_transport.md R129), stopping at the first outcome that is no next state. -/
def ticks : Nat → State → Host.Outcome State Fault Refusal
  | 0, s => .next s
  | k + 1, s =>
    match exec .tick s with
    | .next t => ticks k t
    | .fault f => .fault f
    | .refused r => .refused r

/-- Run instructions one after another, stopping at the first outcome that is no next state. -/
def execAll : List Instr → State → Host.Outcome State Fault Refusal
  | [], s => .next s
  | i :: rest, s =>
    match exec i s with
    | .next t => execAll rest t
    | .fault f => .fault f
    | .refused r => .refused r

/-! ## What stays the same -/

/-- Only the host's position, the environment and the outputs may differ: every field of 10_state.md is the same. -/
def SameBlock (s t : State) : Prop := t = { s with pos := t.pos, env := t.env, out := t.out }

/-- The widget table, the window and the hook are the same (10_state.md R35 to R38). -/
def SameRegistry (s t : State) : Prop := t.slots = s.slots ∧ t.window = s.window ∧ t.hook = s.hook

/-! ## Ready to run -/

/-- The common checks (60_exceptions.md R168) let an operation through to its operands: not halted, and attached. -/
def Accepting (s : State) : Prop := s.fault = .none ∧ s.attached = true

/-- Staging may start (40_codec.md R91). -/
def Staging (s : State) : Prop := Accepting s ∧ s.state = .ready

/-! ## Instructions by kind -/

/-- The host operations, listed and unlisted (30_encoding.md R65). -/
def isHostOp : Instr → Bool
  | .setup | .beginFrame | .putU8 _ | .putU16le _ | .putCstr _ | .encode _ _ | .flush | .step | .isReady | .allocCode _ _
  | .allocArea _ _ _ | .free _ | .setEnabled _ _ | .setWindow _ | .clearWindow | .setHook _ | .clearHook
  | .undefinedHostOpcode _ _ => true
  | _ => false

/-- SETUP's opcode (60_exceptions.md R169): SETUP itself, or a record with its opcode and operands that do not match. -/
def isSetupOp : Instr → Bool
  | .setup => true
  | .undefinedHostOpcode o _ => decide (o = 0x00)
  | _ => false

/-- The operations and the input that write the registry (10_state.md R35, R37, R38). -/
def writesRegistry : Instr → Bool
  | .allocCode _ _ | .allocArea _ _ _ | .free _ | .setEnabled _ _ | .setWindow _ | .clearWindow | .setHook _ | .clearHook
  | .reset => true
  | _ => false

/-- The bytes a typed call appends (40_codec.md R94 to R96). -/
def putBytes : Instr → Option (List Byte)
  | .putU8 v => some [BitVec.ofNat 8 v]
  | .putU16le v => some [BitVec.ofNat 8 v, BitVec.ofNat 8 (v / 256)]
  | .putCstr str => some (str.takeWhile (· ≠ 0) ++ [0])
  | _ => none

/-- What one token appends, given the argument NextArg finds for it (30_encoding.md R78, R79); `none` where it raises BAD_ARGUMENT. -/
def tokenBytes : Token → Option Arg → Option (List Byte)
  | .lit b, _ => some [b]
  | .char, some (.int n) => some [BitVec.ofNat 8 n]
  | .word, some (.int n) => some [BitVec.ofNat 8 n, BitVec.ofNat 8 (n / 256)]
  | .str, some (.str t) => some (t.takeWhile (· ≠ 0) ++ [0])
  | .percent, _ => some [0x25]
  | .unknown _, _ => some []
  | .trailing, _ => some []
  | _, _ => none

/-- The number of diagnostics one token emits (30_encoding.md R78). -/
def tokenDiags : Token → Nat
  | .unknown _ => 1
  | .trailing => 1
  | _ => 0

/-- What a token list appends and how many diagnostics it emits, each token that takes an argument consuming one (40_codec.md R97); `none`
where some token raises BAD_ARGUMENT. -/
def tokensEffect : List Token → List Arg → Option (List Byte × Nat)
  | [], _ => some ([], 0)
  | t :: rest, args =>
    match tokenBytes t args.head?, tokensEffect rest (if t.takesArg then args.tail else args) with
    | some b, some (bs, k) => some (b ++ bs, tokenDiags t + k)
    | _, _ => none

/-- The arguments left after a token list (40_codec.md R97). -/
def argsLeft : List Token → List Arg → List Arg
  | [], args => args
  | t :: rest, args => argsLeft rest (if t.takesArg then args.tail else args)

/-- The token a directive row stands for, with the argument found for it (30_encoding.md R78). -/
def tokenOf : Instr → Option (Token × Option Arg)
  | .lit b => some (.lit b, none)
  | .dirChar arg => some (.char, arg)
  | .dirWord arg => some (.word, arg)
  | .dirStr arg => some (.str, arg)
  | .dirPercent => some (.percent, none)
  | .dirUnknown d => some (.unknown d, none)
  | .trailingPct => some (.trailing, none)
  | _ => none

/-! ## Closed forms -/

/-- Consecutive bytes written from index `a` on. -/
def writeBytes : Memory → Nat → List Byte → Memory
  | m, _, [] => m
  | m, a, b :: rest => writeBytes (writeMem m a b) (a + 1) rest

/-- The bytes `l` staged at the cursor `2 + s.out_len` (20_memory.md R45, 40_codec.md R92). -/
def State.staged (l : List Byte) (s : State) : State :=
  { s with
    outBuf := writeBytes s.outBuf (2 + s.outLen) l
    outLen := s.outLen + l.length
    outSum := s.outSum + sum8 l }

/-- `t` holds the bytes `l` in the outbound buffer from index `a` on, and every other byte of it as `s` does. -/
def StoredAt (a : Nat) (l : List Byte) (s t : State) : Prop :=
  (∀ j, j < l.length → outRead t (a + j) = l[j]?)
    ∧ ∀ i, i < a ∨ a + l.length ≤ i → outRead t i = outRead s i

/-- Whether `l` fits behind what is staged (10_state.md R21). -/
def fits (l : List Byte) (s : State) : Prop := s.outLen + l.length + 3 ≤ s.cfg.cOut

/-- The staged frame finalized and armed (40_codec.md R105, 41_session.md R112). -/
def State.armed (s : State) : State :=
  { s with
    outBuf := writeMem (writeMem (writeMem s.outBuf 0 s.ctrl) 1 (BitVec.ofNat 8 s.outLen)) (2 + s.outLen)
      (s.outSum + s.ctrl + BitVec.ofNat 8 s.outLen)
    nextState := if s.ctrl = s.cfg.ctrlResp then .receive else .reset
    state := .transmit }

/-- `t` holds in its outbound buffer what `s` has staged, `l` behind it, and the header and trailer of that frame under control byte `c`
(20_memory.md R45); every other byte of the buffer is as in `s`. -/
def ArmedFrame (c : Byte) (l : List Byte) (s t : State) : Prop :=
  outRead t 0 = some c
  ∧ outRead t 1 = some (BitVec.ofNat 8 (s.outLen + l.length))
  ∧ (∀ j, j < l.length → outRead t (2 + s.outLen + j) = l[j]?)
  ∧ outRead t (2 + s.outLen + l.length) = some (s.outSum + sum8 l + c + BitVec.ofNat 8 (s.outLen + l.length))
  ∧ ∀ i, i ≠ 0 → i ≠ 1 → i < 2 + s.outLen ∨ 2 + s.outLen + l.length < i → outRead t i = outRead s i

/-- `t` is `s` with `l` appended to what is staged and the frame finalized and armed under control byte `c` (40_codec.md R92, R105,
41_session.md R112); no other field is written. -/
def ArmedUnder (c : Byte) (l : List Byte) (nx : NextState) (s t : State) : Prop :=
  ArmedFrame c l s t
  ∧ t = { s with
    outBuf := t.outBuf
    outLen := s.outLen + l.length
    outSum := s.outSum + sum8 l
    ctrl := c
    nextState := nx
    state := .transmit }

/-- The bytes of the armed frame, in wire order (30_encoding.md R68), from its payload. -/
def frameBytes (ctrl : Byte) (payload : List Byte) : List Byte :=
  [ctrl, BitVec.ofNat 8 payload.length] ++ payload ++ [ctrl + BitVec.ofNat 8 payload.length + sum8 payload]

/-- A blocking session with an armed frame still to send: the frame's bytes, from its control byte to its trailer, and its length byte
(41_session.md R113, 20_memory.md R45). -/
def Sending (s : State) (len : Byte) (frame : List Byte) : Prop :=
  s.cfg.transport = .blocking ∧ s.state = .transmit ∧ s.tstate = .ready
    ∧ outRead s 1 = some len ∧ readRange s.outBuf 0 (len.toNat + 3) = some frame

/-- The bus records of one transmit attempt: the frame's bytes, then the handshake read (42_transport.md R131, R132). -/
def attemptBus (frame : List Byte) (dummy answer : Byte) : List BusRecord :=
  frame.map .tx ++ [.rx dummy answer]

/-- `t` is `s` after a receive tick whose read cycle gave byte `b` and left the environment `e`, with the countdown at `cnt` and the transport in
`ts` (42_transport.md R135 to R137): the byte is stored at `s.t_idx` if that index is inside the buffer, and dropped with `s.in_ovf` set if it
is not; every other byte of the buffer is as before. -/
def ReceivedByte (b : Byte) (e : Env) (cnt : Nat) (ts : TransportState) (s t : State) : Prop :=
  (s.tIdx < s.cfg.cIn → inRead t s.tIdx = some b)
  ∧ (∀ i, i ≠ s.tIdx ∨ s.cfg.cIn ≤ s.tIdx → inRead t i = inRead s i)
  ∧ t = { s with
      inBuf := t.inBuf
      inLen := if s.tIdx < s.cfg.cIn then s.inLen + 1 else s.inLen
      inOvf := if s.tIdx < s.cfg.cIn then s.inOvf else true
      tIdx := s.tIdx + 1
      tCnt := cnt
      tstate := ts
      env := e
      out := { s.out with bus := s.out.bus ++ [.rx s.cfg.dummyTx b, .cs s.cs] } }

/-- The bytes of the bus log, the records of the bus-select line left out (10_state.md R39(b)). -/
def wireLog (l : List BusRecord) : List BusRecord :=
  l.filter fun b => match b with
    | .cs _ => false
    | .tx _ => true
    | .rx _ _ => true

/-- The event a callback invocation of slot `i` is, if the slot is occupied (43_registry.md R157, R158). -/
def dispatchEvent (s : State) (i : Nat) (down : Bool) : Option Event :=
  (slotAt s i).cb.map fun cb => .dispatch i cb (slotAt s i).user down

/-- The hook's event, if a hook is set (43_registry.md R164). -/
def hookEvents (s : State) : List Event := s.hook.toList.map .hook

/-- The record a button code brings (43_registry.md R157, 30_encoding.md R83): press flag and `slot index + 1`. -/
def codeEvents (s : State) (press : Bool) (k : Nat) : List Event :=
  if k = 0 ∨ s.cfg.nSlots < k then [.diag .badCode]
  else
    match dispatchEvent s (k - 1) press with
    | some e => [e]
    | none => [.diag .unregisteredCode]

/-- The record a press or a release at a point brings (43_registry.md R158, R159). -/
def pointEvents (s : State) (down : Bool) (x y : U16) : List Event :=
  match hitTest s x y with
  | some i => (dispatchEvent s i down).toList
  | none => [.diag .noHit]

/-- The record a touch sub-byte brings (43_registry.md R158, 30_encoding.md R82). -/
def subEvents (s : State) (sub : Byte) (x y : U16) : List Event :=
  if sub = s.cfg.subRepeat then []
  else if sub = s.cfg.subPress then pointEvents s true x y
  else if sub = s.cfg.subRelease then pointEvents s false x y
  else [.diag .badTouchSub]

/-- The little-endian field at offset `o` of a payload (20_memory.md R51). -/
def field16 (p : List Byte) (o : Nat) : U16 := BitVec.ofNat 16 ((p.getD o 0).toNat + 256 * (p.getD (o + 1) 0).toNat)

/-- The records a dispatched payload brings (43_registry.md R156 to R158, R164): the event's own, then the hook's. -/
def payloadEvents (s : State) (p : List Byte) : List Event :=
  (match eventKind s.cfg p with
    | .button => codeEvents s (codePress (p.getLastD 0)) (codeNumber (p.getLastD 0)).toNat
    | .touch =>
      if p.length = s.cfg.touchLen then
        subEvents s (p.getD s.cfg.offSub 0) (field16 p s.cfg.offX) (field16 p s.cfg.offY)
      else [.diag .badTouchLength]
    | .unknown => [.diag .unknownEvent]) ++ hookEvents s

/-- The records the EVENT step emits for a received frame with length byte `n`, payload `p` and trailer `trailer` (41_session.md R115,
40_codec.md R107). -/
def replyEvents (s : State) (n : Byte) (p : List Byte) (trailer : Byte) : List Event :=
  if n = 0 then []
  else if s.cfg.cIn < n.toNat + 3 then [.diag .inboundOverflow]
  else if sum8 (n :: p) = trailer then payloadEvents s p
  else [.diag .checksumMismatch]

/-- Slot `i` is occupied and its rectangle contains the point, both edges inclusive, over unbounded naturals (43_registry.md R159, R160). -/
def PointInSlot (s : State) (i x y : Nat) : Prop :=
  (slotAt s i).cb ≠ none
  ∧ (slotAt s i).rect.x.toNat ≤ x ∧ x ≤ (slotAt s i).rect.x.toNat + (slotAt s i).rect.w.toNat
  ∧ (slotAt s i).rect.y.toNat ≤ y ∧ y ≤ (slotAt s i).rect.y.toNat + (slotAt s i).rect.h.toNat

/-- The EVENT step can run: the receive is done and the block is not halted (41_session.md R110, R115). -/
def Dispatching (s : State) : Prop :=
  s.state = .event ∧ (s.cfg.transport = .tick → s.tstate = .ready) ∧ s.fault = .none

/-- Events appended to the stream, in order. -/
def State.withEvents (l : List Event) (s : State) : State :=
  { s with out := { s.out with events := s.out.events ++ l } }

/-! ## Widgets -/

/-- An allocation that passes the operand checks (43_registry.md R145, R146). -/
def isAlloc : Instr → Bool
  | .allocCode cb _ => cb.isSome
  | .allocArea r cb _ => r.wf && cb.isSome
  | _ => false

/-- The widget ALLOC_CODE stores (43_registry.md R145), if the instruction is one. -/
def codeWidget : Instr → Option Slot
  | .allocCode cb user => some { cb := cb, user := user, rect := Rect.zero, enabled := true }
  | _ => none

/-- The widget ALLOC_AREA stores under a window (43_registry.md R146), if the instruction is one: the window's origin is added modulo 65536. -/
def areaWidget (w : Window) : Instr → Option Slot
  | .allocArea r cb user =>
    some {
      cb := cb
      user := user
      rect := {
        x := BitVec.ofNat 16 (r.x + if w.valid then w.rect.x.toNat else 0)
        y := BitVec.ofNat 16 (r.y + if w.valid then w.rect.y.toNat else 0)
        w := BitVec.ofNat 16 r.w
        h := BitVec.ofNat 16 r.h }
      enabled := true }
  | _ => none

/-- The payload of slot `i`'s remove command behind its ESC (43_registry.md R148): by code where the rectangle has zero area, else by centroid. -/
def removeBytes (s : State) (i : Nat) : Option (List Byte) :=
  let r := (slotAt s i).rect
  if r.w = 0 ∨ r.h = 0 then
    (tokensEffect (formatTokens s.cfg.removeCodeFmt) [.int (i + 1)]).map (·.1)
  else
    (tokensEffect (formatTokens s.cfg.removePointFmt)
      [.int ((r.x.toNat + r.w.toNat / 2) % 65536), .int ((r.y.toNat + r.h.toNat / 2) % 65536)]).map (·.1)

/-! ## Good states -/

/-- Both buffers are in canonical form and hold nothing outside their capacity (20_memory.md R44). -/
structure MemoryInv (s : State) : Prop where
  outWf : Memory.wf s.outBuf = true
  inWf : Memory.wf s.inBuf = true
  outBound : ∀ i, s.cfg.cOut ≤ i → outRead s i = none
  inBound : ∀ i, s.cfg.cIn ≤ i → inRead s i = none

/-- The outbound length leaves room for header and trailer (10_state.md R21), and the accumulator is the sum of the staged bytes, all of which
are stored (R22). -/
structure CodecInv (s : State) : Prop where
  room : s.outLen + 3 ≤ s.cfg.cOut
  sum : ∃ p, readRange s.outBuf 2 s.outLen = some p ∧ sum8 p = s.outSum

/-- The control byte is one of the two (R23); in READY it is the default unless the block is halted (41_session.md R118); outside READY the
header and trailer are in the buffer (20_memory.md R45, R43); in TRANSMIT the next state is the one the control byte chose (R112). -/
structure SessionInv (s : State) : Prop where
  ctrlLegal : s.ctrl = s.cfg.ctrlNoresp ∨ s.ctrl = s.cfg.ctrlResp
  readyCtrl : s.state = .ready → s.fault = .none → s.ctrl = s.cfg.ctrlNoresp
  header : s.state ≠ .ready → outRead s 0 = some s.ctrl ∧ outRead s 1 = some (byteOf s.outLen)
    ∧ outRead s (2 + s.outLen) = some (outTrailer s)
  chosen : s.state = .transmit → s.nextState = nextStateOf s

/-- The transport states of a transmit (10_state.md R30). -/
def sendingState : TransportState → Bool
  | .start | .send | .wait | .receiveAck => true
  | .ready | .receive | .receiveHeader | .receivePayload => false

/-- The transport states of a receive (10_state.md R30). -/
def receivingState : TransportState → Bool
  | .receive | .receiveHeader | .receivePayload => true
  | .ready | .start | .send | .wait | .receiveAck => false

/-- The session state while a transmit is in progress: in `Tick` the state after TRANSMIT, in `Blocking` still TRANSMIT (42_transport.md R141). -/
def sendingSession (s : State) : SessionState :=
  match s.cfg.transport with
  | .blocking => .transmit
  | .tick => s.nextState.session

/-- The session state while a receive is in progress. -/
def receivingSession (s : State) : SessionState :=
  match s.cfg.transport with
  | .blocking => .receive
  | .tick => .event

/-- The transport's counters agree with the frame in flight (10_state.md R31, R43; 42_transport.md R130 to R137), and in EVENT with no transfer in
progress the whole frame is stored unless it overflowed (20_memory.md R55). -/
structure TransportInv (s : State) : Prop where
  sending : sendingState s.tstate = true → s.state = sendingSession s
  receiving : receivingState s.tstate = true → s.state = receivingSession s
  sendCount : s.tstate = .send → s.tIdx + s.tCnt = s.outLen + 3
  fresh : s.tstate = .receive → s.inLen = 0 ∧ s.inOvf = false
  headerCount : s.tstate = .receiveHeader → s.tIdx + s.tCnt = 2 ∧ 0 < s.tCnt
  payloadCount : s.tstate = .receivePayload →
    0 < s.tCnt ∧ 2 ≤ s.tIdx ∧ ∃ n, inRead s 1 = some n ∧ s.tIdx + s.tCnt = n.toNat + 3
  stored : s.tstate = .receiveHeader ∨ s.tstate = .receivePayload →
    s.inLen = min s.tIdx s.cfg.cIn ∧ s.inOvf = decide (s.cfg.cIn < s.tIdx)
      ∧ ∀ i, i < min s.tIdx s.cfg.cIn → inRead s i ≠ none
  frame : s.state = .event → s.tstate = .ready →
    ∃ n, inRead s 1 = some n ∧ (s.inOvf = false → ∀ i, i < n.toNat + 3 → inRead s i ≠ none)
  inLenBound : s.inLen ≤ s.cfg.cIn

/-- In `Blocking` the tick is off and the line is not driven (10_state.md R33, 42_transport.md R142); in `Tick` the tick is on while a transfer
is in progress (R34). -/
structure LineInv (s : State) : Prop where
  blocking : s.cfg.transport = .blocking → s.tickEn = false ∧ s.cs = false
  tick : s.cfg.transport = .tick → s.tstate ≠ .ready → s.tickEn = true

/-- The table has `N_SLOTS` entries, and an entry without a callback is wholly empty (10_state.md R35). -/
structure TableInv (s : State) : Prop where
  size : s.slots.length = s.cfg.nSlots
  emptySlots : ∀ v ∈ s.slots, v.cb = none → v = Slot.empty

/-- A good state. -/
structure GoodState (s : State) : Prop where
  memory : MemoryInv s
  codec : CodecInv s
  session : SessionInv s
  transport : TransportInv s
  line : LineInv s
  table : TableInv s

end Sys2Proof.Machine
end

