-- ==== Sys2Proof/Certificates/Slice0/Obligations.lean ====
section
/-! DEFINITION. The statements for the provers. Each docstring says which rules of spec/ it formalises. -/

open Sys2Proof Sys2Proof.Machine

/-! ## Encoding and the step -/

/-- Decoding what the encoder writes for a well-formed instruction gives it back, for every row of spec/opcode_table.json
(30_encoding.md R64 to R66, R71 to R78). -/
def Obligations.DecodeReadsWhatEncodeWrites : Prop :=
  ∀ (c : Cfg) (i : Instr), i.wf c = true → decode c (encode c i) = .ok i

/-- The decoder of host operations is total (R64): every opcode byte with any operands is some host operation, which the encoder
writes back as the same record. That it is the undefined one exactly where the operands do not match a row of R65 is the model's
choice (log 18). -/
def Obligations.HostRecordsHaveOneMeaning : Prop :=
  ∀ (c : Cfg) (o : Byte) (ops : List Operand), ∃ i : Instr,
    decode c { format := .hostop, bytes := [o], operands := ops } = .ok i
    ∧ isHostOp i = true
    ∧ encode c i = { format := .hostop, bytes := [o], operands := ops }
    ∧ (operandsMatch o ops = false ↔ i = .undefinedHostOpcode o ops)

/-- A few words of spec/opcode_table.json as the table numbers them, with operands of zeros (log 11). -/
def Obligations.TableWordsDecode : Prop :=
  decodeTableWord 8 0x00 = some .setup
  ∧ decodeTableWord 8 0x02 = some (.putU8 0)
  ∧ decodeTableWord 8 0x05 = some (.encode [] [])
  ∧ decodeTableWord 8 0x12 = some (.free 0)
  ∧ decodeTableWord 8 0x17 = some .clearHook
  ∧ decodeTableWord 8 0x1B = some .esc
  ∧ decodeTableWord 8 0x25 = some .trailingPct
  ∧ decodeTableWord 8 0x41 = some (.evButton [0x41])
  ∧ decodeTableWord 8 0x48 = some (.evTouch [0x48])
  ∧ decodeTableWord 8 0xFF = some (.undefinedHostOpcode 0xFF [])
  ∧ decodeTableWord 16 0x2563 = some (.dirChar (some (.int 0)))
  ∧ decodeTableWord 16 0x2525 = some .dirPercent
  ∧ decodeTableWord 0 0 = some .tick

/-- Tokenising left to right (R77), over C-string content (R67). -/
def Obligations.FormatTokensReadLeftToRight : Prop :=
  formatTokens [] = []
  ∧ (∀ rest, formatTokens (0 :: rest) = [])
  ∧ (∀ b rest, b ≠ 0 → b ≠ 0x25 → formatTokens (b :: rest) = .lit b :: formatTokens rest)
  ∧ formatTokens [0x25] = [.trailing]
  ∧ (∀ rest, formatTokens (0x25 :: 0 :: rest) = [.trailing])
  ∧ ∀ d rest, d ≠ 0 → formatTokens (0x25 :: d :: rest) = directiveOf d :: formatTokens rest

/-- A configuration that breaks a constraint of R7's table is refused, and every configuration a state carries keeps them all
(R8). That a trailing `%` in a remove format breaks its constraint is the model's choice (log 23). -/
def Obligations.ConfigurationsKeepTheirConstraints : Prop :=
  (∀ r : RawCfg, (Cfg.ofRaw r).isSome = true ↔ ConfigConstraints r)
  ∧ ∀ s : State, ConfigConstraints s.cfg.toRawCfg

/-- The host's turn takes the record at its port: what it decodes to is executed, and the record leaves the port when the
operation returns (10_state.md R18, 20_memory.md R56). An operation in progress keeps its record there (the model's choice, log
14). -/
def Obligations.StepRunsTheDecodedInstruction : Prop :=
  ∀ (s u : State) (r : Record) (i : Instr),
    nextTurn s = (.host, u) → u.env.port.head? = some r → decode u.cfg r = .ok i →
    (∀ t, exec i u = .next t → t.pos = .idle → step s = .next { t with env := { t.env with port := t.env.port.tail } })
    ∧ (∀ t, exec i u = .next t → t.pos ≠ .idle → step s = .next t)
    ∧ ∀ f, exec i u = .fault f → step s = .fault f

/-- The turns of the tick source and of the RESET input (20_memory.md R56, 60_exceptions.md R181), an empty port, and a record
that spells no row. RESET drops an operation in progress from the port (the model's choice, log 16). -/
def Obligations.StepTakesTheOtherTurns : Prop :=
  ∀ s u : State,
    (nextTurn s = (.tick, u) → step s = exec .tick u)
    ∧ (nextTurn s = (.reset, u) → u.pos = .idle → step s = exec .reset u)
    ∧ (nextTurn s = (.reset, u) → u.pos ≠ .idle →
        step s = exec .reset { u with env := { u.env with port := u.env.port.tail } })
    ∧ (nextTurn s = (.host, u) → u.env.port.head? = none → step s = .next u)
    ∧ ∀ r e, nextTurn s = (.host, u) → u.env.port.head? = some r → decode u.cfg r = .error e →
        step s = .refused (.badRecord e)

/-- With nothing at the host's port and the tick masked, the block waits: a turn of the host or of the tick source changes no
field of 10_state.md and gives no output (R190). After reset that is so. That the host's operations come from a port, and that
it is empty after reset, is the model's choice (log 10). -/
def Obligations.EmptyPortWaits : Prop :=
  (∀ s : State, s.env.port = [] → s.tickEn = false → (nextTurn s).1 ≠ .reset →
    ∃ t, step s = .next t ∧ SameBlock s t ∧ t.pos = s.pos ∧ t.out = s.out)
  ∧ State.reset.env.port = [] ∧ State.reset.tickEn = false

/-! ## The common checks and the fault register -/

/-- While halted, every host operation, SETUP included, returns `Halted`, changes no state and emits no event (R172). -/
def Obligations.HaltedOperationsReturnHalted : Prop :=
  ∀ (i : Instr) (s : State), isHostOp i = true → s.pos = .idle → s.fault ≠ .none →
    exec i s = .next { s with out := { s.out with results := s.out.results ++ [.halted] } }

/-- Once halted, no field changes again but by the RESET input (60_exceptions.md R171): every other instruction, an operation in
progress among them, leaves the block, its events and its bus log as they are. -/
def Obligations.HaltedBlockStaysAsItIs : Prop :=
  ∀ (i : Instr) (s : State), i ≠ .reset → s.fault ≠ .none →
    ∃ t, exec i s = .next t ∧ SameBlock s t ∧ t.env = s.env ∧ t.out.events = s.out.events ∧ t.out.bus = s.out.bus

/-- Before a successful SETUP every other host operation faults NOT_ATTACHED (R169). -/
def Obligations.UnattachedOperationsFault : Prop :=
  ∀ (i : Instr) (s : State), isHostOp i = true → isSetupOp i = false → s.pos = .idle →
    s.fault = .none → s.attached = false →
    exec i s = .next ({ s with fault := .notAttached }.ret (.fault .notAttached))

/-- Operands outside their types fault BAD_ARGUMENT, and so does a record that is no row of the opcode map (60_exceptions.md
R168 step 3; 30_encoding.md R64, R66). With SETUP's opcode that holds before a SETUP too (the model's choice, log 18). -/
def Obligations.BadOperandsFault : Prop :=
  (∀ (i : Instr) (s : State), isHostOp i = true → (∀ o ops, i ≠ .undefinedHostOpcode o ops) → i.wf s.cfg = false →
    Accepting s → exec i s = .next ({ s with fault := .badArgument }.ret (.fault .badArgument)))
  ∧ (∀ (o : Byte) (ops : List Operand) (s : State), Accepting s →
    exec (.undefinedHostOpcode o ops) s = .next ({ s with fault := .badArgument }.ret (.fault .badArgument)))
  ∧ ∀ (ops : List Operand) (s : State), s.fault = .none →
    exec (.undefinedHostOpcode 0x00 ops) s = .next ({ s with fault := .badArgument }.ret (.fault .badArgument))

/-- PUT_U8, PUT_U16LE, PUT_CSTR and ENCODE outside READY fault SEQUENCE before writing anything (R91). -/
def Obligations.SequenceGuardFaults : Prop :=
  ∀ (i : Instr) (s : State), (putBytes i).isSome = true ∨ (∃ fmt args, i = .encode fmt args) → i.wf s.cfg = true →
    Accepting s → s.state ≠ .ready →
    exec i s = .next ({ s with fault := .sequence }.ret (.fault .sequence))

/-! ## Staging -/

/-- PUT_U8, PUT_U16LE and PUT_CSTR append their bytes at the cursor and add them to the sum (40_codec.md R92, R94 to R96);
nothing else is written. -/
def Obligations.PutCallsStageTheirBytes : Prop :=
  ∀ (i : Instr) (l : List Byte) (s : State), putBytes i = some l → i.wf s.cfg = true → Staging s → fits l s →
    ∃ t, exec i s = .next t
      ∧ StoredAt (2 + s.outLen) l s t
      ∧ t = State.ret .unit
          { s with outBuf := t.outBuf, outLen := s.outLen + l.length, outSum := s.outSum + sum8 l }

/-- Where the bytes do not all fit, those that fit are staged, the next one is not, and the operation faults FRAME_TOO_LARGE
(40_codec.md R92, 60_exceptions.md R170). -/
def Obligations.PutCallsStageWhatFitsThenFault : Prop :=
  ∀ (i : Instr) (l : List Byte) (s : State), putBytes i = some l → i.wf s.cfg = true → Staging s →
    s.outLen + 3 ≤ s.cfg.cOut → ¬ fits l s →
    ∃ t, exec i s = .next t
      ∧ StoredAt (2 + s.outLen) (l.take (s.cfg.cOut - 3 - s.outLen)) s t
      ∧ t = State.ret (.fault .frameTooLarge)
          { s with
            outBuf := t.outBuf
            outLen := s.cfg.cOut - 3
            outSum := s.outSum + sum8 (l.take (s.cfg.cOut - 3 - s.outLen))
            fault := .frameTooLarge }

/-- ENCODE whose tokens all find their arguments and fit appends what they say, emits one diagnostic per unrecognised directive,
and returns the new outbound length (40_codec.md R97 to R104). -/
def Obligations.EncodeStagesItsTokens : Prop :=
  ∀ (fmt : List Byte) (args : List Arg) (l : List Byte) (k : Nat) (s : State),
    tokensEffect (formatTokens fmt) args = some (l, k) → Staging s → fits l s →
    ∃ t, exec (.encode fmt args) s = .next t
      ∧ StoredAt (2 + s.outLen) l s t
      ∧ t = State.ret (.number (s.outLen + l.length))
          (State.withEvents (List.replicate k (.diag .unknownDirective))
            { s with outBuf := t.outBuf, outLen := s.outLen + l.length, outSum := s.outSum + sum8 l })

/-- ENCODE faults BAD_ARGUMENT at the first directive that lacks an argument of its kind; the tokens before it stay staged and
their diagnostics stay in the stream (40_codec.md R97, 60_exceptions.md R168, R170, R177). -/
def Obligations.EncodeFaultsAtALackingArgument : Prop :=
  ∀ (fmt : List Byte) (args : List Arg) (before after : List Token) (tok : Token) (l : List Byte) (k : Nat) (s : State),
    formatTokens fmt = before ++ tok :: after → tokensEffect before args = some (l, k) →
    tokenBytes tok (argsLeft before args).head? = none → Staging s → fits l s →
    ∃ t, exec (.encode fmt args) s = .next t
      ∧ StoredAt (2 + s.outLen) l s t
      ∧ t = State.ret (.fault .badArgument)
          (State.withEvents (List.replicate k (.diag .unknownDirective))
            { s with
              outBuf := t.outBuf
              outLen := s.outLen + l.length
              outSum := s.outSum + sum8 l
              fault := .badArgument })

/-- ENCODE faults FRAME_TOO_LARGE at the first byte that does not fit; the bytes before it stay staged, and the diagnostics
before it stay in the stream (40_codec.md R92, R97, 60_exceptions.md R168, R170, R177). -/
def Obligations.EncodeFaultsAtTheFirstByteThatDoesNotFit : Prop :=
  ∀ (fmt : List Byte) (args : List Arg) (before after : List Token) (tok : Token) (l b : List Byte) (k : Nat) (s : State),
    formatTokens fmt = before ++ tok :: after → tokensEffect before args = some (l, k) →
    tokenBytes tok (argsLeft before args).head? = some b → Staging s → fits l s → ¬ fits (l ++ b) s →
    ∃ t, exec (.encode fmt args) s = .next t
      ∧ StoredAt (2 + s.outLen) ((l ++ b).take (s.cfg.cOut - 3 - s.outLen)) s t
      ∧ t = State.ret (.fault .frameTooLarge)
          (State.withEvents (List.replicate k (.diag .unknownDirective))
            { s with
              outBuf := t.outBuf
              outLen := s.cfg.cOut - 3
              outSum := s.outSum + sum8 ((l ++ b).take (s.cfg.cOut - 3 - s.outLen))
              fault := .frameTooLarge })

/-- A directive token by itself appends what R78 says for it and returns the new outbound length (40_codec.md R98 to R104); and
in every state it does what ENCODE does with the format string of that one token and that one argument (R97). That a lone token
runs so is the model's choice (log 12). -/
def Obligations.LoneTokensAreOneTokenEncodes : Prop :=
  (∀ (i : Instr) (tok : Token) (arg : Option Arg) (l : List Byte) (s : State),
    tokenOf i = some (tok, arg) → tokenBytes tok arg = some l → Staging s → fits l s →
    ∃ t, exec i s = .next t
      ∧ StoredAt (2 + s.outLen) l s t
      ∧ t = State.ret (.number (s.outLen + l.length))
          (State.withEvents (List.replicate (tokenDiags tok) (.diag .unknownDirective))
            { s with outBuf := t.outBuf, outLen := s.outLen + l.length, outSum := s.outSum + sum8 l }))
  ∧ ∀ s : State,
    (∀ b, b ≠ 0 → b ≠ 0x25 → exec (.lit b) s = exec (.encode [b] []) s)
    ∧ (∀ arg, exec (.dirChar arg) s = exec (.encode [0x25, 0x63] arg.toList) s)
    ∧ (∀ arg, exec (.dirWord arg) s = exec (.encode [0x25, 0x44] arg.toList) s)
    ∧ (∀ arg, exec (.dirStr arg) s = exec (.encode [0x25, 0x73] arg.toList) s)
    ∧ exec .dirPercent s = exec (.encode [0x25, 0x25] []) s
    ∧ (∀ d, d ≠ 0 → directiveOf d = .unknown d → exec (.dirUnknown d) s = exec (.encode [0x25, d] []) s)
    ∧ exec .trailingPct s = exec (.encode [0x25] []) s

/-- BEGIN_FRAME in READY appends ESC, or faults FRAME_TOO_LARGE with nothing written where no byte is left (40_codec.md R93).
The lead byte by itself does the same (the model's choice, log 12). In `Blocking` with a frame armed, BEGIN_FRAME first sends it
until the display acknowledges it, and reads and dispatches the reply where it is a poll (R93 corner cases 1 and 2). In `Tick`
with the transport ready and the session in RESET, begun or in progress, it takes that step and appends. -/
def Obligations.BeginFrameStagesTheLeadByte : Prop :=
  (∀ (i : Instr) (s : State), i = .beginFrame ∨ i = .esc → s.pos = .idle → Staging s →
    (s.outLen + 1 ≤ s.cfg.cOut - 3 →
      ∃ t, exec i s = .next t
        ∧ StoredAt (2 + s.outLen) [0x1B] s t
        ∧ t = State.ret .unit
            { s with outBuf := t.outBuf, outLen := s.outLen + 1, outSum := s.outSum + 0x1B })
    ∧ (s.cfg.cOut - 3 < s.outLen + 1 →
      exec i s = .next ({ s with fault := .frameTooLarge }.ret (.fault .frameTooLarge))))
  ∧ (∀ (s : State) (len : Byte) (frame refusals rest : List Byte),
    Accepting s → s.pos = .idle → Sending s len frame → s.env.rx = refusals ++ s.cfg.ack :: rest →
    (∀ b ∈ refusals, b ≠ s.cfg.ack) → (∀ k, s.cfg.retryLimit = some k → refusals.length ≤ k) →
    (s.nextState = .reset →
      ∃ t, exec .beginFrame s = .next t
        ∧ StoredAt 2 [0x1B] s t
        ∧ t = State.ret .unit { s with
            outBuf := t.outBuf
            outLen := 1
            outSum := 0x1B
            ctrl := s.cfg.ctrlNoresp
            state := .ready
            tIdx := len.toNat + 3
            tCnt := 0
            tWait := 0
            tRetries := refusals.length
            tAck := s.cfg.ack
            env := { s.env with rx := rest }
            out := { s.out with
              bus := s.out.bus ++ (refusals ++ [s.cfg.ack]).flatMap (attemptBus frame s.cfg.dummyTx) } })
    ∧ ∀ (c n trailer : Byte) (p rest' : List Byte), s.nextState = .receive → p.length = n.toNat →
      rest = c :: n :: p ++ trailer :: rest' →
      ∃ t, exec .beginFrame s = .next t
        ∧ StoredAt 2 [0x1B] s t
        ∧ (∀ i, i < n.toNat + 3 → i < s.cfg.cIn → inRead t i = (c :: n :: p ++ [trailer])[i]?)
        ∧ (∀ i, n.toNat + 3 ≤ i ∨ s.cfg.cIn ≤ i → inRead t i = inRead s i)
        ∧ t = State.ret .unit { s with
            outBuf := t.outBuf
            inBuf := t.inBuf
            outLen := 1
            outSum := 0x1B
            ctrl := s.cfg.ctrlNoresp
            state := .ready
            inLen := min (n.toNat + 3) s.cfg.cIn
            inOvf := decide (s.cfg.cIn < n.toNat + 3)
            tIdx := n.toNat + 3
            tCnt := 0
            tWait := 0
            tRetries := refusals.length
            tAck := s.cfg.ack
            env := { s.env with rx := rest' }
            out := { s.out with
              events := s.out.events ++ replyEvents s n p trailer
              bus := s.out.bus ++ (refusals ++ [s.cfg.ack]).flatMap (attemptBus frame s.cfg.dummyTx)
                ++ (c :: n :: p ++ [trailer]).map (.rx s.cfg.dummyTx) } })
  ∧ ∀ s : State, Accepting s → s.pos = .idle ∨ s.pos = .beginning → s.cfg.transport = .tick → s.tstate = .ready →
    s.state = .reset →
    ∃ t, exec .beginFrame s = .next t
      ∧ StoredAt 2 [0x1B] s t
      ∧ t = State.ret .unit
          { s with outBuf := t.outBuf, outLen := 1, outSum := 0x1B, ctrl := s.cfg.ctrlNoresp, state := .ready }

/-! ## The session -/

/-- SETUP opens the channel once; a failed opening changes nothing (41_session.md R124, 60_exceptions.md R178). -/
def Obligations.SetupOpensTheChannel : Prop :=
  ∀ s : State, s.fault = .none →
    (s.attached = true → exec .setup s = .next (s.ret .ok))
    ∧ (∀ rest, s.attached = false → s.env.opens = true :: rest →
        exec .setup s = .next ({ s with attached := true, env := { s.env with opens := rest } }.ret .ok))
    ∧ (∀ rest, s.attached = false → s.env.opens = false :: rest →
        exec .setup s = .next ({ s with env := { s.env with opens := rest } }.ret .setupFailed))
    ∧ (s.attached = false → s.env.opens = [] →
        exec .setup s = .next (State.ret (if Config.openOutcome s.env.openCount then .ok else .setupFailed)
          { s with
            attached := Config.openOutcome s.env.openCount
            env := { s.env with openCount := s.env.openCount + 1 } }))

/-- IS_READY is true in `Blocking`, and in `Tick` exactly in `T_READY`; it writes nothing (41_session.md R109, R123). -/
def Obligations.IsReadyReadsTheTransport : Prop :=
  ∀ s : State, Accepting s →
    (s.cfg.transport = .blocking → exec .isReady s = .next (s.ret (.bool true)))
    ∧ (s.cfg.transport = .tick → exec .isReady s = .next (s.ret (.bool (decide (s.tstate = .ready)))))

/-- STEP outside READY and EVENT (41_session.md R110, R113, R114, R116; 42_transport.md R127, R128): deferred while a transfer
is in progress; in `Tick` it starts the transfer and moves on; in RESET it clears the outbound fields. In `Blocking` a STEP in
TRANSMIT sends the frame until it is acknowledged and moves to the next state, or faults RETRY_LIMIT at the ceiling
(41_session.md R121, 42_transport.md R140, R142). A blocking STEP in RECEIVE is in BlockingReceiveStoresTheFrame. -/
def Obligations.StepFollowsTheSessionTable : Prop :=
  ∀ s : State, Accepting s → s.pos = .idle →
    (s.cfg.transport = .tick → s.tstate ≠ .ready → exec .step s = .next (s.ret .deferred))
    ∧ (s.cfg.transport = .tick → s.tstate = .ready → s.state = .transmit →
        exec .step s = .next ({ s with
          tstate := .start
          tRetries := 0
          tickEn := true
          state := match s.nextState with
            | .receive => .receive
            | .reset => .reset }.ret .stepped))
    ∧ (s.cfg.transport = .tick → s.tstate = .ready → s.state = .receive →
        exec .step s = .next ({ s with
          inLen := 0, inOvf := false, tstate := .receive, tickEn := true, state := .event }.ret .stepped))
    ∧ (s.cfg.transport = .tick → s.tstate = .ready → s.state = .reset →
        exec .step s = .next ({ s with
          outLen := 0, outSum := 0, ctrl := s.cfg.ctrlNoresp, state := .ready }.ret .stepped))
    ∧ (s.cfg.transport = .blocking → s.state = .reset →
        exec .step s = .next ({ s with
          outLen := 0, outSum := 0, ctrl := s.cfg.ctrlNoresp, state := .ready }.ret .stepped))
    ∧ (∀ (len : Byte) (frame refusals rest : List Byte), Sending s len frame → s.env.rx = refusals ++ s.cfg.ack :: rest →
        (∀ b ∈ refusals, b ≠ s.cfg.ack) → (∀ k, s.cfg.retryLimit = some k → refusals.length ≤ k) →
        exec .step s = .next ({ s with
          state := match s.nextState with
            | .receive => .receive
            | .reset => .reset
          tIdx := len.toNat + 3
          tCnt := 0
          tWait := 0
          tRetries := refusals.length
          tAck := s.cfg.ack
          env := { s.env with rx := rest }
          out := { s.out with
            bus := s.out.bus ++ (refusals ++ [s.cfg.ack]).flatMap (attemptBus frame s.cfg.dummyTx) } }.ret .stepped))
    ∧ ∀ (len last : Byte) (frame refusals rest : List Byte) (k : Nat), Sending s len frame →
        s.env.rx = refusals ++ last :: rest → (∀ b ∈ refusals, b ≠ s.cfg.ack) → last ≠ s.cfg.ack →
        s.cfg.retryLimit = some k → refusals.length = k →
        exec .step s = .next ({ s with
          fault := .retryLimit
          tstate := .receiveAck
          tIdx := len.toNat + 3
          tCnt := 0
          tWait := 0
          tRetries := k + 1
          tAck := last
          env := { s.env with rx := rest }
          out := { s.out with
            bus := s.out.bus ++ (refusals ++ [last]).flatMap (attemptBus frame s.cfg.dummyTx) } }.ret (.fault .retryLimit))

/-- The poll (41_session.md R111, R112, R121): STEP in READY appends `POLL_PAYLOAD` to what is staged and arms the frame under
`CTRL_RESP`; where it does not fit, STEP faults FRAME_TOO_LARGE. POLL by itself does the same without a result (the model's
choice, log 13). -/
def Obligations.PollArmsAFrameThatExpectsAReply : Prop :=
  ∀ s : State, Staging s → s.pos = .idle → (s.cfg.transport = .tick → s.tstate = .ready) →
    (fits s.cfg.pollPayload s →
      ∃ t, ArmedUnder s.cfg.ctrlResp s.cfg.pollPayload .receive s t
        ∧ exec .step s = .next (t.ret .stepped)
        ∧ exec .poll s = .next t)
    ∧ (s.outLen + 3 ≤ s.cfg.cOut → ¬ fits s.cfg.pollPayload s →
      ∃ t, StoredAt (2 + s.outLen) (s.cfg.pollPayload.take (s.cfg.cOut - 3 - s.outLen)) s t
        ∧ t = { s with
            outBuf := t.outBuf
            outLen := s.cfg.cOut - 3
            outSum := s.outSum + sum8 (s.cfg.pollPayload.take (s.cfg.cOut - 3 - s.outLen))
            ctrl := s.cfg.ctrlResp
            fault := .frameTooLarge }
        ∧ exec .step s = .next (t.ret (.fault .frameTooLarge))
        ∧ exec .poll s = .next t)

/-- The control byte a frame is armed under chooses the state after TRANSMIT (30_encoding.md R71, 41_session.md R112). That a
control byte by itself arms the staged frame is the model's choice (log 13). -/
def Obligations.ControlBytesChooseTheNextState : Prop :=
  ∀ s : State, Staging s → (s.cfg.transport = .tick → s.tstate = .ready) → s.outLen + 3 ≤ s.cfg.cOut →
    (∃ t, exec .ctrlNoresp s = .next t ∧ ArmedUnder s.cfg.ctrlNoresp [] .reset s t)
    ∧ ∃ t, exec .ctrlResp s = .next t ∧ ArmedUnder s.cfg.ctrlResp [] .receive s t

/-- Every frame that is armed carries as its trailer the sum of its control byte, its length byte and every payload byte (R106).
The premise is the invariant of 10_state.md R21 and R22 that `EveryStepKeepsGoodStates` keeps. -/
def Obligations.ArmedFramesCarryTheirChecksum : Prop :=
  ∀ s t : State, CodecInv s → arm s = .ok t →
    ∃ c n p, outRead t 0 = some c ∧ outRead t 1 = some n ∧ n.toNat = t.outLen
      ∧ readRange t.outBuf 2 t.outLen = some p
      ∧ outRead t (2 + t.outLen) = some (sum8 (c :: n :: p))

/-- STEP in EVENT (41_session.md R115, 40_codec.md R107): an empty frame emits nothing, an overflowed or a wrongly summed one
its diagnostic, a valid one what its event brings; the session goes to RESET. -/
def Obligations.EventStepChecksTheFrame : Prop :=
  ∀ (s : State) (n : Byte), Accepting s → s.pos = .idle → s.state = .event → (s.cfg.transport = .tick → s.tstate = .ready) →
    inRead s 1 = some n →
    (n = 0 → exec .step s = .next ({ s with state := .reset }.ret .stepped))
    ∧ (n ≠ 0 → s.inOvf = true →
        exec .step s = .next ((State.withEvents [.diag .inboundOverflow] { s with state := .reset }).ret .stepped))
    ∧ ∀ (p : List Byte) (trailer : Byte), n ≠ 0 → s.inOvf = false →
        readRange s.inBuf 2 n.toNat = some p → inRead s (2 + n.toNat) = some trailer →
        (sum8 (n :: p) ≠ trailer →
          exec .step s = .next ((State.withEvents [.diag .checksumMismatch] { s with state := .reset }).ret .stepped))
        ∧ (sum8 (n :: p) = trailer →
          exec .step s = .next ((State.withEvents (payloadEvents s p) { s with state := .reset }).ret .stepped))

/-- With nothing staged in READY, FLUSH writes no field, performs no bus access and emits no event; and READY with nothing
staged is the state every FLUSH returns in (R120). -/
def Obligations.FlushWithNothingStagedDoesNothing : Prop :=
  (∀ s : State, Accepting s → s.pos = .idle → s.state = .ready → s.outLen = 0 → exec .flush s = .next (s.ret .unit))
  ∧ ∀ s t : State, exec .flush s = .next t → t.out.results = s.out.results ++ [.unit] → t.state = .ready ∧ t.outLen = 0

/-- The operations that drive the session (00_scope.md R14, 41_session.md R110, R119, 43_registry.md R148). In `Tick`: while the
transport is busy they wait at the port and change nothing; once it is ready they take the one step STEP would take and wait
again; after the session's RESET step FLUSH returns, FREE stages, arms and starts its remove command, and FREE's last loop
clears the slot and returns; in READY, FLUSH arms the staged bytes, FREE stages its remove command behind them and arms that, and
each starts the transfer and waits; once a tick has faulted, they end with that fault at their next test (60_exceptions.md R171).
In `Blocking`: FLUSH, BEGIN_FRAME and FREE outside READY do what STEP does and then what they do in the state after it, so a
poll's receive and dispatch come first (R119 corner case 2); they end with the fault STEP ends with, and go on where it does;
FLUSH finishes an armed frame; BEGIN_FRAME and FREE do what FLUSH does first; and every host operation returns in the transition
it began in where a retry ceiling stands or the display acknowledges at last (20_memory.md R56, 42_transport.md R142,
70_reset_and_hazards.md R199). Where a waiting operation is kept, and that a display that never acknowledges is a free value, is
the model's choice (log 14, log 15). -/
def Obligations.DrivingOperationsWaitForTheTransport : Prop :=
  (∀ s : State, Accepting s → s.cfg.transport = .tick → s.tstate ≠ .ready → s.state ≠ .ready →
    (s.pos = .idle ∨ s.pos = .beginning → exec .beginFrame s = .next { s with pos := .beginning })
    ∧ (s.pos = .idle ∨ s.pos = .flushing → exec .flush s = .next { s with pos := .flushing })
    ∧ ∀ i,
      ((s.pos = .idle ∧ i < s.cfg.nSlots ∧ (slotAt s i).cb ≠ none) ∨ s.pos = .freeingBegin →
        exec (.free i) s = .next { s with pos := .freeingBegin })
      ∧ (s.pos = .freeingFlush → exec (.free i) s = .next s))
  ∧ (∀ s u : State, Accepting s → s.cfg.transport = .tick → s.tstate = .ready →
    s.state = .transmit ∨ s.state = .receive ∨ s.state = .event →
    exec .step { s with pos := .idle } = .next (u.ret .stepped) →
    (s.pos = .idle ∨ s.pos = .beginning → exec .beginFrame s = .next { u with pos := .beginning })
    ∧ (s.pos = .idle ∨ s.pos = .flushing → exec .flush s = .next { u with pos := .flushing })
    ∧ ∀ i,
      ((s.pos = .idle ∧ i < s.cfg.nSlots ∧ (slotAt s i).cb ≠ none) ∨ s.pos = .freeingBegin →
        exec (.free i) s = .next { u with pos := .freeingBegin })
      ∧ (s.pos = .freeingFlush → exec (.free i) s = .next { u with pos := .freeingFlush }))
  ∧ (∀ s : State, Accepting s → s.cfg.transport = .tick → s.tstate = .ready → s.state = .reset →
    (s.pos = .idle ∨ s.pos = .flushing →
      exec .flush s = .next ({ s with outLen := 0, outSum := 0, ctrl := s.cfg.ctrlNoresp, state := .ready }.ret .unit))
    ∧ ∀ i,
      (∀ l, (s.pos = .idle ∧ i < s.cfg.nSlots ∧ (slotAt s i).cb ≠ none) ∨ s.pos = .freeingBegin →
        removeBytes s i = some l → l.length + 4 ≤ s.cfg.cOut →
        ∃ t, exec (.free i) s = .next t
          ∧ ArmedFrame s.cfg.ctrlNoresp (0x1B :: l) { s with outLen := 0, outSum := 0 } t
          ∧ t = { s with
              outBuf := t.outBuf
              outLen := l.length + 1
              outSum := 0x1B + sum8 l
              ctrl := s.cfg.ctrlNoresp
              nextState := .reset
              tstate := .start
              tRetries := 0
              tickEn := true
              pos := .freeingFlush })
      ∧ (s.pos = .freeingFlush →
        exec (.free i) s = .next ({ s with
          slots := s.slots.set i Slot.empty, outLen := 0, outSum := 0, ctrl := s.cfg.ctrlNoresp, state := .ready }.ret .unit)))
  ∧ (∀ s : State, Staging s → s.cfg.transport = .tick → s.tstate = .ready → s.pos = .idle →
    s.ctrl = s.cfg.ctrlNoresp → 0 < s.outLen → s.outLen + 3 ≤ s.cfg.cOut →
    ∃ t, exec .flush s = .next t
      ∧ ArmedFrame s.cfg.ctrlNoresp [] s t
      ∧ t = { s with
          outBuf := t.outBuf
          nextState := .reset
          state := .reset
          tstate := .start
          tRetries := 0
          tickEn := true
          pos := .flushing })
  ∧ (∀ (s : State) (i : Nat) (l : List Byte), Staging s → s.cfg.transport = .tick → s.tstate = .ready →
    (s.pos = .idle ∧ i < s.cfg.nSlots ∧ (slotAt s i).cb ≠ none) ∨ s.pos = .freeingBegin →
    s.ctrl = s.cfg.ctrlNoresp → removeBytes s i = some l → fits (0x1B :: l) s →
    ∃ t, exec (.free i) s = .next t
      ∧ ArmedFrame s.cfg.ctrlNoresp (0x1B :: l) s t
      ∧ t = { s with
          outBuf := t.outBuf
          outLen := s.outLen + l.length + 1
          outSum := s.outSum + sum8 (0x1B :: l)
          nextState := .reset
          state := .reset
          tstate := .start
          tRetries := 0
          tickEn := true
          pos := .freeingFlush })
  ∧ (∀ s : State, s.fault ≠ .none →
    (s.pos = .beginning → exec .beginFrame s = .next (s.ret (.fault s.fault)))
    ∧ (s.pos = .flushing → exec .flush s = .next (s.ret (.fault s.fault)))
    ∧ ∀ i, s.pos = .freeingBegin ∨ s.pos = .freeingFlush → exec (.free i) s = .next (s.ret (.fault s.fault)))
  ∧ (∀ s u : State, Accepting s → s.cfg.transport = .blocking → s.pos = .idle → s.state ≠ .ready →
    (exec .step s = .next (u.ret .stepped) → u.pos = .idle →
      Accepting u
      ∧ exec .flush s = exec .flush u
      ∧ exec .beginFrame s = exec .beginFrame u
      ∧ ∀ i, i < s.cfg.nSlots → (slotAt s i).cb ≠ none → exec (.free i) s = exec (.free i) u)
    ∧ (∀ c, exec .step s = .next (u.ret (.fault c)) →
      exec .flush s = .next (u.ret (.fault c))
      ∧ exec .beginFrame s = .next (u.ret (.fault c))
      ∧ ∀ i, i < s.cfg.nSlots → (slotAt s i).cb ≠ none → exec (.free i) s = .next (u.ret (.fault c)))
    ∧ (exec .step s = .next u → u.pos = .stepping →
      exec .flush s = .next { u with pos := .flushing }
      ∧ exec .beginFrame s = .next { u with pos := .beginning }
      ∧ ∀ i, i < s.cfg.nSlots → (slotAt s i).cb ≠ none → exec (.free i) s = .next { u with pos := .freeingBegin }))
  ∧ (∀ (s : State) (len : Byte) (frame refusals rest : List Byte),
    Accepting s → s.pos = .idle → Sending s len frame → s.env.rx = refusals ++ s.cfg.ack :: rest →
    (∀ b ∈ refusals, b ≠ s.cfg.ack) → (∀ k, s.cfg.retryLimit = some k → refusals.length ≤ k) →
    (s.nextState = .reset →
      exec .flush s = .next (State.ret .unit { s with
        outLen := 0
        outSum := 0
        ctrl := s.cfg.ctrlNoresp
        state := .ready
        tIdx := len.toNat + 3
        tCnt := 0
        tWait := 0
        tRetries := refusals.length
        tAck := s.cfg.ack
        env := { s.env with rx := rest }
        out := { s.out with
          bus := s.out.bus ++ (refusals ++ [s.cfg.ack]).flatMap (attemptBus frame s.cfg.dummyTx) } }))
    ∧ ∀ (c n trailer : Byte) (p rest' : List Byte), s.nextState = .receive → p.length = n.toNat →
      rest = c :: n :: p ++ trailer :: rest' →
      ∃ t, exec .flush s = .next t
        ∧ (∀ i, i < n.toNat + 3 → i < s.cfg.cIn → inRead t i = (c :: n :: p ++ [trailer])[i]?)
        ∧ (∀ i, n.toNat + 3 ≤ i ∨ s.cfg.cIn ≤ i → inRead t i = inRead s i)
        ∧ t = State.ret .unit { s with
            inBuf := t.inBuf
            outLen := 0
            outSum := 0
            ctrl := s.cfg.ctrlNoresp
            state := .ready
            inLen := min (n.toNat + 3) s.cfg.cIn
            inOvf := decide (s.cfg.cIn < n.toNat + 3)
            tIdx := n.toNat + 3
            tCnt := 0
            tWait := 0
            tRetries := refusals.length
            tAck := s.cfg.ack
            env := { s.env with rx := rest' }
            out := { s.out with
              events := s.out.events ++ replyEvents s n p trailer
              bus := s.out.bus ++ (refusals ++ [s.cfg.ack]).flatMap (attemptBus frame s.cfg.dummyTx)
                ++ (c :: n :: p ++ [trailer]).map (.rx s.cfg.dummyTx) } })
  ∧ (∀ s t : State, Accepting s → s.cfg.transport = .blocking → s.pos = .idle → s.tstate = .ready → s.state ≠ .ready →
    exec .flush s = .next (t.ret .unit) → t.pos = .idle →
    exec .beginFrame s = exec .beginFrame t
    ∧ ∀ i, i < s.cfg.nSlots → (slotAt s i).cb ≠ none → exec (.free i) s = exec (.free i) t)
  ∧ ∀ (i : Instr) (s t : State), isHostOp i = true → s.cfg.transport = .blocking → s.pos = .idle → s.tstate = .ready →
    s.cfg.retryLimit ≠ none ∨ (∀ n, s.env.rxCount ≤ n → Config.refusalsBeforeAck n ≠ none) →
    exec i s = .next t → t.pos = .idle

/-! ## Whole transfers -/

/-- A blocking FLUSH whose frame the display answers with some refusals and then ACK sends the frame once per answer, byte for
byte the same, reads one handshake byte after each, and returns with the session READY and nothing staged (41_session.md R119;
42_transport.md R133, R140 to R142). -/
def Obligations.BlockingFlushResendsUntilAcknowledged : Prop :=
  ∀ (s : State) (p : List Byte) (refusals rest : List Byte),
    Accepting s → s.pos = .idle → s.cfg.transport = .blocking → s.state = .ready → s.tstate = .ready →
    s.ctrl = s.cfg.ctrlNoresp → 0 < s.outLen → s.outLen + 3 ≤ s.cfg.cOut →
    readRange s.outBuf 2 s.outLen = some p → sum8 p = s.outSum →
    s.env.rx = refusals ++ s.cfg.ack :: rest → (∀ b ∈ refusals, b ≠ s.cfg.ack) →
    (∀ k, s.cfg.retryLimit = some k → refusals.length ≤ k) →
    ∃ t, exec .flush s = .next t
      ∧ ArmedFrame s.cfg.ctrlNoresp [] s t
      ∧ t = { s with
          outBuf := t.outBuf
          outLen := 0
          outSum := 0
          nextState := .reset
          tIdx := s.outLen + 3
          tCnt := 0
          tWait := 0
          tRetries := refusals.length
          tAck := s.cfg.ack
          env := { s.env with rx := rest }
          out := { s.out with
            bus := s.out.bus ++ (refusals ++ [s.cfg.ack]).flatMap (attemptBus (frameBytes s.cfg.ctrlNoresp p) s.cfg.dummyTx)
            results := s.out.results ++ [.unit] } }

/-- With `RETRY_LIMIT = k`, the `(k+1)`-th consecutive refusal of one transmit faults RETRY_LIMIT (R140): a blocking FLUSH then
makes `k + 1` attempts and ends with that fault. -/
def Obligations.BlockingFlushFaultsAtTheRetryCeiling : Prop :=
  ∀ (s : State) (p : List Byte) (refusals rest : List Byte) (k : Nat),
    Accepting s → s.pos = .idle → s.cfg.transport = .blocking → s.state = .ready → s.tstate = .ready →
    0 < s.outLen → s.outLen + 3 ≤ s.cfg.cOut →
    readRange s.outBuf 2 s.outLen = some p → sum8 p = s.outSum →
    s.env.rx = refusals ++ rest → (∀ b ∈ refusals, b ≠ s.cfg.ack) →
    s.cfg.retryLimit = some k → refusals.length = k + 1 →
    ∃ t, exec .flush s = .next t
      ∧ t.fault = .retryLimit
      ∧ t.out = { s.out with
          bus := s.out.bus ++ refusals.flatMap (attemptBus (frameBytes s.ctrl p) s.cfg.dummyTx)
          results := s.out.results ++ [.fault .retryLimit] }
      ∧ t.env = { s.env with rx := rest }
      ∧ SameRegistry s t

/-- A blocking STEP in RECEIVE reads the whole frame, its header first, keeps the bytes that fit in arrival order, and records
whether they all did (41_session.md R114; 42_transport.md R128, R134 to R137, R142). -/
def Obligations.BlockingReceiveStoresTheFrame : Prop :=
  ∀ (s : State) (c n : Byte) (body rest : List Byte),
    Accepting s → s.pos = .idle → s.cfg.transport = .blocking → s.state = .receive → s.tstate = .ready →
    s.env.rx = c :: n :: body ++ rest → body.length = n.toNat + 1 →
    ∃ t, exec .step s = .next t
      ∧ (∀ i, i < n.toNat + 3 → i < s.cfg.cIn → inRead t i = (c :: n :: body)[i]?)
      ∧ (∀ i, n.toNat + 3 ≤ i ∨ s.cfg.cIn ≤ i → inRead t i = inRead s i)
      ∧ t = { s with
          inBuf := t.inBuf
          inLen := min (n.toNat + 3) s.cfg.cIn
          inOvf := decide (s.cfg.cIn < n.toNat + 3)
          tIdx := n.toNat + 3
          tCnt := 0
          state := .event
          env := { s.env with rx := rest }
          out := { s.out with
            bus := s.out.bus ++ (c :: n :: body).map (.rx s.cfg.dummyTx)
            results := s.out.results ++ [.stepped] } }

/-- Five blocking STEPs from READY with nothing staged poll the display once (41_session.md R122): the poll frame is sent, the
handshake and the reply are read, the reply's records are emitted, and the session is READY again; every STEP returns `Stepped`.
-/
def Obligations.FiveStepsPollTheDisplay : Prop :=
  ∀ (s : State) (c n trailer : Byte) (p rest : List Byte),
    Accepting s → s.pos = .idle → s.cfg.transport = .blocking → s.cfg.pollPayload = [] →
    s.state = .ready → s.tstate = .ready → s.outLen = 0 → s.outSum = 0 →
    p.length = n.toNat → s.env.rx = s.cfg.ack :: c :: n :: p ++ trailer :: rest →
    ∃ t, execAll (List.replicate 5 .step) s = .next t
      ∧ t.state = .ready ∧ t.tstate = .ready ∧ t.fault = .none ∧ t.outLen = 0 ∧ t.outSum = 0 ∧ t.ctrl = s.cfg.ctrlNoresp
      ∧ SameRegistry s t
      ∧ t.env = { s.env with rx := rest }
      ∧ t.out.events = s.out.events ++ replyEvents s n p trailer
      ∧ t.out.bus = s.out.bus
          ++ attemptBus [s.cfg.ctrlResp, 0, s.cfg.ctrlResp] s.cfg.dummyTx s.cfg.ack
          ++ (c :: n :: p ++ [trailer]).map (.rx s.cfg.dummyTx)
      ∧ t.out.results = s.out.results ++ List.replicate 5 .stepped

/-! ## Ticks -/

/-- The ticks of a transmit (42_transport.md R130 to R133). The value of `s.cs` each leaves in the bus log (10_state.md R39) is
the one after the tick's own writes, also where the tick raises: the model's choice (log 17). -/
def Obligations.TransmitTicksFollowTheSchedule : Prop :=
  ∀ s : State, s.cfg.transport = .tick → s.tickEn = true → s.fault = .none →
    (∀ n, s.tstate = .start → outRead s 1 = some n →
      exec .tick s = .next ({ s with cs := true, tIdx := 0, tCnt := n.toNat + 3, tstate := .send }.logBus (.cs true)))
    ∧ (∀ b, s.tstate = .send → 0 < s.tCnt → outRead s s.tIdx = some b →
      exec .tick s = .next (({ s with tIdx := s.tIdx + 1, tCnt := s.tCnt - 1 }.logBus (.tx b)).logBus (.cs s.cs)))
    ∧ (s.tstate = .send → s.tCnt = 0 →
      exec .tick s = .next ({ s with cs := false, tWait := s.cfg.waitTicks, tstate := .wait }.logBus (.cs false)))
    ∧ (s.tstate = .wait → 0 < s.tWait →
      exec .tick s = .next ({ s with tWait := s.tWait - 1 }.logBus (.cs s.cs)))
    ∧ (∀ b e, s.tstate = .wait → s.tWait = 0 → drawByte s.env = (b, e) →
      exec .tick s = .next
        (({ s with cs := true, tAck := b, tstate := .receiveAck, env := e }.logBus (.rx s.cfg.dummyTx b)).logBus (.cs true)))
    ∧ (s.tstate = .receiveAck → s.tAck = s.cfg.ack →
      exec .tick s = .next ({ s with tstate := .ready }.logBus (.cs s.cs)))
    ∧ (s.tstate = .receiveAck → s.tAck ≠ s.cfg.ack → (∀ k, s.cfg.retryLimit = some k → s.tRetries + 1 ≤ k) →
      exec .tick s = .next
        ({ s with cs := false, tRetries := s.tRetries + 1, tstate := .start }.logBus (.cs false)))
    ∧ ∀ k, s.tstate = .receiveAck → s.tAck ≠ s.cfg.ack → s.cfg.retryLimit = some k → k < s.tRetries + 1 →
      exec .tick s = .next
        ({ s with cs := false, tRetries := s.tRetries + 1, fault := .retryLimit }.logBus (.cs false))

/-- The ticks of a receive and the tick in `T_READY` (42_transport.md R134 to R138). A byte that does not fit is read from the
bus and not stored. The value of `s.cs` each leaves in the bus log (10_state.md R39) is the one after the tick's own writes: the
model's choice (log 17). -/
def Obligations.ReceiveTicksFollowTheSchedule : Prop :=
  ∀ s : State, s.cfg.transport = .tick → s.tickEn = true → s.fault = .none →
    (s.tstate = .receive →
      exec .tick s = .next ({ s with cs := true, tIdx := 0, tCnt := 2, tstate := .receiveHeader }.logBus (.cs true)))
    ∧ (s.tstate = .ready →
      exec .tick s = .next ({ s with tickEn := false, cs := false }.logBus (.cs false)))
    ∧ (∀ b e, s.tstate = .receiveHeader → 1 < s.tCnt → drawByte s.env = (b, e) →
      ∃ t, exec .tick s = .next t ∧ ReceivedByte b e (s.tCnt - 1) .receiveHeader s t)
    ∧ (∀ b e, s.tstate = .receiveHeader → s.tCnt = 1 → s.tIdx = 1 → drawByte s.env = (b, e) →
      ∃ t, exec .tick s = .next t ∧ ReceivedByte b e (b.toNat + 1) .receivePayload s t)
    ∧ (∀ b e, s.tstate = .receivePayload → 1 < s.tCnt → drawByte s.env = (b, e) →
      ∃ t, exec .tick s = .next t ∧ ReceivedByte b e (s.tCnt - 1) .receivePayload s t)
    ∧ ∀ b e, s.tstate = .receivePayload → s.tCnt = 1 → drawByte s.env = (b, e) →
      ∃ t, exec .tick s = .next t ∧ ReceivedByte b e 0 .ready s t

/-- A tick while the block is masked is lost (60_exceptions.md R179): in `Blocking`, with `s.tick_en = 0`, or halted. -/
def Obligations.MaskedTicksAreLost : Prop :=
  ∀ s : State, s.cfg.transport = .blocking ∨ s.tickEn = false ∨ s.fault ≠ .none → exec .tick s = .next s

/-- A transmit takes `L + 7 + WAIT_TICKS` ticks to its handshake's decision (42_transport.md R139), streams the frame in index
order and then reads one byte; on ACK the transport is ready and one more tick masks the tick source; otherwise the same frame
starts again. -/
def Obligations.TransmitTakesItsTicks : Prop :=
  ∀ (s : State) (n : Byte) (frame : List Byte) (b : Byte) (e : Env),
    s.cfg.transport = .tick → s.tickEn = true → s.fault = .none → s.tstate = .start →
    outRead s 1 = some n → readRange s.outBuf 0 (n.toNat + 3) = some frame → drawByte s.env = (b, e) →
    (∀ k, k < n.toNat + 7 + s.cfg.waitTicks → ∃ t, ticks k s = .next t ∧ t.tstate ≠ .ready)
    ∧ (b = s.cfg.ack → ∃ t u, ticks (n.toNat + 7 + s.cfg.waitTicks) s = .next t
        ∧ t.tstate = .ready ∧ t.cs = true ∧ t.tickEn = true ∧ t.tRetries = s.tRetries ∧ t.env = e
        ∧ wireLog t.out.bus = wireLog s.out.bus ++ attemptBus frame s.cfg.dummyTx b
        ∧ exec .tick t = .next u ∧ u.tstate = .ready ∧ u.cs = false ∧ u.tickEn = false)
    ∧ (b ≠ s.cfg.ack → (∀ k, s.cfg.retryLimit = some k → s.tRetries + 1 ≤ k) →
        ∃ t, ticks (n.toNat + 7 + s.cfg.waitTicks) s = .next t
          ∧ t.tstate = .start ∧ t.cs = false ∧ t.tickEn = true ∧ t.tRetries = s.tRetries + 1 ∧ t.env = e
          ∧ t.outBuf = s.outBuf ∧ t.fault = .none
          ∧ wireLog t.out.bus = wireLog s.out.bus ++ attemptBus frame s.cfg.dummyTx b)

/-- A receive of an `n`-byte payload takes `n + 4` ticks (42_transport.md R139) and stores the frame in arrival order
(20_memory.md R52), as far as it fits (42_transport.md R137). -/
def Obligations.ReceiveTakesItsTicks : Prop :=
  ∀ (s : State) (c n : Byte) (body rest : List Byte),
    s.cfg.transport = .tick → s.tickEn = true → s.fault = .none → s.tstate = .receive →
    s.inLen = 0 → s.inOvf = false →
    s.env.rx = c :: n :: body ++ rest → body.length = n.toNat + 1 →
    (∀ k, k < n.toNat + 4 → ∃ t, ticks k s = .next t ∧ t.tstate ≠ .ready)
    ∧ ∃ t, ticks (n.toNat + 4) s = .next t
      ∧ t.tstate = .ready
      ∧ (∀ i, i < n.toNat + 3 → i < s.cfg.cIn → inRead t i = (c :: n :: body)[i]?)
      ∧ (∀ i, n.toNat + 3 ≤ i ∨ s.cfg.cIn ≤ i → inRead t i = inRead s i)
      ∧ t.inLen = min (n.toNat + 3) s.cfg.cIn ∧ t.inOvf = decide (s.cfg.cIn < n.toNat + 3)
      ∧ t.env = { s.env with rx := rest }
      ∧ wireLog t.out.bus = wireLog s.out.bus ++ (c :: n :: body).map (.rx s.cfg.dummyTx)

/-- Ticks write only the transport, the inbound buffer and the bus log: the frame being sent does not change between attempts
(42_transport.md R141, 20_memory.md R57), and the session, the codec, the registry and the host's position are as they were. -/
def Obligations.TicksLeaveTheFrameAndTheSession : Prop :=
  ∀ (k : Nat) (s t : State), ticks k s = .next t →
    t = { s with
      fault := t.fault
      inBuf := t.inBuf
      inLen := t.inLen
      inOvf := t.inOvf
      tstate := t.tstate
      tIdx := t.tIdx
      tCnt := t.tCnt
      tWait := t.tWait
      tRetries := t.tRetries
      tAck := t.tAck
      cs := t.cs
      tickEn := t.tickEn
      env := { s.env with rx := t.env.rx, rxCount := t.env.rxCount }
      out := { s.out with bus := t.out.bus } }

/-- The handshake byte decides a transmit in `T_RECEIVE_ACK` (30_encoding.md R72, 42_transport.md R133): ACK ends it, any other
byte starts the same frame again or passes the retry ceiling. In `Blocking` the line is not driven (R142). That a handshake byte
by itself arrives so is the model's choice (log 13). -/
def Obligations.HandshakeBytesDecide : Prop :=
  ∀ s : State, s.tstate = .receiveAck → s.fault = .none →
    exec .ack s = .next { s with tAck := s.cfg.ack, tstate := .ready }
    ∧ ∀ b, b ≠ s.cfg.ack →
      ((∀ k, s.cfg.retryLimit = some k → s.tRetries + 1 ≤ k) →
        exec (.nak b) s = .next { s with
          tAck := b
          cs := if s.cfg.transport = .tick then false else s.cs
          tRetries := s.tRetries + 1
          tstate := .start })
      ∧ ∀ k, s.cfg.retryLimit = some k → k < s.tRetries + 1 →
        exec (.nak b) s = .next { s with
          tAck := b
          cs := if s.cfg.transport = .tick then false else s.cs
          tRetries := s.tRetries + 1
          fault := .retryLimit }

/-! ## The registry -/

/-- ALLOC_CODE takes the lowest empty slot, and faults REGISTRY_FULL with the table unchanged where there is none
(43_registry.md R145). -/
def Obligations.CodeWidgetsTakeTheLowestEmptySlot : Prop :=
  ∀ (s : State) (cb : Handle) (user : Opaque), Accepting s → s.slots.length = s.cfg.nSlots →
    (∀ i, i < s.cfg.nSlots → (slotAt s i).cb = none → (∀ j, j < i → (slotAt s j).cb ≠ none) →
      ∃ t, exec (.allocCode (some cb) user) s = .next t
        ∧ slotAt t i = { cb := some cb, user := user, rect := Rect.zero, enabled := true }
        ∧ (∀ j, j ≠ i → slotAt t j = slotAt s j)
        ∧ t = State.ret (.slot i) { s with slots := t.slots })
    ∧ ((∀ i, i < s.cfg.nSlots → (slotAt s i).cb ≠ none) →
      exec (.allocCode (some cb) user) s = .next ({ s with fault := .registryFull }.ret (.fault .registryFull)))

/-- ALLOC_AREA takes the highest empty slot and adds the window's origin modulo 65536, and faults REGISTRY_FULL with the table
unchanged where there is no empty slot (43_registry.md R146). -/
def Obligations.AreasTakeTheHighestEmptySlot : Prop :=
  ∀ (s : State) (r : RawRect) (cb : Handle) (user : Opaque),
    Accepting s → s.slots.length = s.cfg.nSlots → r.wf = true →
    (∀ i v, i < s.cfg.nSlots → (slotAt s i).cb = none → (∀ j, i < j → j < s.cfg.nSlots → (slotAt s j).cb ≠ none) →
      areaWidget s.window (.allocArea r (some cb) user) = some v →
      ∃ t, exec (.allocArea r (some cb) user) s = .next t
        ∧ slotAt t i = v
        ∧ (∀ j, j ≠ i → slotAt t j = slotAt s j)
        ∧ t = State.ret (.slot i) { s with slots := t.slots })
    ∧ ((∀ i, i < s.cfg.nSlots → (slotAt s i).cb ≠ none) →
      exec (.allocArea r (some cb) user) s = .next ({ s with fault := .registryFull }.ret (.fault .registryFull)))

/-- On an empty table of capacity `N`, allocations in any interleaving, `a` of code widgets and `b` of areas with `a + b <= N`,
never collide: the code widgets hold slots 0 up in allocation order, the areas hold slots `N - 1` down, and the `(N+1)`-th
allocation faults REGISTRY_FULL (R147). -/
def Obligations.AllocationsNeverCollide : Prop :=
  ∀ (s : State) (is : List Instr), Accepting s → s.slots = List.replicate s.cfg.nSlots Slot.empty →
    (∀ i ∈ is, isAlloc i = true) → is.length ≤ s.cfg.nSlots →
    ∃ t, execAll is s = .next t
      ∧ t.fault = .none
      ∧ (∀ k v, (is.filterMap codeWidget)[k]? = some v → slotAt t k = v)
      ∧ (∀ k v, (is.filterMap (areaWidget s.window))[k]? = some v → slotAt t (s.cfg.nSlots - 1 - k) = v)
      ∧ (∀ k, (is.filterMap codeWidget).length ≤ k → k + (is.filterMap (areaWidget s.window)).length < s.cfg.nSlots →
          slotAt t k = Slot.empty)
      ∧ ∀ i, isAlloc i = true → is.length = s.cfg.nSlots →
          exec i t = .next ({ t with fault := .registryFull }.ret (.fault .registryFull))

/-- FREE of an occupied slot from READY (43_registry.md R148): the configuration's formats spell its remove command; in
`Blocking`, with the display acknowledging at once, it sends the staged bytes, ESC and the slot's remove command in one frame, and
then clears the slot and no other; in both variants, where the command does not fit behind the staged bytes, it stages what fits
and faults FRAME_TOO_LARGE with the slot still occupied (40_codec.md R92). -/
def Obligations.FreeSendsTheRemoveCommandThenClears : Prop :=
  (∀ (s : State) (i : Nat), ∃ l, removeBytes s i = some l)
  ∧ (∀ (s : State) (i : Nat) (p l rest : List Byte),
    Accepting s → s.pos = .idle → s.cfg.transport = .blocking → s.state = .ready → s.tstate = .ready →
    s.ctrl = s.cfg.ctrlNoresp → readRange s.outBuf 2 s.outLen = some p → sum8 p = s.outSum →
    s.slots.length = s.cfg.nSlots → i < s.cfg.nSlots → (slotAt s i).cb ≠ none →
    removeBytes s i = some l → fits (0x1B :: l) s → s.env.rx = s.cfg.ack :: rest →
    ∃ t, exec (.free i) s = .next t
      ∧ slotAt t i = Slot.empty
      ∧ (∀ j, j ≠ i → slotAt t j = slotAt s j)
      ∧ ArmedFrame s.cfg.ctrlNoresp (0x1B :: l) s t
      ∧ t = { s with
          outBuf := t.outBuf
          slots := t.slots
          outLen := 0
          outSum := 0
          nextState := .reset
          tIdx := s.outLen + l.length + 4
          tCnt := 0
          tWait := 0
          tRetries := 0
          tAck := s.cfg.ack
          env := { s.env with rx := rest }
          out := { s.out with
            bus := s.out.bus ++ attemptBus (frameBytes s.cfg.ctrlNoresp (p ++ 0x1B :: l)) s.cfg.dummyTx s.cfg.ack
            results := s.out.results ++ [.unit] } })
  ∧ ∀ (s : State) (i : Nat) (l : List Byte), Staging s → s.pos = .idle → i < s.cfg.nSlots → (slotAt s i).cb ≠ none →
    removeBytes s i = some l → s.outLen + 3 ≤ s.cfg.cOut → ¬ fits (0x1B :: l) s →
    ∃ t, exec (.free i) s = .next t
      ∧ StoredAt (2 + s.outLen) ((0x1B :: l).take (s.cfg.cOut - 3 - s.outLen)) s t
      ∧ t = State.ret (.fault .frameTooLarge)
          { s with
            outBuf := t.outBuf
            outLen := s.cfg.cOut - 3
            outSum := s.outSum + sum8 ((0x1B :: l).take (s.cfg.cOut - 3 - s.outLen))
            fault := .frameTooLarge }

/-- FREE and SET_ENABLED of an index outside the table or of an empty slot fault BAD_SLOT with nothing written (43_registry.md
R148, R151). -/
def Obligations.BadSlotsFault : Prop :=
  ∀ (s : State) (i : Nat), Accepting s → s.pos = .idle → s.cfg.nSlots ≤ i ∨ (slotAt s i).cb = none →
    exec (.free i) s = .next ({ s with fault := .badSlot }.ret (.fault .badSlot))
    ∧ ∀ e, e < 2 → exec (.setEnabled i e) s = .next ({ s with fault := .badSlot }.ret (.fault .badSlot))

/-- Allocation and removal are atomic with respect to the table (R149): ALLOC_CODE writes the first empty slot from the front
and ALLOC_AREA the first from the back, each with its widget and with nothing faulted, or no slot is written; FREE clears the
slot it names as its last action, or, where anything faulted, writes no slot. -/
def Obligations.AllocationAndRemovalAreAtomic : Prop :=
  ∀ s t : State,
    (∀ cb user, exec (.allocCode cb user) s = .next t →
      t.slots = s.slots
        ∨ (t.fault = .none ∧ ∃ j, firstEmpty s = some j ∧ t.slots = s.slots.set j (newSlot cb user Rect.zero)
          ∧ t.out.results = s.out.results ++ [.slot j]))
    ∧ (∀ r cb user, exec (.allocArea r cb user) s = .next t →
      t.slots = s.slots
        ∨ (t.fault = .none ∧ ∃ j, lastEmpty s = some j ∧ t.slots = s.slots.set j (newSlot cb user (placed s.window (rectOf r)))
          ∧ t.out.results = s.out.results ++ [.slot j]))
    ∧ ∀ j, exec (.free j) s = .next t →
      t.slots = s.slots ∨ (t.fault = .none ∧ t.slots = s.slots.set j Slot.empty ∧ t.out.results = s.out.results ++ [.unit])

/-- Between its allocation and its FREE an occupied slot changes only in its `enabled` bit, and only by SET_ENABLED (R150).
RESET, which clears every slot (R189), is apart. -/
def Obligations.OccupiedSlotsKeepTheirWidget : Prop :=
  ∀ (i : Instr) (s t : State) (j : Nat), exec i s = .next t → (slotAt s j).cb ≠ none → i ≠ .free j → i ≠ .reset →
    (slotAt t j).cb = (slotAt s j).cb ∧ (slotAt t j).user = (slotAt s j).user ∧ (slotAt t j).rect = (slotAt s j).rect
    ∧ ((∀ e, i ≠ .setEnabled j e) → (slotAt t j).enabled = (slotAt s j).enabled)

/-- SET_ENABLED writes the one bit of the one slot (43_registry.md R151). -/
def Obligations.SetEnabledWritesOneBit : Prop :=
  ∀ (s : State) (i e : Nat), Accepting s → s.slots.length = s.cfg.nSlots → i < s.cfg.nSlots → (slotAt s i).cb ≠ none → e < 2 →
    ∃ t, exec (.setEnabled i e) s = .next t
      ∧ slotAt t i = { slotAt s i with enabled := decide (e = 1) }
      ∧ (∀ j, j ≠ i → slotAt t j = slotAt s j)
      ∧ t = State.ret .unit { s with slots := t.slots }

/-- SET_WINDOW, CLEAR_WINDOW, SET_HOOK and CLEAR_HOOK write the window and the hook and nothing else (43_registry.md R152 to
R155). -/
def Obligations.WindowAndHookAreWrittenWhole : Prop :=
  ∀ s : State, Accepting s →
    (∀ r : RawRect, r.wf = true → exec (.setWindow r) s = .next ({ s with
        window := {
          valid := true
          rect := ⟨BitVec.ofNat 16 r.x, BitVec.ofNat 16 r.y, BitVec.ofNat 16 r.w, BitVec.ofNat 16 r.h⟩ } }.ret .unit))
    ∧ exec .clearWindow s = .next ({ s with window := { valid := false, rect := ⟨0, 0, 0, 0⟩ } }.ret .unit)
    ∧ (∀ h : Handle, exec (.setHook (some h)) s = .next ({ s with hook := some h }.ret .unit))
    ∧ exec .clearHook s = .next ({ s with hook := none }.ret .unit)

/-- Only the registry's own operations and RESET write the table, the window or the hook (10_state.md R35, R37, R38). The fault
register is written only while it is NONE, and only RESET clears it (R29); the configuration is never written
(70_reset_and_hazards.md R189); only SETUP and RESET write the attachment (R28). -/
def Obligations.RegistryFaultAndAttachmentHaveFewWriters : Prop :=
  ∀ (i : Instr) (s t : State), exec i s = .next t →
    (writesRegistry i = false → SameRegistry s t)
    ∧ (i ≠ .reset → s.fault ≠ .none → t.fault = s.fault)
    ∧ t.cfg = s.cfg
    ∧ (i ≠ .setup → i ≠ .reset → t.attached = s.attached)

/-! ## The dispatcher -/

/-- The hit test returns the highest-index occupied slot whose rectangle contains the point, both edges inclusive and over
unbounded naturals (43_registry.md R159, R160). -/
def Obligations.HitTestFindsTheHighestSlot : Prop :=
  ∀ (s : State) (x y : U16),
    (∀ i, hitTest s x y = some i ↔ i < s.cfg.nSlots ∧ PointInSlot s i x.toNat y.toNat
      ∧ ∀ j, i < j → j < s.cfg.nSlots → ¬ PointInSlot s j x.toNat y.toNat)
    ∧ (hitTest s x y = none ↔ ∀ j, j < s.cfg.nSlots → ¬ PointInSlot s j x.toNat y.toNat)

/-- The corners of an occupied slot's rectangle (R161): with no higher slot containing the point, `(rx + w, ry + h)` hits; one
unit beyond either edge, and one unit before either origin, does not hit this slot. -/
def Obligations.RectanglesAreInclusiveOnBothEdges : Prop :=
  ∀ (s : State) (i : Nat) (x y : U16), i < s.cfg.nSlots → (slotAt s i).cb ≠ none →
    (∀ j, i < j → j < s.cfg.nSlots → ¬ PointInSlot s j x.toNat y.toNat) →
    let r := (slotAt s i).rect
    (x.toNat = r.x.toNat + r.w.toNat → y.toNat = r.y.toNat + r.h.toNat → hitTest s x y = some i)
    ∧ (x.toNat = r.x.toNat + r.w.toNat + 1 → y.toNat = r.y.toNat + r.h.toNat → hitTest s x y ≠ some i)
    ∧ (x.toNat = r.x.toNat + r.w.toNat → y.toNat = r.y.toNat + r.h.toNat + 1 → hitTest s x y ≠ some i)
    ∧ (1 ≤ r.x.toNat → 1 ≤ r.y.toNat →
        (x.toNat + 1 = r.x.toNat → y = r.y → hitTest s x y ≠ some i)
        ∧ (x = r.x → y.toNat + 1 = r.y.toNat → hitTest s x y ≠ some i))

/-- A button code is resolved by index (30_encoding.md R74, R83; 43_registry.md R157): out of range and unregistered codes give
their diagnostics, any other invokes the slot's callback with the press flag. That a code byte by itself arrives so is the
model's choice (log 13). -/
def Obligations.ButtonCodesResolveByIndex : Prop :=
  ∀ (s : State) (press : Bool) (k : BitVec 7), Dispatching s →
    (k.toNat = 0 ∨ s.cfg.nSlots < k.toNat →
      exec (.buttonCode press k) s = .next (s.withEvents [.diag .badCode]))
    ∧ (1 ≤ k.toNat → k.toNat ≤ s.cfg.nSlots →
      ((slotAt s (k.toNat - 1)).cb = none →
        exec (.buttonCode press k) s = .next (s.withEvents [.diag .unregisteredCode]))
      ∧ ∀ cb, (slotAt s (k.toNat - 1)).cb = some cb →
        exec (.buttonCode press k) s
          = .next (s.withEvents [.dispatch (k.toNat - 1) cb (slotAt s (k.toNat - 1)).user press]))

/-- A press and a release dispatch to the slot the hit test finds, or give NO_HIT; a repeat is ignored outright; any other
sub-byte gives BAD_TOUCH_SUB (43_registry.md R158, 30_encoding.md R82). That a sub-byte by itself arrives so is the model's
choice (log 13). -/
def Obligations.TouchSubBytesDispatchTheHit : Prop :=
  ∀ (s : State) (x y : U16), Dispatching s →
    (∀ i cb, hitTest s x y = some i → (slotAt s i).cb = some cb →
      exec (.subPress x y) s = .next (s.withEvents [.dispatch i cb (slotAt s i).user true])
      ∧ exec (.subRelease x y) s = .next (s.withEvents [.dispatch i cb (slotAt s i).user false]))
    ∧ (hitTest s x y = none →
      exec (.subPress x y) s = .next (s.withEvents [.diag .noHit])
      ∧ exec (.subRelease x y) s = .next (s.withEvents [.diag .noHit]))
    ∧ exec .subRepeat s = .next s
    ∧ ∀ b, b ≠ 0 → b ≠ 1 → b ≠ 2 → exec (.subOther b) s = .next (s.withEvents [.diag .badTouchSub])

/-- An inbound event does what its code byte or its sub-byte says, then the hook is called once, whether or not a widget matched
(43_registry.md R156 to R158, R164). That an event by itself arrives so is the model's choice (log 13). -/
def Obligations.EventsDispatchThenCallTheHook : Prop :=
  ∀ (s : State) (p : List Byte), Dispatching s →
    ((Instr.evButton p).wf s.cfg = true →
      ∀ c, p.getLast? = some c →
        exec (.evButton p) s = .next (s.withEvents (codeEvents s (c.getLsbD 7) (c.toNat % 128) ++ hookEvents s)))
    ∧ ((Instr.evTouch p).wf s.cfg = true →
      (p.length ≠ s.cfg.touchLen →
        exec (.evTouch p) s = .next (s.withEvents (.diag .badTouchLength :: hookEvents s)))
      ∧ ∀ sub x0 x1 y0 y1, p.length = s.cfg.touchLen → p[s.cfg.offSub]? = some sub →
        p[s.cfg.offX]? = some x0 → p[s.cfg.offX + 1]? = some x1 →
        p[s.cfg.offY]? = some y0 → p[s.cfg.offY + 1]? = some y1 →
        exec (.evTouch p) s
          = .next (s.withEvents (subEvents s sub (x1 ++ x0) (y1 ++ y0) ++ hookEvents s)))
    ∧ ((Instr.evUnknown p).wf s.cfg = true →
      exec (.evUnknown p) s = .next (s.withEvents (.diag .unknownEvent :: hookEvents s)))

/-- The inbound checksum detects any single corrupted byte of the payload and a corrupted trailer, where the length byte arrives
intact (R108's first sentence; 40_codec.md R107). -/
def Obligations.SingleCorruptionsAreDetected : Prop :=
  ∀ (n : Byte) (p : List Byte) (trailer : Byte), inboundSumOk n p trailer = true →
    (∀ i b b', p[i]? = some b → b' ≠ b → inboundSumOk n (p.set i b') trailer = false)
    ∧ ∀ trailer', trailer' ≠ trailer → inboundSumOk n p trailer' = false

/-! ## Reset and invariants -/

/-- RESET, in any state, sets every field of R189 to its reset value and keeps the configuration and the delivered outputs
(70_reset_and_hazards.md R189). The buffers list no byte and `s.t_ack`, which R189 leaves unspecified, is 0 (the model's
choices, log 6 and log 7). That an operation in progress is dropped without a result and that the environment stays is the
model's choice too (log 16). -/
def Obligations.ResetClearsEveryField : Prop :=
  ∀ s : State, exec .reset s = .next {
    cfg := s.cfg
    state := .ready
    nextState := .reset
    outLen := 0
    outSum := 0
    ctrl := s.cfg.ctrlNoresp
    outBuf := []
    inBuf := []
    inLen := 0
    inOvf := false
    attached := false
    fault := .none
    tstate := .ready
    tIdx := 0
    tCnt := 0
    tWait := 0
    tRetries := 0
    tAck := 0
    cs := false
    tickEn := false
    slots := List.replicate s.cfg.nSlots { cb := none, user := none, rect := ⟨0, 0, 0, 0⟩, enabled := false }
    window := { valid := false, rect := ⟨0, 0, 0, 0⟩ }
    hook := none
    pos := .idle
    env := s.env
    out := s.out }

/-- The state after reset is good. -/
def Obligations.ResetStateIsGood : Prop := GoodState State.reset

/-- Every step keeps good states good: the buffers' canonical form and bounds (20_memory.md R44), the outbound length and sum
(10_state.md R21, R22), the legal control byte and the armed header (R23, R43; 41_session.md R118), the transport's counters
(10_state.md R31; 20_memory.md R55, R58), the line and the tick enable (10_state.md R33, R34) and the table (R35). -/
def Obligations.EveryStepKeepsGoodStates : Prop :=
  ∀ s t : State, GoodState s → step s = .next t → GoodState t

/-- From a good state no step stops with a fault: every buffer byte a rule reads was written in the same frame, and no rule
produces an index outside its range (20_memory.md R55, R47; 00_scope.md R11). -/
def Obligations.GoodStatesNeverStop : Prop :=
  ∀ s : State, GoodState s → ∀ f, step s ≠ .fault f
end

