-- ==== Sys2Proof/Laws/Memory.lean ====
section
/-! SUPPORT. The laws of buffers: read after write, the canonical form, and ranges. -/

namespace Sys2Proof.Machine

@[simp] theorem readMem_nil (a : Nat) : readMem [] a = none := rfl

theorem readMem_writeMem (m : Memory) (a i : Nat) (v : Byte) :
    readMem (writeMem m a v) i = if i = a then some v else readMem m i := by
  induction m with
  | nil => simp [writeMem, readMem]
  | cons c rest ih =>
    obtain ⟨k, b⟩ := c
    simp only [writeMem]
    split
    · simp [readMem]
    · split
      · subst_vars; simp only [readMem]; split <;> simp_all
      · simp only [readMem, ih]
        split
        · split
          · omega
          · rfl
        · rfl

@[simp] theorem readMem_writeMem_same (m : Memory) (a : Nat) (v : Byte) :
    readMem (writeMem m a v) a = some v := by simp [readMem_writeMem]

theorem readMem_writeMem_other (m : Memory) {a i : Nat} (v : Byte) (h : i ≠ a) :
    readMem (writeMem m a v) i = readMem m i := by simp [readMem_writeMem, h]

theorem wfFrom_mono {lo hi : Nat} (h : lo ≤ hi) {m : Memory} (hm : wfFrom hi m = true) : wfFrom lo m = true := by
  cases m with
  | nil => rfl
  | cons c rest => simp [wfFrom] at hm ⊢; exact ⟨by omega, hm.2⟩

theorem wfFrom_writeMem {lo a : Nat} (v : Byte) (h : lo ≤ a) {m : Memory} (hm : wfFrom lo m = true) :
    wfFrom lo (writeMem m a v) = true := by
  induction m generalizing lo with
  | nil => simp [writeMem, wfFrom, h]
  | cons c rest ih =>
    obtain ⟨k, b⟩ := c
    simp [wfFrom] at hm
    simp only [writeMem]
    split
    · simp [wfFrom]; exact ⟨h, by omega, hm.2⟩
    · split
      · simp [wfFrom]; exact hm
      · simp [wfFrom]; exact ⟨hm.1, ih (by omega) hm.2⟩

/-- A write keeps the canonical form. -/
theorem Memory.wf_writeMem (m : Memory) (a : Nat) (v : Byte) (h : Memory.wf m = true) : Memory.wf (writeMem m a v) = true :=
  wfFrom_writeMem v (Nat.zero_le a) h

theorem Memory.wf_writeBytes (l : List Byte) : ∀ (m : Memory) (a : Nat), Memory.wf m = true → Memory.wf (writeBytes m a l) = true := by
  induction l with
  | nil => intro m a h; exact h
  | cons b rest ih => intro m a h; exact ih _ _ (Memory.wf_writeMem m a b h)

/-- Reset's buffers are in canonical form. -/
theorem Memory.wf_reset : Memory.wf State.reset.outBuf = true ∧ Memory.wf State.reset.inBuf = true := ⟨rfl, rfl⟩

theorem readRange_eq_some_iff (m : Memory) (n : Nat) : ∀ (a : Nat) (l : List Byte),
    readRange m a n = some l ↔ l.length = n ∧ ∀ i, i < n → readMem m (a + i) = l[i]? := by
  induction n with
  | zero =>
    intro a l
    simp only [readRange, Option.some.injEq, Nat.not_lt_zero, false_implies, implies_true, and_true]
    exact ⟨fun h => h ▸ rfl, fun h => (List.eq_nil_of_length_eq_zero h).symm⟩
  | succ n ih =>
    intro a l
    simp only [readRange]
    constructor
    · intro h
      split at h
      · rename_i b rest hb hr
        obtain rfl := Option.some.inj h
        obtain ⟨hl, hi⟩ := (ih _ _).1 hr
        refine ⟨by simp [hl], ?_⟩
        intro i hin
        cases i with
        | zero => simpa using hb
        | succ i =>
          have := hi i (by omega)
          rw [show a + (i + 1) = a + 1 + i by omega, this]
          simp
      · cases h
    · rintro ⟨hl, hi⟩
      cases l with
      | nil => simp at hl
      | cons b rest =>
        have h0 := hi 0 (by omega)
        simp at h0
        have hr : readRange m (a + 1) n = some rest := by
          refine (ih _ _).2 ⟨by simpa using hl, ?_⟩
          intro i hin
          have := hi (i + 1) (by omega)
          rw [show a + (i + 1) = a + 1 + i by omega] at this
          simpa using this
        simp [h0, hr]

theorem readRange_isSome {m : Memory} {a n : Nat} (h : ∀ i, i < n → readMem m (a + i) ≠ none) :
    ∃ l, readRange m a n = some l := by
  induction n generalizing a with
  | zero => exact ⟨[], rfl⟩
  | succ n ih =>
    obtain ⟨l, hl⟩ := ih (a := a + 1) fun i hi => by
      have := h (i + 1) (by omega); rwa [show a + (i + 1) = a + 1 + i by omega] at this
    obtain ⟨b, hb⟩ := Option.ne_none_iff_exists'.1 (h 0 (by omega))
    exact ⟨b :: l, by simp at hb; simp [readRange, hb, hl]⟩

/-- Ranges agree where every byte agrees. -/
theorem readRange_congr {m m' : Memory} {a n : Nat} (h : ∀ i, i < n → readMem m' (a + i) = readMem m (a + i)) :
    readRange m' a n = readRange m a n := by
  induction n generalizing a with
  | zero => rfl
  | succ n ih =>
    have h0 := h 0 (by omega)
    simp at h0
    simp only [readRange, h0]
    rw [ih fun i hi => by
      have := h (i + 1) (by omega); rwa [show a + (i + 1) = a + 1 + i by omega] at this]

theorem readRange_length {m : Memory} {a n : Nat} {l : List Byte} (h : readRange m a n = some l) : l.length = n :=
  ((readRange_eq_some_iff m n a l).1 h).1

/-- Writing outside a range leaves the range. -/
theorem readRange_writeMem_outside (m : Memory) {a n k : Nat} (v : Byte) (h : k < a ∨ a + n ≤ k) :
    readRange (writeMem m k v) a n = readRange m a n :=
  readRange_congr fun i hi => readMem_writeMem_other m v (by omega)

/-- A range with one more byte written behind it. -/
theorem readRange_snoc {m : Memory} {a n : Nat} {l : List Byte} (b : Byte) (h : readRange m a n = some l) :
    readRange (writeMem m (a + n) b) a (n + 1) = some (l ++ [b]) := by
  obtain ⟨hl, hi⟩ := (readRange_eq_some_iff _ _ _ _).1 h
  refine (readRange_eq_some_iff _ _ _ _).2 ⟨by simp [hl], ?_⟩
  intro i hin
  by_cases hi' : i = n
  · subst hi'; simp [← hl]
  · rw [readMem_writeMem_other _ _ (by omega), hi i (by omega), List.getElem?_append_left (by omega)]

/-- What consecutive writes leave at an index. -/
theorem readMem_writeBytes (l : List Byte) : ∀ (m : Memory) (a i : Nat),
    readMem (writeBytes m a l) i = if a ≤ i ∧ i < a + l.length then l[i - a]? else readMem m i := by
  induction l with
  | nil => intro m a i; simp [writeBytes]
  | cons b rest ih =>
    intro m a i
    simp only [writeBytes, ih, readMem_writeMem, List.length_cons]
    by_cases h1 : a + 1 ≤ i ∧ i < a + 1 + rest.length
    · rw [if_pos h1, if_pos (by omega), show i - a = (i - (a + 1)) + 1 by omega]; simp
    · rw [if_neg h1]
      by_cases h2 : i = a
      · subst h2; simp
      · rw [if_neg h2, if_neg (by omega)]

theorem readRange_writeBytes (m : Memory) (a : Nat) (l : List Byte) :
    readRange (writeBytes m a l) a l.length = some l := by
  refine (readRange_eq_some_iff _ _ _ _).2 ⟨rfl, ?_⟩
  intro i hi
  rw [readMem_writeBytes, if_pos (by omega)]
  congr 1; omega

theorem sum8_append (l l' : List Byte) : sum8 (l ++ l') = sum8 l + sum8 l' := by
  induction l with
  | nil => simp [sum8]
  | cons b rest ih => simp [sum8, ih, BitVec.add_assoc]

@[simp] theorem sum8_nil : sum8 [] = 0 := rfl

@[simp] theorem sum8_cons (b : Byte) (l : List Byte) : sum8 (b :: l) = b + sum8 l := rfl

end Sys2Proof.Machine
end

