-- ==== Sys2Proof/Laws/State.lean ====
section
/-! SUPPORT. One lemma per field per named update of `State`, so that no later proof unfolds a record update. -/

namespace Sys2Proof.Machine

variable (s : State)

/-! ### `emit` -/

@[simp] theorem emit_cfg (e : Event) : (s.emit e).cfg = s.cfg := rfl
@[simp] theorem emit_state (e : Event) : (s.emit e).state = s.state := rfl
@[simp] theorem emit_nextState (e : Event) : (s.emit e).nextState = s.nextState := rfl
@[simp] theorem emit_outLen (e : Event) : (s.emit e).outLen = s.outLen := rfl
@[simp] theorem emit_outSum (e : Event) : (s.emit e).outSum = s.outSum := rfl
@[simp] theorem emit_ctrl (e : Event) : (s.emit e).ctrl = s.ctrl := rfl
@[simp] theorem emit_outBuf (e : Event) : (s.emit e).outBuf = s.outBuf := rfl
@[simp] theorem emit_inBuf (e : Event) : (s.emit e).inBuf = s.inBuf := rfl
@[simp] theorem emit_inLen (e : Event) : (s.emit e).inLen = s.inLen := rfl
@[simp] theorem emit_inOvf (e : Event) : (s.emit e).inOvf = s.inOvf := rfl
@[simp] theorem emit_attached (e : Event) : (s.emit e).attached = s.attached := rfl
@[simp] theorem emit_fault (e : Event) : (s.emit e).fault = s.fault := rfl
@[simp] theorem emit_tstate (e : Event) : (s.emit e).tstate = s.tstate := rfl
@[simp] theorem emit_tIdx (e : Event) : (s.emit e).tIdx = s.tIdx := rfl
@[simp] theorem emit_tCnt (e : Event) : (s.emit e).tCnt = s.tCnt := rfl
@[simp] theorem emit_tWait (e : Event) : (s.emit e).tWait = s.tWait := rfl
@[simp] theorem emit_tRetries (e : Event) : (s.emit e).tRetries = s.tRetries := rfl
@[simp] theorem emit_tAck (e : Event) : (s.emit e).tAck = s.tAck := rfl
@[simp] theorem emit_cs (e : Event) : (s.emit e).cs = s.cs := rfl
@[simp] theorem emit_tickEn (e : Event) : (s.emit e).tickEn = s.tickEn := rfl
@[simp] theorem emit_slots (e : Event) : (s.emit e).slots = s.slots := rfl
@[simp] theorem emit_window (e : Event) : (s.emit e).window = s.window := rfl
@[simp] theorem emit_hook (e : Event) : (s.emit e).hook = s.hook := rfl
@[simp] theorem emit_pos (e : Event) : (s.emit e).pos = s.pos := rfl
@[simp] theorem emit_env (e : Event) : (s.emit e).env = s.env := rfl
@[simp] theorem emit_out (e : Event) : (s.emit e).out = { s.out with events := s.out.events ++ [e] } := rfl

/-! ### `logBus` -/

@[simp] theorem logBus_cfg (b : BusRecord) : (s.logBus b).cfg = s.cfg := rfl
@[simp] theorem logBus_state (b : BusRecord) : (s.logBus b).state = s.state := rfl
@[simp] theorem logBus_nextState (b : BusRecord) : (s.logBus b).nextState = s.nextState := rfl
@[simp] theorem logBus_outLen (b : BusRecord) : (s.logBus b).outLen = s.outLen := rfl
@[simp] theorem logBus_outSum (b : BusRecord) : (s.logBus b).outSum = s.outSum := rfl
@[simp] theorem logBus_ctrl (b : BusRecord) : (s.logBus b).ctrl = s.ctrl := rfl
@[simp] theorem logBus_outBuf (b : BusRecord) : (s.logBus b).outBuf = s.outBuf := rfl
@[simp] theorem logBus_inBuf (b : BusRecord) : (s.logBus b).inBuf = s.inBuf := rfl
@[simp] theorem logBus_inLen (b : BusRecord) : (s.logBus b).inLen = s.inLen := rfl
@[simp] theorem logBus_inOvf (b : BusRecord) : (s.logBus b).inOvf = s.inOvf := rfl
@[simp] theorem logBus_attached (b : BusRecord) : (s.logBus b).attached = s.attached := rfl
@[simp] theorem logBus_fault (b : BusRecord) : (s.logBus b).fault = s.fault := rfl
@[simp] theorem logBus_tstate (b : BusRecord) : (s.logBus b).tstate = s.tstate := rfl
@[simp] theorem logBus_tIdx (b : BusRecord) : (s.logBus b).tIdx = s.tIdx := rfl
@[simp] theorem logBus_tCnt (b : BusRecord) : (s.logBus b).tCnt = s.tCnt := rfl
@[simp] theorem logBus_tWait (b : BusRecord) : (s.logBus b).tWait = s.tWait := rfl
@[simp] theorem logBus_tRetries (b : BusRecord) : (s.logBus b).tRetries = s.tRetries := rfl
@[simp] theorem logBus_tAck (b : BusRecord) : (s.logBus b).tAck = s.tAck := rfl
@[simp] theorem logBus_cs (b : BusRecord) : (s.logBus b).cs = s.cs := rfl
@[simp] theorem logBus_tickEn (b : BusRecord) : (s.logBus b).tickEn = s.tickEn := rfl
@[simp] theorem logBus_slots (b : BusRecord) : (s.logBus b).slots = s.slots := rfl
@[simp] theorem logBus_window (b : BusRecord) : (s.logBus b).window = s.window := rfl
@[simp] theorem logBus_hook (b : BusRecord) : (s.logBus b).hook = s.hook := rfl
@[simp] theorem logBus_pos (b : BusRecord) : (s.logBus b).pos = s.pos := rfl
@[simp] theorem logBus_env (b : BusRecord) : (s.logBus b).env = s.env := rfl
@[simp] theorem logBus_out (b : BusRecord) : (s.logBus b).out = { s.out with bus := s.out.bus ++ [b] } := rfl

/-! ### `ret` -/

@[simp] theorem ret_cfg (r : Result) : (s.ret r).cfg = s.cfg := rfl
@[simp] theorem ret_state (r : Result) : (s.ret r).state = s.state := rfl
@[simp] theorem ret_nextState (r : Result) : (s.ret r).nextState = s.nextState := rfl
@[simp] theorem ret_outLen (r : Result) : (s.ret r).outLen = s.outLen := rfl
@[simp] theorem ret_outSum (r : Result) : (s.ret r).outSum = s.outSum := rfl
@[simp] theorem ret_ctrl (r : Result) : (s.ret r).ctrl = s.ctrl := rfl
@[simp] theorem ret_outBuf (r : Result) : (s.ret r).outBuf = s.outBuf := rfl
@[simp] theorem ret_inBuf (r : Result) : (s.ret r).inBuf = s.inBuf := rfl
@[simp] theorem ret_inLen (r : Result) : (s.ret r).inLen = s.inLen := rfl
@[simp] theorem ret_inOvf (r : Result) : (s.ret r).inOvf = s.inOvf := rfl
@[simp] theorem ret_attached (r : Result) : (s.ret r).attached = s.attached := rfl
@[simp] theorem ret_fault (r : Result) : (s.ret r).fault = s.fault := rfl
@[simp] theorem ret_tstate (r : Result) : (s.ret r).tstate = s.tstate := rfl
@[simp] theorem ret_tIdx (r : Result) : (s.ret r).tIdx = s.tIdx := rfl
@[simp] theorem ret_tCnt (r : Result) : (s.ret r).tCnt = s.tCnt := rfl
@[simp] theorem ret_tWait (r : Result) : (s.ret r).tWait = s.tWait := rfl
@[simp] theorem ret_tRetries (r : Result) : (s.ret r).tRetries = s.tRetries := rfl
@[simp] theorem ret_tAck (r : Result) : (s.ret r).tAck = s.tAck := rfl
@[simp] theorem ret_cs (r : Result) : (s.ret r).cs = s.cs := rfl
@[simp] theorem ret_tickEn (r : Result) : (s.ret r).tickEn = s.tickEn := rfl
@[simp] theorem ret_slots (r : Result) : (s.ret r).slots = s.slots := rfl
@[simp] theorem ret_window (r : Result) : (s.ret r).window = s.window := rfl
@[simp] theorem ret_hook (r : Result) : (s.ret r).hook = s.hook := rfl
@[simp] theorem ret_pos (r : Result) : (s.ret r).pos = .idle := rfl
@[simp] theorem ret_env (r : Result) : (s.ret r).env = s.env := rfl
@[simp] theorem ret_out (r : Result) : (s.ret r).out = { s.out with results := s.out.results ++ [r] } := rfl

/-! ### `popPort` -/

@[simp] theorem popPort_cfg : (s.popPort).cfg = s.cfg := rfl
@[simp] theorem popPort_state : (s.popPort).state = s.state := rfl
@[simp] theorem popPort_nextState : (s.popPort).nextState = s.nextState := rfl
@[simp] theorem popPort_outLen : (s.popPort).outLen = s.outLen := rfl
@[simp] theorem popPort_outSum : (s.popPort).outSum = s.outSum := rfl
@[simp] theorem popPort_ctrl : (s.popPort).ctrl = s.ctrl := rfl
@[simp] theorem popPort_outBuf : (s.popPort).outBuf = s.outBuf := rfl
@[simp] theorem popPort_inBuf : (s.popPort).inBuf = s.inBuf := rfl
@[simp] theorem popPort_inLen : (s.popPort).inLen = s.inLen := rfl
@[simp] theorem popPort_inOvf : (s.popPort).inOvf = s.inOvf := rfl
@[simp] theorem popPort_attached : (s.popPort).attached = s.attached := rfl
@[simp] theorem popPort_fault : (s.popPort).fault = s.fault := rfl
@[simp] theorem popPort_tstate : (s.popPort).tstate = s.tstate := rfl
@[simp] theorem popPort_tIdx : (s.popPort).tIdx = s.tIdx := rfl
@[simp] theorem popPort_tCnt : (s.popPort).tCnt = s.tCnt := rfl
@[simp] theorem popPort_tWait : (s.popPort).tWait = s.tWait := rfl
@[simp] theorem popPort_tRetries : (s.popPort).tRetries = s.tRetries := rfl
@[simp] theorem popPort_tAck : (s.popPort).tAck = s.tAck := rfl
@[simp] theorem popPort_cs : (s.popPort).cs = s.cs := rfl
@[simp] theorem popPort_tickEn : (s.popPort).tickEn = s.tickEn := rfl
@[simp] theorem popPort_slots : (s.popPort).slots = s.slots := rfl
@[simp] theorem popPort_window : (s.popPort).window = s.window := rfl
@[simp] theorem popPort_hook : (s.popPort).hook = s.hook := rfl
@[simp] theorem popPort_pos : (s.popPort).pos = s.pos := rfl
@[simp] theorem popPort_env : (s.popPort).env = { s.env with port := s.env.port.tail } := rfl
@[simp] theorem popPort_out : (s.popPort).out = s.out := rfl

/-! ### `setSlot` -/

@[simp] theorem setSlot_cfg (i : Nat) (v : Slot) : (setSlot i v s).cfg = s.cfg := rfl
@[simp] theorem setSlot_state (i : Nat) (v : Slot) : (setSlot i v s).state = s.state := rfl
@[simp] theorem setSlot_nextState (i : Nat) (v : Slot) : (setSlot i v s).nextState = s.nextState := rfl
@[simp] theorem setSlot_outLen (i : Nat) (v : Slot) : (setSlot i v s).outLen = s.outLen := rfl
@[simp] theorem setSlot_outSum (i : Nat) (v : Slot) : (setSlot i v s).outSum = s.outSum := rfl
@[simp] theorem setSlot_ctrl (i : Nat) (v : Slot) : (setSlot i v s).ctrl = s.ctrl := rfl
@[simp] theorem setSlot_outBuf (i : Nat) (v : Slot) : (setSlot i v s).outBuf = s.outBuf := rfl
@[simp] theorem setSlot_inBuf (i : Nat) (v : Slot) : (setSlot i v s).inBuf = s.inBuf := rfl
@[simp] theorem setSlot_inLen (i : Nat) (v : Slot) : (setSlot i v s).inLen = s.inLen := rfl
@[simp] theorem setSlot_inOvf (i : Nat) (v : Slot) : (setSlot i v s).inOvf = s.inOvf := rfl
@[simp] theorem setSlot_attached (i : Nat) (v : Slot) : (setSlot i v s).attached = s.attached := rfl
@[simp] theorem setSlot_fault (i : Nat) (v : Slot) : (setSlot i v s).fault = s.fault := rfl
@[simp] theorem setSlot_tstate (i : Nat) (v : Slot) : (setSlot i v s).tstate = s.tstate := rfl
@[simp] theorem setSlot_tIdx (i : Nat) (v : Slot) : (setSlot i v s).tIdx = s.tIdx := rfl
@[simp] theorem setSlot_tCnt (i : Nat) (v : Slot) : (setSlot i v s).tCnt = s.tCnt := rfl
@[simp] theorem setSlot_tWait (i : Nat) (v : Slot) : (setSlot i v s).tWait = s.tWait := rfl
@[simp] theorem setSlot_tRetries (i : Nat) (v : Slot) : (setSlot i v s).tRetries = s.tRetries := rfl
@[simp] theorem setSlot_tAck (i : Nat) (v : Slot) : (setSlot i v s).tAck = s.tAck := rfl
@[simp] theorem setSlot_cs (i : Nat) (v : Slot) : (setSlot i v s).cs = s.cs := rfl
@[simp] theorem setSlot_tickEn (i : Nat) (v : Slot) : (setSlot i v s).tickEn = s.tickEn := rfl
@[simp] theorem setSlot_slots (i : Nat) (v : Slot) : (setSlot i v s).slots = s.slots.set i v := rfl
@[simp] theorem setSlot_window (i : Nat) (v : Slot) : (setSlot i v s).window = s.window := rfl
@[simp] theorem setSlot_hook (i : Nat) (v : Slot) : (setSlot i v s).hook = s.hook := rfl
@[simp] theorem setSlot_pos (i : Nat) (v : Slot) : (setSlot i v s).pos = s.pos := rfl
@[simp] theorem setSlot_env (i : Nat) (v : Slot) : (setSlot i v s).env = s.env := rfl
@[simp] theorem setSlot_out (i : Nat) (v : Slot) : (setSlot i v s).out = s.out := rfl

/-! ### `setCs` -/

@[simp] theorem setCs_cfg (v : Bool) : (s.setCs v).cfg = s.cfg := by unfold State.setCs; split <;> rfl
@[simp] theorem setCs_state (v : Bool) : (s.setCs v).state = s.state := by unfold State.setCs; split <;> rfl
@[simp] theorem setCs_nextState (v : Bool) : (s.setCs v).nextState = s.nextState := by unfold State.setCs; split <;> rfl
@[simp] theorem setCs_outLen (v : Bool) : (s.setCs v).outLen = s.outLen := by unfold State.setCs; split <;> rfl
@[simp] theorem setCs_outSum (v : Bool) : (s.setCs v).outSum = s.outSum := by unfold State.setCs; split <;> rfl
@[simp] theorem setCs_ctrl (v : Bool) : (s.setCs v).ctrl = s.ctrl := by unfold State.setCs; split <;> rfl
@[simp] theorem setCs_outBuf (v : Bool) : (s.setCs v).outBuf = s.outBuf := by unfold State.setCs; split <;> rfl
@[simp] theorem setCs_inBuf (v : Bool) : (s.setCs v).inBuf = s.inBuf := by unfold State.setCs; split <;> rfl
@[simp] theorem setCs_inLen (v : Bool) : (s.setCs v).inLen = s.inLen := by unfold State.setCs; split <;> rfl
@[simp] theorem setCs_inOvf (v : Bool) : (s.setCs v).inOvf = s.inOvf := by unfold State.setCs; split <;> rfl
@[simp] theorem setCs_attached (v : Bool) : (s.setCs v).attached = s.attached := by unfold State.setCs; split <;> rfl
@[simp] theorem setCs_fault (v : Bool) : (s.setCs v).fault = s.fault := by unfold State.setCs; split <;> rfl
@[simp] theorem setCs_tstate (v : Bool) : (s.setCs v).tstate = s.tstate := by unfold State.setCs; split <;> rfl
@[simp] theorem setCs_tIdx (v : Bool) : (s.setCs v).tIdx = s.tIdx := by unfold State.setCs; split <;> rfl
@[simp] theorem setCs_tCnt (v : Bool) : (s.setCs v).tCnt = s.tCnt := by unfold State.setCs; split <;> rfl
@[simp] theorem setCs_tWait (v : Bool) : (s.setCs v).tWait = s.tWait := by unfold State.setCs; split <;> rfl
@[simp] theorem setCs_tRetries (v : Bool) : (s.setCs v).tRetries = s.tRetries := by unfold State.setCs; split <;> rfl
@[simp] theorem setCs_tAck (v : Bool) : (s.setCs v).tAck = s.tAck := by unfold State.setCs; split <;> rfl
@[simp] theorem setCs_tickEn (v : Bool) : (s.setCs v).tickEn = s.tickEn := by unfold State.setCs; split <;> rfl
@[simp] theorem setCs_slots (v : Bool) : (s.setCs v).slots = s.slots := by unfold State.setCs; split <;> rfl
@[simp] theorem setCs_window (v : Bool) : (s.setCs v).window = s.window := by unfold State.setCs; split <;> rfl
@[simp] theorem setCs_hook (v : Bool) : (s.setCs v).hook = s.hook := by unfold State.setCs; split <;> rfl
@[simp] theorem setCs_pos (v : Bool) : (s.setCs v).pos = s.pos := by unfold State.setCs; split <;> rfl
@[simp] theorem setCs_env (v : Bool) : (s.setCs v).env = s.env := by unfold State.setCs; split <;> rfl
@[simp] theorem setCs_out (v : Bool) : (s.setCs v).out = s.out := by unfold State.setCs; split <;> rfl

@[simp] theorem setCs_cs (v : Bool) :
    (s.setCs v).cs = if s.cfg.transport = .tick then v else s.cs := by
  unfold State.setCs; split <;> simp_all

end Sys2Proof.Machine
end

