-- ==== Sys2Proof/Laws/Ops.lean ====
section
/-! SUPPORT. For each shared operation, one lemma that says what it can do. -/

namespace Sys2Proof.Machine

/-! ## Results of operations -/

@[simp] theorem andThen_ok (s : State) (k : State → Res) : (Res.ok s).andThen k = k s := rfl
@[simp] theorem andThen_wait (s : State) (k : State → Res) : (Res.wait s).andThen k = .wait s := rfl
@[simp] theorem andThen_raised (s : State) (k : State → Res) : (Res.raised s).andThen k = .raised s := rfl
@[simp] theorem andThen_stop (f : Fault) (k : State → Res) : (Res.stop f).andThen k = .stop f := rfl

theorem andThen_assoc (r : Res) (k l : State → Res) :
    (r.andThen k).andThen l = r.andThen fun s => (k s).andThen l := by cases r <;> rfl

@[simp] theorem at_ok (p : HostPos) (s : State) : (Res.ok s).at p = .ok s := rfl
@[simp] theorem at_wait (p : HostPos) (s : State) : (Res.wait s).at p = .wait { s with pos := p } := rfl
@[simp] theorem at_raised (p : HostPos) (s : State) : (Res.raised s).at p = .raised s := rfl
@[simp] theorem at_stop (p : HostPos) (f : Fault) : (Res.stop f).at p = .stop f := rfl

@[simp] theorem toOutcome_ok (g : State → Result) (s : State) : (Res.ok s).toOutcome g = .next (s.ret (g s)) := rfl
@[simp] theorem toOutcome_wait (g : State → Result) (s : State) : (Res.wait s).toOutcome g = .next s := rfl
@[simp] theorem toOutcome_raised (g : State → Result) (s : State) :
    (Res.raised s).toOutcome g = .next (s.ret (.fault s.fault)) := rfl
@[simp] theorem toOutcome_stop (g : State → Result) (f : Fault) : (Res.stop f).toOutcome g = .fault f := rfl

/-- Taking a fault while none is recorded records it and changes nothing else. -/
theorem raise_running (c : FaultCode) (s : State) (h : s.fault = .none) :
    raise c s = .raised { s with fault := c } := by simp [raise, h]

/-- Taking a fault while one is recorded changes nothing. -/
theorem raise_halted (c : FaultCode) (s : State) (h : s.fault ≠ .none) : raise c s = .raised s := by simp [raise, h]

/-- Every host operation takes one of four ways through the common checks. -/
theorem hostOp_cases (su ok : Bool) (s : State) (g : State → Result) (body : State → Res) :
    (s.fault ≠ .none ∧ hostOp su ok s g body = .next (s.ret .halted))
    ∨ (s.fault = .none ∧ s.attached = false ∧ su = false
        ∧ hostOp su ok s g body = .next ({ s with fault := .notAttached }.ret (.fault .notAttached)))
    ∨ (s.fault = .none ∧ (s.attached = true ∨ su = true) ∧ ok = false
        ∧ hostOp su ok s g body = .next ({ s with fault := .badArgument }.ret (.fault .badArgument)))
    ∨ (s.fault = .none ∧ (s.attached = true ∨ su = true) ∧ ok = true
        ∧ hostOp su ok s g body = (body s).toOutcome g) := by
  by_cases hf : s.fault = .none
  · cases ha : s.attached <;> cases su <;> cases ok <;> simp [hostOp, hf, ha, raise]
  · simp [hostOp, hf]

/-- A host operation past the common checks. -/
theorem hostOp_run (s : State) (g : State → Result) (body : State → Res) (hf : s.fault = .none)
    (ha : s.attached = true) : hostOp false true s g body = (body s).toOutcome g := by simp [hostOp, hf, ha]

@[simp] theorem transition_enabled (s : State) (body : State → Res) : transition true s body =
    match body s with
    | .ok t => .next t
    | .wait t => .next t
    | .raised t => .next t
    | .stop f => .fault f := rfl

@[simp] theorem transition_disabled (s : State) (body : State → Res) : transition false s body = .next s := rfl

/-! ## Staging and arming -/

theorem outWrite_ok {i : Nat} {s : State} (v : Byte) (h : i < s.cfg.cOut) :
    outWrite i v s = .ok { s with outBuf := writeMem s.outBuf i v } := by simp [outWrite, h]

theorem appendByte_ok (b : Byte) (s : State) (h : fits [b] s) : appendByte b s = .ok (s.staged [b]) := by
  simp [fits] at h
  have h1 : ¬ s.outLen + 1 > s.cfg.cOut - 3 := by omega
  simp [appendByte, h1, outWrite_ok b (show 2 + s.outLen < s.cfg.cOut by omega), State.staged, writeBytes, sum8]

theorem appendByte_full (b : Byte) (s : State) (h : ¬ fits [b] s) : appendByte b s = raise .frameTooLarge s := by
  simp [fits] at h
  have h1 : s.outLen + 1 > s.cfg.cOut - 3 := by omega
  simp [appendByte, h1]

@[simp] theorem staged_nil (s : State) : s.staged [] = s := by simp [State.staged, writeBytes, sum8]

theorem writeBytes_append (l l' : List Byte) : ∀ (m : Memory) (a : Nat),
    writeBytes m a (l ++ l') = writeBytes (writeBytes m a l) (a + l.length) l' := by
  induction l with
  | nil => intro m a; simp [writeBytes]
  | cons b rest ih => intro m a; simp [writeBytes, ih, Nat.add_assoc, Nat.add_comm 1]

theorem staged_staged (l l' : List Byte) (s : State) : (s.staged l).staged l' = s.staged (l ++ l') := by
  simp [State.staged, writeBytes_append, sum8_append, Nat.add_assoc, BitVec.add_assoc]

/-- Bytes that fit are staged. -/
theorem appendAll_ok (l : List Byte) : ∀ s : State, fits l s → appendAll l s = .ok (s.staged l) := by
  induction l with
  | nil => intro s _; simp [appendAll]
  | cons b rest ih =>
    intro s h
    have h1 : fits [b] s := by simp [fits] at h ⊢; omega
    have h2 : fits rest (s.staged [b]) := by simp [fits, State.staged] at h ⊢; omega
    simp [appendAll, appendByte_ok b s h1, ih _ h2, staged_staged]

/-- Bytes that do not all fit: those that do are staged, and the next one raises. -/
theorem appendAll_full (l : List Byte) : ∀ s : State, ¬ fits l s → fits [] s →
    appendAll l s = raise .frameTooLarge (s.staged (l.take (s.cfg.cOut - 3 - s.outLen))) := by
  induction l with
  | nil => intro s h h'; exact absurd h' h
  | cons b rest ih =>
    intro s h h0
    by_cases h1 : fits [b] s
    · have h2 : ¬ fits rest (s.staged [b]) := by simp [fits, State.staged] at h ⊢; omega
      have h3 : fits [] (s.staged [b]) := by simp [fits, State.staged] at h1 ⊢; omega
      simp only [appendAll, appendByte_ok b s h1, andThen_ok, ih _ h2 h3, staged_staged]
      have : s.cfg.cOut - 3 - s.outLen = (s.cfg.cOut - 3 - (s.outLen + 1)) + 1 := by
        simp [fits] at h1; omega
      congr 2
      simp only [State.staged, List.length_singleton]
      rw [this, List.take_succ_cons]; rfl
    · have : s.cfg.cOut - 3 - s.outLen = 0 := by simp [fits] at h0 h1; omega
      have hr : appendByte b s = raise .frameTooLarge s := appendByte_full b s h1
      simp [appendAll, hr, this]
      by_cases hf : s.fault = .none <;> simp [raise, hf]

/-- Arming a staged frame that keeps room for header and trailer. -/
theorem arm_ok (s : State) (h : s.outLen + 3 ≤ s.cfg.cOut) : arm s = .ok s.armed := by
  simp [arm, finalize, outWrite, outTrailer, byteOf, nextStateOf, State.armed,
    show 0 < s.cfg.cOut by omega, show 1 < s.cfg.cOut by omega, show 2 + s.outLen < s.cfg.cOut by omega]

/-! ## Bus -/

@[simp] theorem busTx_eq (b : Byte) (s : State) : busTx b s = s.logBus (.tx b) := rfl

/-- A given answer is the byte read, and it is used up. -/
theorem drawByte_cons {e : Env} {b : Byte} {rest : List Byte} (h : e.rx = b :: rest) :
    drawByte e = (b, { e with rx := rest }) := by simp [drawByte, h]

/-- With no answer given the byte read is free. -/
theorem drawByte_nil {e : Env} (h : e.rx = []) :
    drawByte e = (Config.displayByte e.rxCount, { e with rxCount := e.rxCount + 1 }) := by simp [drawByte, h]

/-! ## Driving and transfers -/

theorem runTransfer_ready (n : Nat) (s : State) (h : s.tstate = .ready) : runTransfer n s = .ok s := by
  cases n <;> simp [runTransfer, h]

theorem runTransfer_zero (s : State) (h : s.tstate ≠ .ready) : runTransfer 0 s = .wait s := by
  simp [runTransfer, h]

theorem runTransfer_succ (n : Nat) (s : State) (h : s.tstate ≠ .ready) :
    runTransfer (n + 1) s = (transportStep s).andThen (runTransfer n) := by simp [runTransfer, h]

/-- A blocking transfer that ends leaves the transport ready. -/
theorem runTransfer_ok_ready (n : Nat) : ∀ s t : State, runTransfer n s = .ok t → t.tstate = .ready := by
  induction n with
  | zero =>
    intro s t h
    by_cases hs : s.tstate = .ready
    · rw [runTransfer_ready _ _ hs] at h; cases h; exact hs
    · rw [runTransfer_zero _ hs] at h; cases h
  | succ n ih =>
    intro s t h
    by_cases hs : s.tstate = .ready
    · rw [runTransfer_ready _ _ hs] at h; cases h; exact hs
    · rw [runTransfer_succ _ _ hs] at h
      cases hr : transportStep s <;> rw [hr] at h <;> simp at h
      exact ih _ _ h

theorem driveLoop_ready (n : Nat) (s : State) (hf : s.fault = .none) (h : s.state = .ready) :
    driveLoop n s = .ok s := by cases n <;> simp [driveLoop, hf, h]

theorem driveLoop_halted (n : Nat) (s : State) (hf : s.fault ≠ .none) : driveLoop n s = .raised s := by
  cases n <;> simp [driveLoop, hf]

theorem driveLoop_zero (s : State) (hf : s.fault = .none) (h : s.state ≠ .ready) :
    driveLoop 0 s = .wait s := by simp [driveLoop, hf, h]

theorem driveLoop_succ (n : Nat) (s : State) (hf : s.fault = .none) (h : s.state ≠ .ready) :
    driveLoop (n + 1) s = (sessionStep s).andThen (driveLoop n) := by simp [driveLoop, hf, h]

/-- A driving loop that ends leaves the session READY and the block running. -/
theorem driveLoop_ok (n : Nat) : ∀ s t : State, driveLoop n s = .ok t → t.state = .ready ∧ t.fault = .none := by
  induction n with
  | zero =>
    intro s t h
    by_cases hf : s.fault = .none
    · by_cases hs : s.state = .ready
      · rw [driveLoop_ready _ _ hf hs] at h; cases h; exact ⟨hs, hf⟩
      · rw [driveLoop_zero _ hf hs] at h; cases h
    · rw [driveLoop_halted _ _ hf] at h; cases h
  | succ n ih =>
    intro s t h
    by_cases hf : s.fault = .none
    · by_cases hs : s.state = .ready
      · rw [driveLoop_ready _ _ hf hs] at h; cases h; exact ⟨hs, hf⟩
      · rw [driveLoop_succ _ _ hf hs] at h
        cases hr : sessionStep s <;> rw [hr] at h <;> simp at h
        exact ih _ _ h
    · rw [driveLoop_halted _ _ hf] at h; cases h

theorem drive_ready (p : HostPos) (s : State) (hf : s.fault = .none) (h : s.state = .ready) :
    drive p s = .ok s := by simp [drive, driveLoop_ready _ _ hf h]

theorem drive_ok (p : HostPos) (s t : State) (h : drive p s = .ok t) : t.state = .ready ∧ t.fault = .none := by
  unfold drive at h
  cases hr : driveLoop (driveFuel s) s <;> rw [hr] at h <;> simp at h
  subst h; exact driveLoop_ok _ _ _ hr

/-! ## Scans of the table -/

/-- A scan from the back finds the highest index that passes. -/
theorem find?_range_reverse_some (p : Nat → Bool) (n i : Nat) :
    (List.range n).reverse.find? p = some i ↔ i < n ∧ p i = true ∧ ∀ j, i < j → j < n → p j = false := by
  induction n with
  | zero => simp
  | succ n ih =>
    rw [List.range_succ, List.reverse_append]
    simp only [List.reverse_singleton, List.singleton_append, List.find?_cons]
    cases hp : p n
    · simp only [ih]
      constructor
      · rintro ⟨h1, h2, h3⟩
        refine ⟨by omega, h2, fun j hj hj' => ?_⟩
        by_cases hjn : j = n
        · subst hjn; exact hp
        · exact h3 j hj (by omega)
      · rintro ⟨h1, h2, h3⟩
        have : i ≠ n := by rintro rfl; simp [hp] at h2
        exact ⟨by omega, h2, fun j hj hj' => h3 j hj (by omega)⟩
    · simp only [Option.some.injEq]
      constructor
      · rintro rfl; exact ⟨by omega, hp, fun j hj hj' => by omega⟩
      · rintro ⟨h1, h2, h3⟩
        by_contra hne
        have := h3 n (by omega) (by omega)
        simp [hp] at this

/-- A scan from the back finds nothing exactly where nothing passes. -/
theorem find?_range_reverse_none (p : Nat → Bool) (n : Nat) :
    (List.range n).reverse.find? p = none ↔ ∀ j, j < n → p j = false := by
  simp [List.find?_eq_none]

/-- A scan from the front finds the lowest index that passes. -/
theorem find?_range_some (p : Nat → Bool) (n i : Nat) :
    (List.range n).find? p = some i ↔ i < n ∧ p i = true ∧ ∀ j, j < i → p j = false := by
  induction n with
  | zero => simp
  | succ n ih =>
    rw [List.range_succ, List.find?_append]
    cases h : (List.range n).find? p with
    | some k =>
      rw [h] at ih
      simp only [Option.some_or, Option.some.injEq]
      constructor
      · rintro rfl; have := ih.1 rfl; exact ⟨by omega, this.2⟩
      · rintro ⟨h1, h2, h3⟩
        have hk := List.find?_some h
        have hkn : k < n := List.mem_range.1 (List.mem_of_find?_eq_some h)
        by_cases hin : i < n
        · exact Option.some.inj (ih.2 ⟨hin, h2, h3⟩)
        · have := h3 k (by omega); simp [hk] at this
    | none =>
      have hn : ∀ j, j < n → p j = false := by simpa [List.find?_eq_none] using h
      simp only [Option.none_or, List.find?_singleton]
      constructor
      · intro h'
        split at h'
        · cases h'; exact ⟨by omega, by assumption, fun j hj => hn j hj⟩
        · cases h'
      · rintro ⟨h1, h2, h3⟩
        have : i = n := by
          by_contra hne
          have := hn i (by omega); simp [h2] at this
        subst this; simp [h2]

/-- A scan from the front finds nothing exactly where nothing passes. -/
theorem find?_range_none (p : Nat → Bool) (n : Nat) :
    (List.range n).find? p = none ↔ ∀ j, j < n → p j = false := by
  simp [List.find?_eq_none]

/-- A slot after one slot was written. -/
theorem slotAt_setSlot (s : State) (i j : Nat) (v : Slot) (h : i < s.slots.length) :
    slotAt (setSlot i v s) j = if j = i then v else slotAt s j := by
  unfold slotAt setSlot
  simp only [List.getD_eq_getElem?_getD, List.getElem?_set]
  by_cases hij : i = j
  · subst hij; simp [h]
  · simp [hij, Ne.symm hij]

end Sys2Proof.Machine
end

