-- ==== Sys2Proof/Laws/Codec.lean ====
section
/-! SUPPORT. What the codec's shared operations can do: the bytes an operand appends, one token, and a run of tokens. -/

namespace Sys2Proof.Machine

/-- Bytes written from the cursor on are stored there, and nowhere else. -/
theorem storedAt_of_writeBytes {l : List Byte} {a : Nat} {s t : State} (h : t.outBuf = writeBytes s.outBuf a l) :
    StoredAt a l s t := by
  constructor
  · intro j hj
    rw [outRead, h, readMem_writeBytes, if_pos (by omega), Nat.add_sub_cancel_left]
  · intro i hi
    rw [outRead, h, readMem_writeBytes, if_neg (by omega)]; rfl

theorem content_eq_takeWhile (l : List Byte) : content l = l.takeWhile (· ≠ 0) := by
  induction l with
  | nil => rfl
  | cons b rest ih =>
    simp only [content, List.takeWhile_cons, ih]
    by_cases h : b = 0 <;> simp [h]

theorem lowByte_u16Of (v : Nat) : lowByte (u16Of v) = BitVec.ofNat 8 v := by
  apply BitVec.eq_of_toNat_eq
  simp [lowByte, u16Of]

theorem highByte_u16Of (v : Nat) : highByte (u16Of v) = BitVec.ofNat 8 (v / 256) := by
  apply BitVec.eq_of_toNat_eq
  simp [highByte, u16Of, Nat.shiftRight_eq_div_pow]
  omega

theorem staging_ready {s : State} (h : s.state = .ready) (body : State → Res) : staging body s = body s := by
  simp [staging, h]

theorem appendAll_singleton (b : Byte) (s : State) : appendAll [b] s = appendByte b s := by
  simp only [appendAll]
  cases appendByte b s <;> rfl

theorem fits_staged (l b : List Byte) (s : State) : fits b (s.staged l) ↔ fits (l ++ b) s := by
  simp [fits, State.staged]
  omega

/-- Staging keeps the stored sum: what was staged and what is staged now stand together. -/
theorem readRange_staged {s : State} {p : List Byte} (l : List Byte) (hp : readRange s.outBuf 2 s.outLen = some p) :
    readRange (s.staged l).outBuf 2 (s.staged l).outLen = some (p ++ l) := by
  have hl := readRange_length hp
  refine (readRange_eq_some_iff _ _ _ _).2 ⟨by simp [State.staged, hl], fun i hi => ?_⟩
  simp only [State.staged] at hi ⊢
  rw [readMem_writeBytes]
  by_cases h : i < s.outLen
  · rw [if_neg (by omega), List.getElem?_append_left (by omega)]
    exact ((readRange_eq_some_iff _ _ _ _).1 hp).2 i h
  · rw [if_pos (by omega), List.getElem?_append_right (by omega)]
    congr 1
    omega

/-- `k` diagnostics of an unrecognised directive. -/
abbrev State.withUnknown (k : Nat) (s : State) : State := s.withEvents (List.replicate k (.diag .unknownDirective))

theorem withUnknown_zero (s : State) : s.withUnknown 0 = s := by simp [State.withUnknown, State.withEvents]

theorem withUnknown_withUnknown (j k : Nat) (s : State) : (s.withUnknown j).withUnknown k = s.withUnknown (j + k) := by
  simp only [State.withUnknown, State.withEvents, List.replicate_add, List.append_assoc]

/-- A token that finds its argument appends its bytes and emits its diagnostics. -/
theorem opToken_found (t : Token) (arg : Option Arg) (b : List Byte) (h : tokenBytes t arg = some b) (s : State) :
    opToken t arg s = (appendAll b s).andThen fun u => .ok (u.withUnknown (tokenDiags t)) := by
  cases t with
  | lit c =>
    simp [tokenBytes] at h; subst h
    simp only [opToken, opLit, appendAll_singleton, tokenDiags, withUnknown_zero]; cases appendByte c s <;> rfl
  | percent =>
    simp [tokenBytes] at h; subst h
    simp only [opToken, opPercent, percentByte, tokenDiags, withUnknown_zero, appendAll_singleton]; cases appendByte _ s <;> rfl
  | unknown d =>
    simp [tokenBytes] at h; subst h
    simp [opToken, opUnknown, emitDiag, State.emit, tokenDiags, appendAll, State.withUnknown, State.withEvents]
  | trailing =>
    simp [tokenBytes] at h; subst h
    simp [opToken, opTrailing, emitDiag, State.emit, tokenDiags, appendAll, State.withUnknown, State.withEvents]
  | char =>
    cases arg with
    | none => simp [tokenBytes] at h
    | some a =>
      cases a <;> simp [tokenBytes] at h
      subst h
      simp only [opToken, opChar, byteOf, tokenDiags, withUnknown_zero, appendAll_singleton]; cases appendByte _ s <;> rfl
  | word =>
    cases arg with
    | none => simp [tokenBytes] at h
    | some a =>
      cases a <;> simp [tokenBytes] at h
      subst h
      simp only [opToken, opWord, tokenDiags, withUnknown_zero, u16Bytes, lowByte_u16Of, highByte_u16Of]
      cases appendAll _ s <;> rfl
  | str =>
    cases arg with
    | none => simp [tokenBytes] at h
    | some a =>
      cases a <;> simp [tokenBytes] at h
      subst h
      simp only [opToken, opStr, tokenDiags, withUnknown_zero, cstrBytes, content_eq_takeWhile]
      simp
      cases appendAll _ s <;> rfl

/-- A token that lacks its argument faults. -/
theorem opToken_lacking (t : Token) (arg : Option Arg) (h : tokenBytes t arg = none) (s : State) :
    opToken t arg s = raise .badArgument s := by
  cases t <;> simp [tokenBytes] at h <;> cases arg <;> (try (rename_i a; cases a)) <;> simp at h <;> rfl

/-- Tokens that find their arguments and fit are staged; the tokens after them go on with the arguments left. -/
theorem encodeTokens_append (before : List Token) : ∀ (after : List Token) (args : List Arg) (l : List Byte) (k : Nat) (s : State),
    tokensEffect before args = some (l, k) → fits l s →
    encodeTokens (before ++ after) args s = encodeTokens after (argsLeft before args) ((s.staged l).withUnknown k) := by
  induction before with
  | nil =>
    intro after args l k s h hf
    simp only [tokensEffect, Option.some.injEq, Prod.mk.injEq] at h
    obtain ⟨rfl, rfl⟩ := h
    rw [staged_nil, withUnknown_zero]; rfl
  | cons t rest ih =>
    intro after args l k s h hf
    simp only [tokensEffect] at h
    split at h
    · rename_i b bs k' hb hr
      simp only [Option.some.injEq, Prod.mk.injEq] at h
      obtain ⟨rfl, rfl⟩ := h
      have h1 : fits b s := by simp [fits] at hf ⊢; omega
      simp only [List.cons_append, encodeTokens, opToken_found t _ b hb, appendAll_ok b s h1, andThen_ok, argsLeft]
      have h2 : fits bs ((s.staged b).withUnknown (tokenDiags t)) := (fits_staged b bs s).2 hf
      rw [ih after _ bs k' _ hr h2]
      show encodeTokens _ _ ((((s.staged b).staged bs).withUnknown (tokenDiags t)).withUnknown k') = _
      rw [withUnknown_withUnknown, staged_staged]
    · cases h

end Sys2Proof.Machine
end

