-- ==== Sys2Proof/Laws/Dispatcher.lean ====
section
/-! SUPPORT. What the dispatcher and the EVENT step can do: each part appends the records its rule names to the event stream, and writes
nothing else. -/

namespace Sys2Proof.Machine

theorem cfg_subBytes (c : Cfg) : c.subRelease = 0 ∧ c.subPress = 1 ∧ c.subRepeat = 2 := by
  have h := c.ok
  simp [RawCfg.valid, Bool.and_eq_true] at h
  simp [h]

theorem cfg_touchOffsets (c : Cfg) : c.offSub < c.touchLen ∧ c.offX + 1 < c.touchLen ∧ c.offY + 1 < c.touchLen := by
  have h := c.ok
  simp [RawCfg.valid, Bool.and_eq_true] at h
  omega

theorem withEvents_nil (s : State) : s.withEvents [] = s := by simp [State.withEvents]

theorem withEvents_withEvents (s : State) (l l' : List Event) : (s.withEvents l).withEvents l' = s.withEvents (l ++ l') := by
  simp [State.withEvents]

theorem hookCall_eq (s : State) : hookCall s = s.withEvents (hookEvents s) := by
  unfold hookCall
  cases h : s.hook <;> simp [hookEvents, h, State.withEvents, State.emit]
  simp [← h]

theorem hookCall_withEvents (s : State) (l : List Event) : hookCall (s.withEvents l) = s.withEvents (l ++ hookEvents s) := by
  rw [hookCall_eq, withEvents_withEvents]; rfl

theorem resolveCode_eq (s : State) (c : Byte) :
    resolveCode c s = s.withEvents (codeEvents s (codePress c) (codeNumber c).toNat) := by
  simp only [resolveCode, codeEvents]
  by_cases hk : (codeNumber c).toNat = 0 ∨ s.cfg.nSlots < (codeNumber c).toNat
  · rw [if_pos hk, if_pos hk]; rfl
  · rw [if_neg hk, if_neg hk]
    unfold dispatchEvent occupied
    cases h : (slotAt s ((codeNumber c).toNat - 1)).cb <;> simp [emitDiag, emitDispatch, h, State.emit, State.withEvents]

theorem touchPoint_eq (s : State) (down : Bool) (x y : U16) :
    touchPoint down x y s = s.withEvents (pointEvents s down x y) := by
  unfold touchPoint pointEvents
  cases h : hitTest s x y
  · rfl
  · simp only [emitDispatch, dispatchEvent]
    cases (slotAt s _).cb <;> simp [State.emit, State.withEvents]

theorem touchSub_eq (s : State) (b : Byte) (x y : U16) : touchSub b x y s = s.withEvents (subEvents s b x y) := by
  have hs := cfg_subBytes s.cfg
  simp only [touchSub, subEvents, touchPoint_eq, hs]
  by_cases h2 : b = 2
  · simp [h2, State.withEvents]
  · by_cases h1 : b = 1
    · simp [h1]
    · by_cases h0 : b = 0
      · simp [h0]
      · rw [if_neg h2, if_neg h2, if_neg h1, if_neg h0, if_pos ⟨h1, h0⟩]; rfl

/-- The 16-bit field is its high byte before its low byte. -/
theorem u16At_eq {p : List Byte} {o : Nat} {lo hi : Byte} (h1 : p[o]? = some lo) (h2 : p[o + 1]? = some hi) :
    u16At p o = some (hi ++ lo) := by
  simp only [u16At, h1, h2]
  congr 1
  apply BitVec.eq_of_toNat_eq
  have := lo.isLt
  have := hi.isLt
  rw [BitVec.toNat_append]
  simp
  rw [Nat.mod_eq_of_lt (a := lo.toNat) (by omega), Nat.mod_eq_of_lt (a := hi.toNat) (by omega),
    Nat.mod_eq_of_lt (by rw [Nat.shiftLeft_eq]; omega), Nat.or_comm]

theorem field16_eq {p : List Byte} {o : Nat} {lo hi : Byte} (h1 : p[o]? = some lo) (h2 : p[o + 1]? = some hi) :
    field16 p o = hi ++ lo := by
  simp only [field16, List.getD_eq_getElem?_getD, h1, h2, Option.getD_some]
  apply BitVec.eq_of_toNat_eq
  have := lo.isLt
  have := hi.isLt
  rw [BitVec.toNat_append, ← Nat.shiftLeft_add_eq_or_of_lt (by omega), Nat.shiftLeft_eq]
  simp
  omega

/-- Dispatching a payload appends the records its event brings, then the hook's. -/
theorem dispatch_eq (p : List Byte) (s : State) (hp : p ≠ []) : dispatch p s = .ok (s.withEvents (payloadEvents s p)) := by
  unfold dispatch payloadEvents
  cases h : eventKind s.cfg p
  · simp only
    have hl : p.getLast? = some (p.getLastD 0) := by
      cases p with
      | nil => exact absurd rfl hp
      | cons a l => simp [List.getLast?_cons]
    rw [buttonEvent, hl]
    simp only [andThen_ok, resolveCode_eq, hookCall_withEvents]
  · simp only
    unfold touchEvent
    by_cases hl : p.length = s.cfg.touchLen
    · obtain ⟨o1, o2, o3⟩ := cfg_touchOffsets s.cfg
      rw [if_neg (by simpa using hl), if_pos hl]
      have g : ∀ i, i < s.cfg.touchLen → p[i]? = some (p.getD i 0) := by
        intro i hi
        rw [List.getD_eq_getElem?_getD]
        simp [show i < p.length by omega]
      rw [g _ o1, u16At_eq (g s.cfg.offX (by omega)) (g _ o2), u16At_eq (g s.cfg.offY (by omega)) (g _ o3)]
      simp only [andThen_ok, touchSub_eq, hookCall_withEvents]
      rw [field16_eq (g s.cfg.offX (by omega)) (g _ o2), field16_eq (g s.cfg.offY (by omega)) (g _ o3)]
    · rw [if_pos (by simpa using hl), if_neg hl]
      rw [andThen_ok, show emitDiag .badTouchLength s = s.withEvents [.diag .badTouchLength] from rfl, hookCall_withEvents]
  · simp only [andThen_ok, unknownEvent]
    rw [show emitDiag .unknownEvent s = s.withEvents [.diag .unknownEvent] from rfl, hookCall_withEvents]

/-- A stored frame that did not overflow is dispatched, or gives its one diagnostic. -/
theorem eventFrame_eq (s : State) (n : Byte) (p : List Byte) (trailer : Byte) (hp : readRange s.inBuf 2 n.toNat = some p)
    (ht : inRead s (2 + n.toNat) = some trailer) (hn : n ≠ 0) (ho : s.inOvf = false) :
    eventFrame n s
      = .ok (s.withEvents (if sum8 (n :: p) = trailer then payloadEvents s p else [.diag .checksumMismatch])) := by
  have hne : p ≠ [] := by
    rintro rfl
    have := readRange_length hp
    apply hn
    apply BitVec.eq_of_toNat_eq
    simpa using this.symm
  rw [eventFrame, if_neg hn, if_neg (by simp [ho])]
  simp only [inFrame, hp, ht]
  by_cases h : sum8 (n :: p) = trailer
  · rw [if_pos (show inboundSumOk n p trailer = true from decide_eq_true h), if_pos h, dispatch_eq _ _ hne]
  · rw [if_neg (show ¬ inboundSumOk n p trailer = true from fun h' => h (of_decide_eq_true h')), if_neg h]; rfl

end Sys2Proof.Machine
end

