-- ==== Sys2Proof/Laws/PerInstr.lean ====
section
/-! SUPPORT. Facts about every instruction as syntax, one lemma per constructor of `Instr`. -/

namespace Sys2Proof.Laws

/-- The `format` column of spec/opcode_table.json and the number of bytes a row's words have (30_encoding.md R64, R70, R71 to R78). -/
def rowShape : Instr → Format × Nat
  | .setup => (.hostop, 1)
  | .beginFrame => (.hostop, 1)
  | .putU8 _ => (.hostop, 1)
  | .putU16le _ => (.hostop, 1)
  | .putCstr _ => (.hostop, 1)
  | .encode _ _ => (.hostop, 1)
  | .flush => (.hostop, 1)
  | .step => (.hostop, 1)
  | .isReady => (.hostop, 1)
  | .allocCode _ _ => (.hostop, 1)
  | .allocArea _ _ _ => (.hostop, 1)
  | .free _ => (.hostop, 1)
  | .setEnabled _ _ => (.hostop, 1)
  | .setWindow _ => (.hostop, 1)
  | .clearWindow => (.hostop, 1)
  | .setHook _ => (.hostop, 1)
  | .clearHook => (.hostop, 1)
  | .undefinedHostOpcode _ _ => (.hostop, 1)
  | .tick => (.tickInput, 0)
  | .reset => (.resetInput, 0)
  | .poll => (.synthesized, 0)
  | .lit _ => (.directive, 1)
  | .dirChar _ => (.directive, 2)
  | .dirWord _ => (.directive, 2)
  | .dirStr _ => (.directive, 2)
  | .dirPercent => (.directive, 2)
  | .dirUnknown _ => (.directive, 2)
  | .trailingPct => (.directive, 1)
  | .evButton p => (.inboundEvent, p.length)
  | .evTouch p => (.inboundEvent, p.length)
  | .evUnknown p => (.inboundEvent, p.length)
  | .buttonCode _ _ => (.codeByte, 1)
  | .subRelease _ _ => (.touchSub, 1)
  | .subPress _ _ => (.touchSub, 1)
  | .subRepeat => (.touchSub, 1)
  | .subOther _ => (.touchSub, 1)
  | .ctrlNoresp => (.wireCtrl, 1)
  | .ctrlResp => (.wireCtrl, 1)
  | .ack => (.handshake, 1)
  | .nak _ => (.handshake, 1)
  | .esc => (.commandLead, 1)

/-- The record the encoder writes for an instruction has its row's format and its row's number of bytes. -/
def EncodeFormat.Statement (i : Instr) : Prop :=
  ∀ c : Cfg, (encode c i).format = (rowShape i).1 ∧ (encode c i).bytes.length = (rowShape i).2

theorem EncodeFormat.setup : EncodeFormat.Statement .setup := fun _ => ⟨rfl, rfl⟩
theorem EncodeFormat.beginFrame : EncodeFormat.Statement .beginFrame := fun _ => ⟨rfl, rfl⟩
theorem EncodeFormat.putU8 (v : Nat) : EncodeFormat.Statement (.putU8 v) := fun _ => ⟨rfl, rfl⟩
theorem EncodeFormat.putU16le (v : Nat) : EncodeFormat.Statement (.putU16le v) := fun _ => ⟨rfl, rfl⟩
theorem EncodeFormat.putCstr (str : List Byte) : EncodeFormat.Statement (.putCstr str) := fun _ => ⟨rfl, rfl⟩
theorem EncodeFormat.encode (fmt : List Byte) (args : List Arg) : EncodeFormat.Statement (.encode fmt args) := fun _ => ⟨rfl, rfl⟩
theorem EncodeFormat.flush : EncodeFormat.Statement .flush := fun _ => ⟨rfl, rfl⟩
theorem EncodeFormat.step : EncodeFormat.Statement .step := fun _ => ⟨rfl, rfl⟩
theorem EncodeFormat.isReady : EncodeFormat.Statement .isReady := fun _ => ⟨rfl, rfl⟩
theorem EncodeFormat.allocCode (cb : Option Handle) (user : Opaque) : EncodeFormat.Statement (.allocCode cb user) := fun _ => ⟨rfl, rfl⟩
theorem EncodeFormat.allocArea (r : RawRect) (cb : Option Handle) (user : Opaque) : EncodeFormat.Statement (.allocArea r cb user) := fun _ => ⟨rfl, rfl⟩
theorem EncodeFormat.free (i : Nat) : EncodeFormat.Statement (.free i) := fun _ => ⟨rfl, rfl⟩
theorem EncodeFormat.setEnabled (i e : Nat) : EncodeFormat.Statement (.setEnabled i e) := fun _ => ⟨rfl, rfl⟩
theorem EncodeFormat.setWindow (r : RawRect) : EncodeFormat.Statement (.setWindow r) := fun _ => ⟨rfl, rfl⟩
theorem EncodeFormat.clearWindow : EncodeFormat.Statement .clearWindow := fun _ => ⟨rfl, rfl⟩
theorem EncodeFormat.setHook (h : Option Handle) : EncodeFormat.Statement (.setHook h) := fun _ => ⟨rfl, rfl⟩
theorem EncodeFormat.clearHook : EncodeFormat.Statement .clearHook := fun _ => ⟨rfl, rfl⟩
theorem EncodeFormat.undefinedHostOpcode (o : Byte) (ops : List Operand) : EncodeFormat.Statement (.undefinedHostOpcode o ops) := fun _ => ⟨rfl, rfl⟩
theorem EncodeFormat.tick : EncodeFormat.Statement .tick := fun _ => ⟨rfl, rfl⟩
theorem EncodeFormat.reset : EncodeFormat.Statement .reset := fun _ => ⟨rfl, rfl⟩
theorem EncodeFormat.poll : EncodeFormat.Statement .poll := fun _ => ⟨rfl, rfl⟩
theorem EncodeFormat.lit (b : Byte) : EncodeFormat.Statement (.lit b) := fun _ => ⟨rfl, rfl⟩
theorem EncodeFormat.dirChar (arg : Option Arg) : EncodeFormat.Statement (.dirChar arg) := fun _ => ⟨rfl, rfl⟩
theorem EncodeFormat.dirWord (arg : Option Arg) : EncodeFormat.Statement (.dirWord arg) := fun _ => ⟨rfl, rfl⟩
theorem EncodeFormat.dirStr (arg : Option Arg) : EncodeFormat.Statement (.dirStr arg) := fun _ => ⟨rfl, rfl⟩
theorem EncodeFormat.dirPercent : EncodeFormat.Statement .dirPercent := fun _ => ⟨rfl, rfl⟩
theorem EncodeFormat.dirUnknown (d : Byte) : EncodeFormat.Statement (.dirUnknown d) := fun _ => ⟨rfl, rfl⟩
theorem EncodeFormat.trailingPct : EncodeFormat.Statement .trailingPct := fun _ => ⟨rfl, rfl⟩
theorem EncodeFormat.evButton (p : List Byte) : EncodeFormat.Statement (.evButton p) := fun _ => ⟨rfl, rfl⟩
theorem EncodeFormat.evTouch (p : List Byte) : EncodeFormat.Statement (.evTouch p) := fun _ => ⟨rfl, rfl⟩
theorem EncodeFormat.evUnknown (p : List Byte) : EncodeFormat.Statement (.evUnknown p) := fun _ => ⟨rfl, rfl⟩
theorem EncodeFormat.buttonCode (press : Bool) (k : BitVec 7) : EncodeFormat.Statement (.buttonCode press k) := fun _ => ⟨rfl, rfl⟩
theorem EncodeFormat.subRelease (x y : U16) : EncodeFormat.Statement (.subRelease x y) := fun _ => ⟨rfl, rfl⟩
theorem EncodeFormat.subPress (x y : U16) : EncodeFormat.Statement (.subPress x y) := fun _ => ⟨rfl, rfl⟩
theorem EncodeFormat.subRepeat : EncodeFormat.Statement .subRepeat := fun _ => ⟨rfl, rfl⟩
theorem EncodeFormat.subOther (b : Byte) : EncodeFormat.Statement (.subOther b) := fun _ => ⟨rfl, rfl⟩
theorem EncodeFormat.ctrlNoresp : EncodeFormat.Statement .ctrlNoresp := fun _ => ⟨rfl, rfl⟩
theorem EncodeFormat.ctrlResp : EncodeFormat.Statement .ctrlResp := fun _ => ⟨rfl, rfl⟩
theorem EncodeFormat.ack : EncodeFormat.Statement .ack := fun _ => ⟨rfl, rfl⟩
theorem EncodeFormat.nak (b : Byte) : EncodeFormat.Statement (.nak b) := fun _ => ⟨rfl, rfl⟩
theorem EncodeFormat.esc : EncodeFormat.Statement .esc := fun _ => ⟨rfl, rfl⟩

end Sys2Proof.Laws
end

