-- ==== Sys2Proof/Laws/Transport.lean ====
section
/-! SUPPORT. What the transport's shared operations can do: the bus-select line, one read and stored byte, and what any transport step may
write. -/

namespace Sys2Proof.Machine

theorem setCs_tick {s : State} (v : Bool) (h : s.cfg.transport = .tick) : s.setCs v = { s with cs := v } := by
  simp [State.setCs, h]

theorem setCs_blocking {s : State} (v : Bool) (h : s.cfg.transport = .blocking) : s.setCs v = s := by
  simp [State.setCs, h]

theorem overLimit_eq_false_iff (l : Option Nat) (n : Nat) : overLimit l n = false ↔ ∀ k, l = some k → n ≤ k := by
  cases l <;> simp [overLimit]

theorem overLimit_some_of_lt {k n : Nat} (h : k < n) : overLimit (some k) n = true := by simp [overLimit, h]

/-- One byte read and stored: the byte goes to `s.t_idx` if it fits, and is dropped with `s.in_ovf` set if it does not. -/
theorem rxByte_eq (s : State) (b : Byte) (e : Env) (h : drawByte s.env = (b, e)) :
    rxByte s = { s with
      inBuf := if s.tIdx < s.cfg.cIn then writeMem s.inBuf s.tIdx b else s.inBuf
      inLen := if s.tIdx < s.cfg.cIn then s.inLen + 1 else s.inLen
      inOvf := if s.tIdx < s.cfg.cIn then s.inOvf else true
      tIdx := s.tIdx + 1
      tCnt := s.tCnt - 1
      env := e
      out := { s.out with bus := s.out.bus ++ [.rx s.cfg.dummyTx b] } } := by
  simp only [rxByte, busRx, h, rxStore]
  by_cases hc : s.tIdx < s.cfg.cIn <;> simp [hc, State.logBus]

/-- The transport step of a delivered tick, with the line's value in the bus log. -/
theorem execTick_delivered {s t : State} (h : tickDelivered s = true) (e : transportStep s = .ok t) :
    execTick s = .next (t.logBus (.cs t.cs)) := by
  rw [execTick, h, transition_enabled, e]; rfl

/-- Where an ACK is given, or a retry ceiling stands, nothing is drawn. -/
theorem drawHandshakes_given {s : State} (h : s.cfg.retryLimit ≠ none ∨ s.cfg.ack ∈ s.env.rx) : drawHandshakes s = s := by
  unfold drawHandshakes
  rw [if_pos]
  rcases h with h | h
  · rw [Option.isSome_iff_ne_none.2 h]; rfl
  · simp [h]

/-- Everything drawing the handshake answers can do: the display's coming answers, and their counter. -/
theorem drawHandshakes_writes (s : State) :
    drawHandshakes s = { s with env := { s.env with rx := (drawHandshakes s).env.rx, rxCount := (drawHandshakes s).env.rxCount } } := by
  unfold drawHandshakes
  split
  · rfl
  · generalize (if s.tstate = .ready then Config.refusalsBeforeAck s.env.rxCount else none) = r
    cases r <;> rfl

/-- After the draw an ACK is among the answers, or a retry ceiling stands, or the display never acknowledges. -/
theorem drawHandshakes_ends (s : State) (h : s.tstate = .ready) :
    s.cfg.retryLimit ≠ none ∨ s.cfg.ack ∈ (drawHandshakes s).env.rx
      ∨ (s.cfg.retryLimit = none ∧ Config.refusalsBeforeAck s.env.rxCount = none) := by
  by_cases hr : s.cfg.retryLimit = none
  · by_cases ha : s.cfg.ack ∈ s.env.rx
    · rw [drawHandshakes_given (.inr ha)]; exact .inr (.inl ha)
    · cases hd : Config.refusalsBeforeAck s.env.rxCount with
      | none => exact .inr (.inr ⟨hr, rfl⟩)
      | some k => exact .inr (.inl (by simp [drawHandshakes, hr, ha, h, hd]))
  · exact .inl hr

/-- What a state holds after a transport step: only these fields may differ. -/
def TransportWrites (s t : State) : Prop :=
  t = { s with
    fault := t.fault, inBuf := t.inBuf, inLen := t.inLen, inOvf := t.inOvf, tstate := t.tstate, tIdx := t.tIdx, tCnt := t.tCnt
    tWait := t.tWait, tRetries := t.tRetries, tAck := t.tAck, cs := t.cs, tickEn := t.tickEn
    env := { s.env with rx := t.env.rx, rxCount := t.env.rxCount }
    out := { s.out with bus := t.out.bus } }

theorem TransportWrites.trans {a b c : State} (h : TransportWrites a b) (g : TransportWrites b c) : TransportWrites a c := by
  unfold TransportWrites at *
  rw [g, h]

/-- A property of the state a part ends in, if it does not stop. -/
def Res.ends (P : State → Prop) : Res → Prop
  | .ok t => P t
  | .wait t => P t
  | .raised t => P t
  | .stop _ => True

theorem transportWrites_setCs (v : Bool) (s : State) : TransportWrites s (s.setCs v) := by
  unfold State.setCs
  split <;> rfl

theorem transportWrites_busRx (s : State) : TransportWrites s (busRx s).2 := by
  have h : ∀ e : Env, (drawByte e).2 = { e with rx := (drawByte e).2.rx, rxCount := (drawByte e).2.rxCount } := by
    intro e
    unfold drawByte
    split <;> rfl
  unfold TransportWrites busRx
  simp only [State.logBus]
  rw [← h]

theorem transportWrites_rxByte (s : State) : TransportWrites s (rxByte s) := by
  have e : rxByte s = { rxStore (busRx s).1 (busRx s).2 with tCnt := s.tCnt - 1 } := rfl
  rw [e]
  unfold rxStore
  refine (transportWrites_busRx s).trans ?_
  split <;> rfl

/-- A transport step writes nothing but the transport, the inbound buffer, the bus log and the display's answers, and `s.fault` at the retry
ceiling. -/
theorem transportStep_writes (s : State) : (transportStep s).ends (TransportWrites s) := by
  unfold transportStep
  split
  · unfold tickStart
    split
    · exact (transportWrites_setCs true s).trans rfl
    · trivial
  · unfold tickSend
    split
    · split
      · exact rfl
      · trivial
    · exact (transportWrites_setCs false s).trans rfl
  · unfold tickWait
    split
    · exact rfl
    · exact ((transportWrites_setCs true s).trans (transportWrites_busRx _)).trans rfl
  · unfold tickReceiveAck
    split
    · exact rfl
    · unfold handshakeNak
      simp only
      split
      · unfold raise
        split <;> exact (transportWrites_setCs false s).trans rfl
      · exact (transportWrites_setCs false s).trans rfl
  · exact (transportWrites_setCs true s).trans rfl
  · unfold tickReceiveHeader
    simp only
    split
    · split
      · exact (transportWrites_rxByte s).trans rfl
      · trivial
    · exact transportWrites_rxByte s
  · unfold tickReceivePayload
    simp only
    split
    · exact (transportWrites_rxByte s).trans rfl
    · exact transportWrites_rxByte s
  · exact (transportWrites_setCs false s).trans rfl

/-- The same of a blocking transfer that ends. -/
theorem runTransfer_writes (n : Nat) : ∀ s t : State, runTransfer n s = .ok t → TransportWrites s t := by
  induction n with
  | zero =>
    intro s t h
    unfold runTransfer at h
    split at h <;> cases h
    rfl
  | succ n ih =>
    intro s t h
    by_cases hr : s.tstate = .ready
    · rw [runTransfer_ready _ _ hr] at h
      cases h
      rfl
    · rw [runTransfer_succ _ _ hr] at h
      have hw := transportStep_writes s
      cases hx : transportStep s <;> rw [hx] at h hw <;>
        simp only [andThen_ok, andThen_wait, andThen_raised, andThen_stop] at h
      · exact TransportWrites.trans hw (ih _ _ h)
      all_goals cases h

end Sys2Proof.Machine
end

