-- ==== Sys2Proof/Laws/Transfer.lean ====
section
/-! SUPPORT. What a whole blocking transfer can do (42_transport.md R142): one attempt, the attempts up to an ACK or up to the retry ceiling,
and that a transfer ends unless the display never acknowledges. -/

namespace Sys2Proof.Machine

/-! ## The attempts of a transmit -/

theorem readRange_cons {m : Memory} {a n : Nat} {b : Byte} {rest : List Byte} (h : readRange m a (n + 1) = some (b :: rest)) :
    readMem m a = some b ∧ readRange m (a + 1) n = some rest := by
  simp only [readRange] at h
  split at h
  · cases h
    exact ⟨by assumption, by assumption⟩
  · cases h

/-- The ticks of `T_SEND` stream the bytes of the frame. -/
theorem runTransfer_send (l : List Byte) : ∀ (s : State) (m : Nat), s.tstate = .send → s.tCnt = l.length →
    readRange s.outBuf s.tIdx l.length = some l →
    runTransfer (l.length + m) s
      = runTransfer m { s with tIdx := s.tIdx + l.length, tCnt := 0, out := { s.out with bus := s.out.bus ++ l.map .tx } } := by
  induction l with
  | nil =>
    intro s m _ h _
    have h : s.tCnt = 0 := h
    simp only [List.length_nil, Nat.zero_add, Nat.add_zero, List.map_nil, List.append_nil]
    rw [← h]
  | cons b r ih =>
    intro s m hs hc hr
    simp only [List.length_cons] at hc hr
    obtain ⟨h1, h2⟩ := readRange_cons hr
    rw [List.length_cons, show r.length + 1 + m = (r.length + m) + 1 by omega, runTransfer_succ _ _ (by rw [hs]; decide)]
    have e : transportStep s = .ok { busTx b s with tIdx := s.tIdx + 1, tCnt := s.tCnt - 1 } := by
      simp only [transportStep, hs, tickSend, outRead, h1]
      rw [if_pos (by omega)]
    rw [e, andThen_ok, ih _ _ (by exact hs) (by simp [hc]) (by exact h2)]
    simp [State.logBus, Nat.add_assoc, Nat.add_comm 1]

/-- The settle ticks count down. -/
theorem runTransfer_wait (w : Nat) : ∀ (s : State) (m : Nat), s.tstate = .wait → s.tWait = w →
    runTransfer (w + m) s = runTransfer m { s with tWait := 0 } := by
  induction w with
  | zero => intro s m _ h; rw [Nat.zero_add, ← h]
  | succ w ih =>
    intro s m hs hw
    rw [show w + 1 + m = (w + m) + 1 by omega, runTransfer_succ _ _ (by rw [hs]; decide)]
    have e : transportStep s = .ok { s with tWait := s.tWait - 1 } := by
      simp only [transportStep, hs, tickWait]
      rw [if_pos (by omega)]
    rw [e, andThen_ok, ih _ _ (by exact hs) (by simp [hw])]

/-- One attempt, up to the decision of its handshake byte. -/
theorem runTransfer_attempt {s : State} {n b : Byte} {frame : List Byte} {e : Env} (m : Nat) (hb : s.cfg.transport = .blocking)
    (hs : s.tstate = .start) (h1 : outRead s 1 = some n) (hf : readRange s.outBuf 0 (n.toNat + 3) = some frame)
    (hd : drawByte s.env = (b, e)) :
    runTransfer (n.toNat + 6 + s.cfg.waitTicks + m) s = runTransfer m { s with
      tstate := .receiveAck
      tIdx := n.toNat + 3
      tCnt := 0
      tWait := 0
      tAck := b
      env := e
      out := { s.out with bus := s.out.bus ++ attemptBus frame s.cfg.dummyTx b } } := by
  have hl : frame.length = n.toNat + 3 := readRange_length hf
  rw [show n.toNat + 6 + s.cfg.waitTicks + m = (frame.length + (1 + (s.cfg.waitTicks + (1 + m)))) + 1 by omega,
    runTransfer_succ _ _ (by rw [hs]; decide)]
  have e1 : transportStep s = .ok { s with tIdx := 0, tCnt := n.toNat + 3, tstate := .send } := by
    simp [transportStep, hs, tickStart, h1, setCs_blocking _ hb]
  rw [e1, andThen_ok, runTransfer_send frame _ _ rfl (by exact hl.symm) (by rw [hl]; exact hf),
    show 1 + (s.cfg.waitTicks + (1 + m)) = (s.cfg.waitTicks + (1 + m)) + 1 by omega, runTransfer_succ _ _ (by simp)]
  simp only [transportStep, tickSend, Nat.lt_irrefl, if_false]
  rw [andThen_ok, runTransfer_wait s.cfg.waitTicks _ _ rfl rfl, show 1 + m = m + 1 by omega, runTransfer_succ _ _ (by simp)]
  simp only [transportStep, tickWait, Nat.lt_irrefl, if_false]
  rw [setCs_blocking false (by exact hb), setCs_blocking true (by exact hb)]
  simp only [busRx, hd, andThen_ok, State.logBus, attemptBus, hl, Nat.zero_add]
  simp

/-- Refused attempts, up to the start of the next one. -/
theorem runTransfer_refused (l : List Byte) :
    ∀ (s : State) (n : Byte) (frame rest : List Byte) (m w : Nat), s.cfg.waitTicks = w →
    s.cfg.transport = .blocking → s.tstate = .start → outRead s 1 = some n → readRange s.outBuf 0 (n.toNat + 3) = some frame →
    s.env.rx = l ++ rest → (∀ b ∈ l, b ≠ s.cfg.ack) → (∀ k, s.cfg.retryLimit = some k → s.tRetries + l.length ≤ k) → l ≠ [] →
    runTransfer (l.length * (n.toNat + 7 + w) + m) s = runTransfer m { s with
      tIdx := n.toNat + 3
      tCnt := 0
      tWait := 0
      tAck := l.getLastD 0
      tRetries := s.tRetries + l.length
      env := { s.env with rx := rest }
      out := { s.out with bus := s.out.bus ++ l.flatMap (attemptBus frame s.cfg.dummyTx) } } := by
  induction l with
  | nil => intro s n frame rest m w _ _ _ _ _ _ _ _ h; exact absurd rfl h
  | cons b r ih =>
    intro s n frame rest m w hw hb hs h1 hf hx hne hk _
    subst hw
    rw [List.length_cons, show (r.length + 1) * (n.toNat + 7 + s.cfg.waitTicks) + m
        = n.toNat + 6 + s.cfg.waitTicks + ((r.length * (n.toNat + 7 + s.cfg.waitTicks) + m) + 1) by rw [Nat.add_mul]; omega,
      runTransfer_attempt (b := b) (e := { s.env with rx := r ++ rest }) _ hb hs h1 hf (by simp [drawByte, hx]), runTransfer_succ _ _ (by simp)]
    have h2 : b ≠ s.cfg.ack := hne b (by simp)
    simp only [List.length_cons] at hk
    have h3 := (overLimit_eq_false_iff s.cfg.retryLimit (s.tRetries + 1)).2 fun k hk' => by have := hk k hk'; omega
    simp only [transportStep, tickReceiveAck, h2, if_false, handshakeNak, h3]
    rw [setCs_blocking false (by exact hb)]
    simp only [andThen_ok, Bool.false_eq_true, if_false]
    by_cases hr : r = []
    · subst hr
      simp [hs]
    · rw [ih _ n frame rest m _ (by rfl) (by exact hb) (by rfl) (by exact h1) (by exact hf) (by rfl)
        (by exact fun c hc => hne c (by simp [hc]))
        (by intro k hk'; have := hk k hk'; show s.tRetries + 1 + _ ≤ k; omega) hr]
      have e : (b :: r).getLastD 0 = r.getLastD 0 := by cases r <;> simp_all
      rw [e]
      simp [hs, Nat.add_assoc, Nat.add_comm 1]

/-- Attempts up to the one the display acknowledges. -/
theorem runTransfer_acknowledged {l : List Byte} {s : State} {n : Byte} {frame rest : List Byte} {m : Nat} (hb : s.cfg.transport = .blocking)
    (hs : s.tstate = .start) (h1 : outRead s 1 = some n) (hf : readRange s.outBuf 0 (n.toNat + 3) = some frame)
    (hx : s.env.rx = l ++ s.cfg.ack :: rest) (hne : ∀ b ∈ l, b ≠ s.cfg.ack)
    (hk : ∀ k, s.cfg.retryLimit = some k → s.tRetries + l.length ≤ k) (hm : (l.length + 1) * (n.toNat + 7 + s.cfg.waitTicks) ≤ m) :
    runTransfer m s = .ok { s with
      tstate := .ready
      tIdx := n.toNat + 3
      tCnt := 0
      tWait := 0
      tAck := s.cfg.ack
      tRetries := s.tRetries + l.length
      env := { s.env with rx := rest }
      out := { s.out with bus := s.out.bus ++ (l ++ [s.cfg.ack]).flatMap (attemptBus frame s.cfg.dummyTx) } } := by
  have last : ∀ (u : State) (m : Nat), u.cfg = s.cfg → u.tstate = .start → u.outBuf = s.outBuf → u.env.rx = s.cfg.ack :: rest →
      n.toNat + 7 + s.cfg.waitTicks ≤ m → runTransfer m u = .ok { u with
        tstate := .ready
        tIdx := n.toNat + 3
        tCnt := 0
        tWait := 0
        tAck := s.cfg.ack
        env := { u.env with rx := rest }
        out := { u.out with bus := u.out.bus ++ attemptBus frame s.cfg.dummyTx s.cfg.ack } } := by
    intro u m hc ht ho hx hm
    rw [show m = n.toNat + 6 + u.cfg.waitTicks + ((m - (n.toNat + 7 + s.cfg.waitTicks)) + 1) by rw [hc]; omega,
      runTransfer_attempt (b := s.cfg.ack) (e := { u.env with rx := rest }) _ (by rw [hc]; exact hb) ht
        (by rw [outRead, ho]; exact h1) (by rw [ho]; exact hf) (by simp only [drawByte, hx]), runTransfer_succ _ _ (by simp)]
    simp only [transportStep, tickReceiveAck, hc, if_true, handshakeAck, andThen_ok]
    rw [runTransfer_ready _ _ rfl]
  by_cases hl : l = []
  · subst hl
    rw [last s m rfl hs rfl (by simpa using hx) (by simpa using hm)]
    simp
  · rw [Nat.add_mul] at hm
    rw [show m = l.length * (n.toNat + 7 + s.cfg.waitTicks) + (m - l.length * (n.toNat + 7 + s.cfg.waitTicks)) by omega,
      runTransfer_refused l s n frame (s.cfg.ack :: rest) _ _ rfl hb hs h1 hf hx hne hk hl,
      last _ _ (by rfl) (by exact hs) (by rfl) (by rfl) (by omega)]
    simp

/-- A blocking transmit that the display acknowledges, after some refusals that the retry ceiling allows. -/
theorem transmit_acknowledged {l : List Byte} {s : State} {n : Byte} {frame rest : List Byte} (hb : s.cfg.transport = .blocking)
    (ht : s.tstate = .ready) (h1 : outRead s 1 = some n) (hf : readRange s.outBuf 0 (n.toNat + 3) = some frame)
    (hx : s.env.rx = l ++ s.cfg.ack :: rest) (hne : ∀ b ∈ l, b ≠ s.cfg.ack) (hk : ∀ k, s.cfg.retryLimit = some k → l.length ≤ k) :
    transmit s = .ok { s with
      tIdx := n.toNat + 3
      tCnt := 0
      tWait := 0
      tAck := s.cfg.ack
      tRetries := l.length
      env := { s.env with rx := rest }
      out := { s.out with bus := s.out.bus ++ (l ++ [s.cfg.ack]).flatMap (attemptBus frame s.cfg.dummyTx) } } := by
  unfold transmit
  rw [hb]
  simp only
  rw [drawHandshakes_given (.inr (by simp [hx])), if_pos ht, runTransfer_acknowledged (l := l) (frame := frame) (rest := rest)
    (by exact hb) rfl (by exact h1) (by exact hf) (by exact hx) (by exact hne) (by intro k hk'; have := hk k hk'; simpa using this)]
  · simp [ht]
  · simp only [attemptTicks, h1, Option.getD_some]
    refine Nat.mul_le_mul ?_ (Nat.le_refl _)
    unfold attempts
    split
    · rename_i k hk'
      have := hk k hk'
      omega
    · simp [hx]

/-- A blocking transmit whose refusals pass the retry ceiling. -/
theorem transmit_refused {l : List Byte} {s : State} {n b : Byte} {frame rest : List Byte} {k : Nat} (hr : s.fault = .none)
    (hb : s.cfg.transport = .blocking) (ht : s.tstate = .ready) (h1 : outRead s 1 = some n)
    (hf : readRange s.outBuf 0 (n.toNat + 3) = some frame) (hx : s.env.rx = l ++ b :: rest) (hne : ∀ c ∈ l, c ≠ s.cfg.ack)
    (hn : b ≠ s.cfg.ack) (hk : s.cfg.retryLimit = some k) (hl : l.length = k) :
    transmit s = .raised { s with
      fault := .retryLimit
      tstate := .receiveAck
      tIdx := n.toNat + 3
      tCnt := 0
      tWait := 0
      tAck := b
      tRetries := k + 1
      env := { s.env with rx := rest }
      out := { s.out with bus := s.out.bus ++ (l ++ [b]).flatMap (attemptBus frame s.cfg.dummyTx) } } := by
  have last : ∀ (u : State) (m : Nat), u.cfg = s.cfg → u.fault = .none → u.tstate = .start → u.outBuf = s.outBuf →
      u.env.rx = b :: rest → u.tRetries = k → n.toNat + 7 + s.cfg.waitTicks ≤ m → runTransfer m u = .raised { u with
        tstate := .receiveAck
        tIdx := n.toNat + 3
        tCnt := 0
        tWait := 0
        tAck := b
        tRetries := k + 1
        fault := .retryLimit
        env := { u.env with rx := rest }
        out := { u.out with bus := u.out.bus ++ attemptBus frame s.cfg.dummyTx b } } := by
    intro u m hc hr ht ho hx hk' hm
    rw [show m = n.toNat + 6 + u.cfg.waitTicks + ((m - (n.toNat + 7 + s.cfg.waitTicks)) + 1) by rw [hc]; omega,
      runTransfer_attempt (b := b) (e := { u.env with rx := rest }) _ (by rw [hc]; exact hb) ht
        (by rw [outRead, ho]; exact h1) (by rw [ho]; exact hf) (by simp only [drawByte, hx]), runTransfer_succ _ _ (by simp)]
    simp only [transportStep, tickReceiveAck, hc, hn, if_false, handshakeNak, hk, hk']
    rw [setCs_blocking false (by simp [hb]), overLimit_some_of_lt (Nat.lt_succ_self k)]
    simp [raise, hr]
  unfold transmit
  rw [hb]
  simp only
  rw [drawHandshakes_given (.inl (by simp [hk])), if_pos ht]
  rw [show attempts s * attemptTicks s = l.length * (n.toNat + 7 + s.cfg.waitTicks) + (n.toNat + 7 + s.cfg.waitTicks) by
    simp [attempts, hk, attemptTicks, h1, hl, Nat.add_mul]]
  by_cases hl0 : l = []
  · subst hl0
    rw [last _ _ (by rfl) (by exact hr) (by rfl) (by rfl) (by exact hx) (by simpa using hl) (by simp)]
    simp
  · rw [runTransfer_refused l { s with tstate := .start, tRetries := 0 } n frame (b :: rest) _ _ (by rfl) (by exact hb) rfl (by exact h1)
      (by exact hf) (by exact hx) hne (fun j hj => by rw [show s.cfg.retryLimit = some j from hj] at hk; cases hk; simp [hl]) hl0,
      last _ _ (by rfl) (by exact hr) (by rfl) (by rfl) (by rfl) (by simpa using hl) (by simp)]
    simp

/-! ## A transfer ends -/

/-- The ticks of `T_SEND` read an unwritten byte, or come to their end. -/
theorem runTransfer_send_ends (c : Nat) : ∀ (s : State) (m : Nat), s.tstate = .send → s.tCnt = c →
    (∃ f, runTransfer (c + m) s = .stop f)
      ∨ ∃ u, runTransfer (c + m) s = runTransfer m u ∧ u.tstate = .send ∧ u.tCnt = 0 ∧ u.env = s.env
        ∧ u.cfg = s.cfg ∧ u.outBuf = s.outBuf ∧ u.tRetries = s.tRetries := by
  induction c with
  | zero => intro s m hs hc; exact .inr ⟨s, by rw [Nat.zero_add], hs, hc, rfl, rfl, rfl, rfl⟩
  | succ c ih =>
    intro s m hs hc
    rw [show c + 1 + m = (c + m) + 1 by omega, runTransfer_succ _ _ (by rw [hs]; decide)]
    simp only [transportStep, hs, tickSend]
    rw [if_pos (by omega)]
    cases ho : outRead s s.tIdx with
    | none => exact .inl ⟨_, rfl⟩
    | some b =>
      simp only [andThen_ok]
      exact ih { busTx b s with tIdx := s.tIdx + 1, tCnt := s.tCnt - 1 } m (by exact hs) (by show s.tCnt - 1 = c; omega)

/-- One attempt reads an unwritten byte, or comes to the decision of its handshake byte. -/
theorem runTransfer_attempt_ends {s : State} (m : Nat) (hb : s.cfg.transport = .blocking) (hs : s.tstate = .start) :
    (∃ f, runTransfer (attemptTicks s + m) s = .stop f)
      ∨ ∃ u, runTransfer (attemptTicks s + m) s = runTransfer (m + 1) u ∧ u.tstate = .receiveAck ∧ u.tAck = (drawByte s.env).1
        ∧ u.env = (drawByte s.env).2 ∧ u.cfg = s.cfg ∧ u.outBuf = s.outBuf ∧ u.tRetries = s.tRetries := by
  unfold attemptTicks
  cases h1 : outRead s 1 with
  | none =>
    refine .inl ⟨.unwrittenOut, ?_⟩
    rw [show (Option.getD (none : Option Byte) 0).toNat + 7 + s.cfg.waitTicks + m = (6 + s.cfg.waitTicks + m) + 1 by simp; omega,
      runTransfer_succ _ _ (by rw [hs]; decide)]
    simp [transportStep, hs, tickStart, h1]
  | some n =>
    rw [show (Option.getD (some n) 0).toNat + 7 + s.cfg.waitTicks + m
        = (n.toNat + 3 + (1 + (s.cfg.waitTicks + (1 + (m + 1))))) + 1 by simp; omega, runTransfer_succ _ _ (by rw [hs]; decide)]
    simp only [transportStep, hs, tickStart, h1, andThen_ok]
    rw [setCs_blocking _ (by exact hb)]
    rcases runTransfer_send_ends (n.toNat + 3) { s with tIdx := 0, tCnt := n.toNat + 3, tstate := .send }
      (1 + (s.cfg.waitTicks + (1 + (m + 1)))) rfl rfl with h | ⟨u, h2, h3, h4, h5, h6, h7, h8⟩
    · exact .inl h
    · have hc : u.cfg = s.cfg := h6
      have he : u.env = s.env := h5
      rw [h2, show 1 + (s.cfg.waitTicks + (1 + (m + 1))) = (s.cfg.waitTicks + (1 + (m + 1))) + 1 by omega,
        runTransfer_succ _ _ (by rw [h3]; decide)]
      simp only [transportStep, h3, tickSend, h4, Nat.lt_irrefl, if_false, andThen_ok]
      rw [setCs_blocking _ (by rw [hc]; exact hb), runTransfer_wait s.cfg.waitTicks _ _ (by rfl) (by show u.cfg.waitTicks = _; rw [hc]),
        show 1 + (m + 1) = (m + 1) + 1 by omega, runTransfer_succ _ _ (by simp)]
      simp only [transportStep, tickWait, Nat.lt_irrefl, if_false]
      rw [setCs_blocking _ (by show u.cfg.transport = _; rw [hc]; exact hb)]
      simp only [busRx, andThen_ok]
      exact .inr ⟨_, rfl, rfl, by simp [he], by simp [State.logBus, he], hc, h7, h8⟩

/-- At most `n` attempts decide a transmit: the retry ceiling is passed within them, or an ACK is among the answers. -/
def DecidedWithin (n : Nat) (s : State) : Prop :=
  (∃ k, s.cfg.retryLimit = some k ∧ s.tRetries ≤ k ∧ k + 1 ≤ s.tRetries + n)
    ∨ ∃ l rest, s.env.rx = l ++ s.cfg.ack :: rest ∧ l.length + 1 ≤ n

/-- Attempts that decide a transmit do not leave it waiting. -/
theorem runTransfer_decided (n : Nat) : ∀ s : State, s.cfg.transport = .blocking → s.tstate = .start → DecidedWithin n s →
    ∀ t, runTransfer (n * attemptTicks s) s ≠ .wait t := by
  induction n with
  | zero => intro s _ _ h; rcases h with ⟨k, _, _, _⟩ | ⟨l, rest, _, _⟩ <;> omega
  | succ n ih =>
    intro s hb hs h
    rw [Nat.succ_mul, Nat.add_comm]
    rcases runTransfer_attempt_ends (n * attemptTicks s) hb hs with ⟨f, e⟩ | ⟨u, h1, h2, h3, h4, h5, h6, h7⟩
    · rw [e]
      exact fun t e => nomatch e
    · rw [h1, runTransfer_succ _ _ (by rw [h2]; decide)]
      simp only [transportStep, h2, tickReceiveAck]
      split
      · simp only [handshakeAck, andThen_ok]
        rw [runTransfer_ready _ _ rfl]
        exact fun t e => nomatch e
      · rename_i hn
        simp only [handshakeNak]
        rw [setCs_blocking _ (by rw [h5]; exact hb)]
        split
        · unfold raise
          exact fun t e => nomatch e
        · rename_i ho
          simp only [andThen_ok]
          have ha : attemptTicks ({ u with tRetries := u.tRetries + 1, tstate := .start } : State) = attemptTicks s := by
            simp [attemptTicks, outRead, h6, h5]
          rw [← ha]
          refine ih _ (by show u.cfg.transport = _; rw [h5]; exact hb) rfl ?_
          rcases h with ⟨k, e1, e2, e3⟩ | ⟨l, rest, e1, e2⟩
          · refine .inl ⟨k, by show u.cfg.retryLimit = _; rw [h5]; exact e1, ?_, ?_⟩
            · simp [overLimit, h5, e1] at ho
              exact ho
            · show k + 1 ≤ u.tRetries + 1 + n
              rw [h7]
              omega
          · cases l with
            | nil => exact absurd (by rw [h3, h5]; simp [drawByte, e1]) hn
            | cons b r =>
              refine .inr ⟨r, rest, ?_, by simpa using e2⟩
              show u.env.rx = r ++ u.cfg.ack :: rest
              rw [h4, h5]
              simp [drawByte, e1]

/-- A blocking transmit waits only where no retry ceiling stands and the display never acknowledges (R199; log 15). -/
theorem transmit_waits {s t : State} (hb : s.cfg.transport = .blocking) (ht : s.tstate = .ready) (h : transmit s = .wait t) :
    s.cfg.retryLimit = none ∧ Config.refusalsBeforeAck s.env.rxCount = none := by
  unfold transmit at h
  rw [hb] at h
  simp only [if_pos ht] at h
  have hw := drawHandshakes_writes s
  have he := drawHandshakes_ends s ht
  generalize drawHandshakes s = v at h hw he
  have hc : v.cfg = s.cfg := by rw [hw]
  have run : ¬ DecidedWithin (attempts v) { v with tstate := .start, tRetries := 0 } := fun hd =>
    runTransfer_decided (attempts v) { v with tstate := .start, tRetries := 0 } (by show v.cfg.transport = _; rw [hc]; exact hb) rfl hd t h
  by_cases hr : s.cfg.retryLimit = none
  · rcases he with he | he | he
    · exact absurd hr he
    · obtain ⟨a, b, hab⟩ := List.append_of_mem he
      exact absurd (.inr ⟨a, b, by show v.env.rx = a ++ v.cfg.ack :: b; rw [hc]; exact hab, by simp [attempts, hc, hr, hab]⟩) run
    · exact he
  · obtain ⟨k, hk⟩ := Option.ne_none_iff_exists'.1 hr
    exact absurd (.inl ⟨k, by show v.cfg.retryLimit = _; rw [hc]; exact hk, Nat.zero_le _, by simp [attempts, hc, hk]⟩) run

theorem rxByte_count (s : State) : (rxByte s).tCnt = s.tCnt - 1 ∧ (rxByte s).tstate = s.tstate := by
  rw [rxByte_eq s _ _ rfl]
  exact ⟨rfl, rfl⟩

/-- The ticks of `T_RECEIVE_PAYLOAD` come to their end. -/
theorem runTransfer_payload_ends (c : Nat) : ∀ (s : State) (m : Nat), s.tstate = .receivePayload → s.tCnt = c + 1 →
    ∀ t, runTransfer (c + 1 + m) s ≠ .wait t := by
  induction c with
  | zero =>
    intro s m hs hc
    rw [show 0 + 1 + m = m + 1 by omega, runTransfer_succ _ _ (by rw [hs]; decide)]
    simp only [transportStep, hs, tickReceivePayload, (rxByte_count s).1, hc, Nat.add_sub_cancel, if_true, andThen_ok]
    rw [runTransfer_ready _ _ rfl]
    exact fun t e => nomatch e
  | succ c ih =>
    intro s m hs hc
    rw [show c + 1 + 1 + m = (c + 1 + m) + 1 by omega, runTransfer_succ _ _ (by rw [hs]; decide)]
    simp only [transportStep, hs, tickReceivePayload, (rxByte_count s).1, hc]
    rw [if_neg (by omega), andThen_ok]
    exact ih _ m ((rxByte_count s).2.trans hs) ((rxByte_count s).1.trans (by omega))

/-- The ticks of a receive come to their end (R139). -/
theorem runTransfer_receive_ends {k : Nat} (hk : 256 ≤ k) {s : State} (hs : s.tstate = .receive) :
    ∀ t, runTransfer (k + 1 + 1 + 1) s ≠ .wait t := by
  rw [runTransfer_succ _ _ (by rw [hs]; decide)]
  simp only [transportStep, hs, tickReceive, andThen_ok]
  generalize hu : ({ s.setCs true with tIdx := 0, tCnt := 2, tstate := .receiveHeader } : State) = u
  have u1 : u.tstate = .receiveHeader := by rw [← hu]
  have u2 : u.tCnt = 2 := by rw [← hu]
  rw [runTransfer_succ _ _ (by rw [u1]; decide)]
  simp only [transportStep, u1, tickReceiveHeader, (rxByte_count _).1, u2]
  rw [if_neg (by decide), andThen_ok]
  generalize hv : rxByte u = v
  have v1 : v.tstate = .receiveHeader := by rw [← hv, (rxByte_count _).2, u1]
  have v2 : v.tCnt = 1 := by rw [← hv, (rxByte_count _).1, u2]
  rw [runTransfer_succ _ _ (by rw [v1]; decide)]
  simp only [transportStep, v1, tickReceiveHeader, (rxByte_count _).1, v2]
  rw [if_pos (by decide)]
  split
  · rename_i n _
    simp only [andThen_ok]
    have := n.isLt
    rw [show k = n.toNat + 1 + (k - (n.toNat + 1)) by omega]
    exact runTransfer_payload_ends n.toNat _ _ rfl rfl
  · exact fun t e => nomatch e

/-- A blocking receive does not wait. -/
theorem receive_ends {s : State} (hb : s.cfg.transport = .blocking) (ht : s.tstate = .ready) : ∀ t, receive s ≠ .wait t := by
  unfold receive
  rw [hb]
  simp only [if_pos ht]
  obtain ⟨k, hk, hr⟩ : ∃ k, 256 ≤ k ∧ receiveTicks = k + 1 + 1 + 1 := ⟨256, Nat.le_refl _, rfl⟩
  rw [hr]
  exact runTransfer_receive_ends hk rfl

end Sys2Proof.Machine
end

