-- ==== Sys2Proof/Tests/Slice0.lean ====
section
/-! SUPPORT. The model's own tests: the operand checks, one written-out word per constructor, one step on small states, and a witness for every
statement that has hypotheses. Expected values are from spec/95_test_vectors.md (named by V-…) or worked out from the rule named. -/

namespace Sys2Proof.Tests

open Sys2Proof.Machine

/-! ## Small states -/

/-- R7's test configuration T0. -/
def t0 : Cfg := { toRawCfg := OpenCfg.t0.raw, ok := by decide }

/-- T0 in the `Tick` variant. -/
def t0Tick : Cfg := { toRawCfg := { OpenCfg.t0.raw with transport := .tick }, ok := by decide }

/-- T0 with `RETRY_LIMIT = 1`. -/
def t0Retry : Cfg := { toRawCfg := { OpenCfg.t0.raw with retryLimit := some 1 }, ok := by decide }

/-- T0 in the `Tick` variant with `RETRY_LIMIT = 1`. -/
def t0RetryTick : Cfg := { toRawCfg := { OpenCfg.t0.raw with transport := .tick, retryLimit := some 1 }, ok := by decide }

/-- T0 with a poll payload of one byte. -/
def t0Poll : Cfg := { toRawCfg := { OpenCfg.t0.raw with pollPayload := [0x01] }, ok := by decide }

/-- After reset and a successful SETUP. -/
def attached (c : Cfg) : State := { State.resetOf c with attached := true }

/-- One byte 0x41 staged. -/
def staged1 (c : Cfg) : State := { attached c with outLen := 1, outSum := 0x41, outBuf := [(2, 0x41)] }

/-- `n` bytes counted as staged. -/
def filled (n : Nat) : State := { attached t0 with outLen := n }

/-- Delivered ticks in transport state `ts`. -/
def ticking (c : Cfg) (ts : TransportState) : State := { attached c with tickEn := true, tstate := ts, state := .reset }

/-- Slot 0 holds code widget 4 and slot 15 the area (50, 10, 100, 100) of widget 9; hook 3. -/
def widgets : State :=
  { attached t0 with
    slots := { cb := some 4, user := some 2, rect := Rect.zero, enabled := true }
      :: List.replicate 14 Slot.empty ++ [{ cb := some 9, user := none, rect := ⟨50, 10, 100, 100⟩, enabled := true }]
    hook := some 3 }

/-- The same in EVENT. -/
def eventing : State := { widgets with state := .event }

/-- A frame with control byte 0x11, declared length 2, payload 0x41 0x81 and a trailer, stored in EVENT. -/
def received (trailer : Byte) : State :=
  { eventing with inBuf := [(0, 0x11), (1, 2), (2, 0x41), (3, 0x81), (4, trailer)], inLen := 5 }

/-- The frame 0x11, 1, 0x41, 0x53 armed and still to send. -/
def sending (c : Cfg) (nx : NextState) : State :=
  { staged1 c with outBuf := [(0, 0x11), (1, 1), (2, 0x41), (3, 0x53)], state := .transmit, nextState := nx }

/-- The display's next answers. -/
def answering (l : List Byte) (s : State) : State := { s with env := { s.env with rx := l } }

/-- The host's port and the next turns. -/
def scheduled (turns : List Turn) (port : List Record) (s : State) : State :=
  { s with env := { s.env with turns := turns, port := port } }

/-- The outcome is a next state with the property. -/
def next (o : Host.Outcome State Fault Refusal) (p : State → Bool) : Bool :=
  match o with
  | .next t => p t
  | .fault _ => false
  | .refused _ => false

/-- The last result delivered. -/
def result (s : State) : Option Result := s.out.results.getLast?

/-! ## The operand checks -/

theorem test_wf_putU8 : (Instr.putU8 256).wf t0 = false := by decide
theorem test_wf_putU16le : (Instr.putU16le 65536).wf t0 = false := by decide
theorem test_wf_allocCode : (Instr.allocCode none none).wf t0 = false := by decide
theorem test_wf_allocArea_handle : (Instr.allocArea ⟨0, 0, 0, 0⟩ none none).wf t0 = false := by decide
theorem test_wf_allocArea_rect : (Instr.allocArea ⟨0, 65536, 0, 0⟩ (some 1) none).wf t0 = false := by decide
theorem test_wf_setEnabled : (Instr.setEnabled 0 2).wf t0 = false := by decide
theorem test_wf_setWindow_x : (Instr.setWindow ⟨65536, 0, 0, 0⟩).wf t0 = false := by decide
theorem test_wf_setWindow_h : (Instr.setWindow ⟨0, 0, 0, 65536⟩).wf t0 = false := by decide
theorem test_wf_setWindow_w : (Instr.setWindow ⟨0, 0, 65536, 0⟩).wf t0 = false := by decide
theorem test_wf_setHook : (Instr.setHook none).wf t0 = false := by decide
theorem test_wf_undefined : (Instr.undefinedHostOpcode 0x12 [.nat 3]).wf t0 = false := by decide
theorem test_wf_lit_zero : (Instr.lit 0).wf t0 = false := by decide
theorem test_wf_lit_percent : (Instr.lit 0x25).wf t0 = false := by decide
theorem test_wf_dirUnknown_listed : (Instr.dirUnknown 0x44).wf t0 = false := by decide
theorem test_wf_dirUnknown_zero : (Instr.dirUnknown 0).wf t0 = false := by decide
theorem test_wf_evButton_empty : (Instr.evButton []).wf t0 = false := by decide
theorem test_wf_evButton_long (p : List Byte) (h : p.length = 256) : (Instr.evButton p).wf t0 = false := by simp [Instr.wf, payloadWf, h]
theorem test_wf_evButton_type : (Instr.evButton [0x48]).wf t0 = false := by decide
theorem test_wf_evTouch_type : (Instr.evTouch [0x41]).wf t0 = false := by decide
theorem test_wf_evUnknown_button : (Instr.evUnknown [0x41]).wf t0 = false := by decide
theorem test_wf_evUnknown_touch : (Instr.evUnknown [0x48]).wf t0 = false := by decide
theorem test_wf_subOther : (Instr.subOther 2).wf t0 = false := by decide
theorem test_wf_nak : (Instr.nak 0x06).wf t0 = false := by decide

/-! ## One word per constructor, from R65, R71 to R78 and T0's bytes -/

/-- A host operation record. -/
def host (o : Byte) (ops : List Operand) : Record := { format := .hostop, bytes := [o], operands := ops }

/-- Bytes of a format without operands. -/
def bytes (f : Format) (l : List Byte) : Record := { format := f, bytes := l, operands := [] }

theorem test_decode_setup : decode t0 (host 0x00 []) = .ok .setup := by decide
theorem test_decode_beginFrame : decode t0 (host 0x01 []) = .ok .beginFrame := by decide
theorem test_decode_putU8 : decode t0 (host 0x02 [.nat 7]) = .ok (.putU8 7) := by decide
theorem test_decode_putU16le : decode t0 (host 0x03 [.nat 300]) = .ok (.putU16le 300) := by decide
theorem test_decode_putCstr : decode t0 (host 0x04 [.bytes [0x41]]) = .ok (.putCstr [0x41]) := by decide
theorem test_decode_encode : decode t0 (host 0x05 [.bytes [0x41], .args [.int 1]]) = .ok (.encode [0x41] [.int 1]) := by decide
theorem test_decode_flush : decode t0 (host 0x06 []) = .ok .flush := by decide
theorem test_decode_step : decode t0 (host 0x07 []) = .ok .step := by decide
theorem test_decode_isReady : decode t0 (host 0x08 []) = .ok .isReady := by decide
theorem test_decode_allocCode : decode t0 (host 0x10 [.value (some 1), .value none]) = .ok (.allocCode (some 1) none) := by decide
theorem test_decode_allocArea : decode t0 (host 0x11 [.rect ⟨1, 2, 3, 4⟩, .value (some 1), .value (some 5)])
    = .ok (.allocArea ⟨1, 2, 3, 4⟩ (some 1) (some 5)) := by decide
theorem test_decode_free : decode t0 (host 0x12 [.nat 3]) = .ok (.free 3) := by decide
theorem test_decode_setEnabled : decode t0 (host 0x13 [.nat 3, .nat 1]) = .ok (.setEnabled 3 1) := by decide
theorem test_decode_setWindow : decode t0 (host 0x14 [.rect ⟨1, 2, 3, 4⟩]) = .ok (.setWindow ⟨1, 2, 3, 4⟩) := by decide
theorem test_decode_clearWindow : decode t0 (host 0x15 []) = .ok .clearWindow := by decide
theorem test_decode_setHook : decode t0 (host 0x16 [.value (some 1)]) = .ok (.setHook (some 1)) := by decide
theorem test_decode_clearHook : decode t0 (host 0x17 []) = .ok .clearHook := by decide
theorem test_decode_undefined_low : decode t0 (host 0x09 []) = .ok (.undefinedHostOpcode 0x09 []) := by decide
theorem test_decode_undefined_high : decode t0 (host 0x18 [.nat 1]) = .ok (.undefinedHostOpcode 0x18 [.nat 1]) := by decide
theorem test_decode_tick : decode t0 (bytes .tickInput []) = .ok .tick := by decide
theorem test_decode_reset : decode t0 (bytes .resetInput []) = .ok .reset := by decide
theorem test_decode_poll : decode t0 (bytes .synthesized []) = .ok .poll := by decide
theorem test_decode_lit : decode t0 (bytes .directive [0x41]) = .ok (.lit 0x41) := by decide
theorem test_decode_dirChar : decode t0 { format := .directive, bytes := [0x25, 0x63], operands := [.args [.int 7]] }
    = .ok (.dirChar (some (.int 7))) := by decide
theorem test_decode_dirWord : decode t0 { format := .directive, bytes := [0x25, 0x44], operands := [.args [.int 7]] }
    = .ok (.dirWord (some (.int 7))) := by decide
theorem test_decode_dirStr : decode t0 { format := .directive, bytes := [0x25, 0x73], operands := [.args [.str [0x41]]] }
    = .ok (.dirStr (some (.str [0x41]))) := by decide
theorem test_decode_dirPercent : decode t0 (bytes .directive [0x25, 0x25]) = .ok .dirPercent := by decide
theorem test_decode_dirUnknown : decode t0 (bytes .directive [0x25, 0x64]) = .ok (.dirUnknown 0x64) := by decide
theorem test_decode_trailingPct : decode t0 (bytes .directive [0x25]) = .ok .trailingPct := by decide
theorem test_decode_evButton : decode t0 (bytes .inboundEvent [0x41, 0x81]) = .ok (.evButton [0x41, 0x81]) := by decide
theorem test_decode_evTouch : decode t0 (bytes .inboundEvent [0x48, 1, 100, 0, 50, 0]) = .ok (.evTouch [0x48, 1, 100, 0, 50, 0]) := by
  decide
theorem test_decode_evUnknown : decode t0 (bytes .inboundEvent [0x5A]) = .ok (.evUnknown [0x5A]) := by decide
theorem test_decode_buttonCode : decode t0 (bytes .codeByte [0x85]) = .ok (.buttonCode true 5) := by decide
theorem test_decode_subRelease : decode t0 { format := .touchSub, bytes := [0x00], operands := [.nat 65535, .nat 2] }
    = .ok (.subRelease 65535 2) := by decide
theorem test_decode_subPress : decode t0 { format := .touchSub, bytes := [0x01], operands := [.nat 1, .nat 2] } = .ok (.subPress 1 2) := by
  decide
theorem test_decode_subRepeat : decode t0 (bytes .touchSub [0x02]) = .ok .subRepeat := by decide
theorem test_decode_subOther : decode t0 (bytes .touchSub [0xFF]) = .ok (.subOther 0xFF) := by decide
theorem test_decode_ctrlNoresp : decode t0 (bytes .wireCtrl [0x11]) = .ok .ctrlNoresp := by decide
theorem test_decode_ctrlResp : decode t0 (bytes .wireCtrl [0x12]) = .ok .ctrlResp := by decide
theorem test_decode_ack : decode t0 (bytes .handshake [0x06]) = .ok .ack := by decide
theorem test_decode_nak : decode t0 (bytes .handshake [0x15]) = .ok (.nak 0x15) := by decide
theorem test_decode_esc : decode t0 (bytes .commandLead [0x1B]) = .ok .esc := by decide

/-- Reserved control bytes and two-byte handshakes are refused by name. -/
theorem test_decode_refuses : decode t0 (bytes .wireCtrl [0x13]) = .error .notAControlByte
    ∧ decode t0 (bytes .handshake [6, 6]) = .error .notOneByte ∧ decode t0 (bytes .commandLead [0x1C]) = .error .notTheLeadByte := by decide

/-! ## Table words -/

theorem test_tableWord_free : decodeTableWord 8 0x12 = some (.free 0) := rfl
theorem test_tableWord_dirWord : decodeTableWord 16 0x2544 = some (.dirWord (some (.int 0))) := rfl

/-- The first step after reset runs the placed word: an unattached PUT_U8 faults NOT_ATTACHED (R169). -/
theorem test_withFetchWord : next (step (State.reset.withFetchWord 8 0x02)) (fun t => decide (t.fault = .notAttached)) = true := by decide

/-- The placed SETUP attaches where the channel opens (R124). -/
theorem test_withFetchWord_setup :
    next (step ({ State.reset with env := { Env.initial with opens := [true] } }.withFetchWord 8 0x00)) (fun t => decide (t.attached = true)) = true := by
  decide

/-! ## One step -/

/-- V-E2: a failed opening leaves the channel closed. -/
theorem test_setup_fails : next (exec .setup { State.resetOf t0 with env := { Env.initial with opens := [false] } })
    (fun t => decide (t.attached = false) && decide (result t = some .setupFailed)) = true := by decide

/-- V-C1. -/
theorem test_beginFrame : next (exec .beginFrame (attached t0)) (fun t => decide (outRead t 2 = some 0x1B) && decide (t.outLen = 1)) = true := by
  decide

/-- V-S8: BEGIN_FRAME drives a pending poll, whose reply is empty. -/
theorem test_beginFrame_poll : next (exec .beginFrame (answering [0x06, 0x11, 0, 0] (sending t0 .receive)))
    (fun t => decide (t.state = .ready) && decide (outRead t 2 = some 0x1B) && decide (t.outLen = 1) && decide (t.env.rx = [])) = true := by
  decide +kernel

/-- V-C3, V-C25: 255 is staged and 256 is not. -/
theorem test_putU8 : next (exec (.putU8 255) (staged1 t0)) (fun t => decide (outRead t 3 = some 255) && decide (t.outSum = 0x40)) = true := by decide
theorem test_putU8_range : next (exec (.putU8 256) (attached t0)) (fun t => decide (t.fault = .badArgument) && decide (t.outLen = 0)) = true := by
  decide

/-- V-C4: low byte first. -/
theorem test_putU16le : next (exec (.putU16le 256) (attached t0)) (fun t => decide (readRange t.outBuf 2 2 = some [0, 1])) = true := by decide

/-- V-C22: the first byte stays where the second does not fit. -/
theorem test_putU16le_full : next (exec (.putU16le 0xBBAA) (filled 60))
    (fun t => decide (outRead t 62 = some 0xAA) && decide (t.outLen = 61) && decide (t.fault = .frameTooLarge)) = true := by decide

/-- V-C6: the content stops at the zero byte. -/
theorem test_putCstr : next (exec (.putCstr [0x41, 0, 0x42]) (attached t0)) (fun t => decide (readRange t.outBuf 2 2 = some [0x41, 0])
    && decide (t.outLen = 2)) = true := by decide

/-- V-C8. -/
theorem test_encode_words : next (exec (.encode [37, 68, 37, 68] [.int 65536, .int 300]) (attached t0))
    (fun t => decide (readRange t.outBuf 2 4 = some [0, 0, 44, 1]) && decide (result t = some (.number 4))) = true := by decide

/-- V-C11: the unrecognised directive consumes no argument. -/
theorem test_encode_unknown : next (exec (.encode [37, 100, 37, 99] [.int 7]) (attached t0))
    (fun t => decide (outRead t 2 = some 7) && decide (t.out.events = [.diag .unknownDirective])) = true := by decide

/-- R105: control byte, length, payload, and their sum, sent once; the handshake is read. -/
theorem test_flush : next (exec .flush (answering [0x06] (staged1 t0)))
    (fun t => decide (t.out.bus = [.tx 0x11, .tx 1, .tx 0x41, .tx 0x53, .rx 0 0x06]) && decide (t.outLen = 0)) = true := by decide +kernel

/-- R14, R181: a driving loop waits while the transport is busy. -/
theorem test_flush_waits : next (exec .flush { attached t0Tick with state := .reset, tstate := .send })
    (fun t => decide (t.pos = .flushing) && decide (t.outLen = 0)) = true := by decide

/-- V-S5: the poll frame is armed. -/
theorem test_step_poll : next (exec .step (attached t0)) (fun t => decide (readRange t.outBuf 0 3 = some [0x12, 0, 0x12])
    && decide (t.state = .transmit)) = true := by decide

/-- V-G14's reply: code 0x81 presses slot 0, then the hook. -/
theorem test_step_event : next (exec .step (received 0xC4))
    (fun t => decide (t.out.events = [.dispatch 0 4 (some 2) true, .hook 3]) && decide (t.state = .reset)) = true := by decide

theorem test_isReady_busy : next (exec .isReady (ticking t0Tick .send)) (fun t => decide (result t = some (.bool false))) = true := by decide

/-- V-G1: front to back. -/
theorem test_allocCode : next (exec (.allocCode (some 5) none) widgets) (fun t => decide (result t = some (.slot 1))
    && decide ((slotAt t 1).cb = some 5)) = true := by decide

/-- V-G5: the window's origin is added modulo 65536. -/
theorem test_allocArea : next (exec (.allocArea ⟨10, 1, 3, 3⟩ (some 9) none) { attached t0 with window := { valid := true, rect := ⟨65530, 65535, 9, 9⟩ } })
    (fun t => decide ((slotAt t 15).rect = ⟨4, 0, 3, 3⟩) && decide (result t = some (.slot 15))) = true := by decide

/-- V-G6: removed by code, `slot index + 1`. -/
theorem test_free : next (exec (.free 0) (answering [0x06] widgets))
    (fun t => decide (t.out.bus.take 8 = [.tx 17, .tx 5, .tx 27, .tx 65, .tx 76, .tx 1, .tx 1, .tx 192])
      && decide (slotAt t 0 = Slot.empty)) = true := by decide +kernel

/-- V-G12: the first index outside the table. -/
theorem test_free_bad : next (exec (.free 16) widgets) (fun t => decide (t.fault = .badSlot)) = true := by decide

theorem test_setEnabled : next (exec (.setEnabled 15 0) widgets) (fun t => decide ((slotAt t 15).enabled = false)
    && decide ((slotAt t 15).cb = some 9)) = true := by decide
theorem test_setWindow : next (exec (.setWindow ⟨1, 2, 3, 65535⟩) widgets)
    (fun t => decide (t.window = { valid := true, rect := ⟨1, 2, 3, 65535⟩ })) = true := by decide
theorem test_clearWindow : next (exec .clearWindow { widgets with window := { valid := true, rect := ⟨1, 2, 3, 4⟩ } })
    (fun t => decide (t.window = { valid := false, rect := ⟨0, 0, 0, 0⟩ })) = true := by decide
theorem test_setHook : next (exec (.setHook (some 8)) widgets) (fun t => decide (t.hook = some 8)) = true := by decide
theorem test_clearHook : next (exec .clearHook widgets) (fun t => decide (t.hook = none)) = true := by decide

/-- V-E4. -/
theorem test_undefined : next (exec (.undefinedHostOpcode 9 []) (attached t0)) (fun t => decide (t.fault = .badArgument)) = true := by decide

/-- R131: one byte per tick, with the line's value. -/
theorem test_tick_send : next (exec .tick { ticking t0Tick .send with outBuf := [(0, 0x11)], tCnt := 1, cs := true })
    (fun t => decide (t.out.bus = [.tx 0x11, .cs true]) && decide (t.tCnt = 0)) = true := by decide

/-- R137: a byte outside the buffer is dropped. -/
theorem test_tick_overflow : next (exec .tick (answering [0x77] { ticking t0Tick .receivePayload with tIdx := 64, tCnt := 2, inLen := 64 }))
    (fun t => decide (t.inOvf = true) && decide (t.inBuf = [])) = true := by decide

/-- R189: RESET keeps the outputs. -/
theorem test_reset : next (exec .reset { received 0 with fault := .sequence, out := { Outputs.none with results := [.halted] } })
    (fun t => decide (t.fault = .none) && decide (t.hook = none) && decide (t.out.results = [.halted])) = true := by decide

theorem test_poll : next (exec .poll (staged1 t0)) (fun t => decide (readRange t.outBuf 0 4 = some [0x12, 1, 0x41, 0x54])) = true := by decide
theorem test_lit : next (exec (.lit 0x58) (attached t0)) (fun t => decide (outRead t 2 = some 0x58)) = true := by decide

/-- V-C7: modulo 256. -/
theorem test_dirChar : next (exec (.dirChar (some (.int 511))) (attached t0)) (fun t => decide (outRead t 2 = some 255)) = true := by decide

/-- V-C17: an argument of the other kind. -/
theorem test_dirStr_kind : next (exec (.dirStr (some (.int 1))) (attached t0)) (fun t => decide (t.fault = .badArgument)) = true := by decide
theorem test_dirWord : next (exec (.dirWord (some (.int 300))) (attached t0)) (fun t => decide (readRange t.outBuf 2 2 = some [44, 1])) = true := by
  decide

/-- V-C9: a string argument is copied verbatim, `%` bytes too. -/
theorem test_dirStr : next (exec (.dirStr (some (.str [53, 37, 37]))) (attached t0))
    (fun t => decide (readRange t.outBuf 2 4 = some [53, 37, 37, 0])) = true := by decide
theorem test_dirPercent : next (exec .dirPercent (attached t0)) (fun t => decide (outRead t 2 = some 0x25)) = true := by decide
theorem test_dirUnknown : next (exec (.dirUnknown 0x43) (attached t0))
    (fun t => decide (t.outLen = 0) && decide (t.out.events = [.diag .unknownDirective])) = true := by decide
theorem test_trailingPct : next (exec .trailingPct (attached t0))
    (fun t => decide (t.outLen = 0) && decide (t.out.events = [.diag .unknownDirective])) = true := by decide

/-- V-G15: the press flag clear is a release. -/
theorem test_evButton : next (exec (.evButton [65, 1]) eventing)
    (fun t => decide (t.out.events = [.dispatch 0 4 (some 2) false, .hook 3])) = true := by decide

/-- R160: the far corner of (50, 10, 100, 100) is inside, one unit beyond is not. -/
theorem test_evTouch_edge : next (exec (.evTouch [72, 1, 150, 0, 110, 0]) eventing)
    (fun t => decide (t.out.events = [.dispatch 15 9 none true, .hook 3])) = true := by decide
theorem test_evTouch_beyond : next (exec (.evTouch [72, 1, 151, 0, 110, 0]) eventing)
    (fun t => decide (t.out.events = [.diag .noHit, .hook 3])) = true := by decide

/-- V-G32. -/
theorem test_evUnknown : next (exec (.evUnknown [90, 1]) eventing) (fun t => decide (t.out.events = [.diag .unknownEvent, .hook 3])) = true := by
  decide

/-- V-G17, V-G18: the code one above the table, and an empty slot's. -/
theorem test_buttonCode_above : next (exec (.buttonCode true 17) eventing) (fun t => decide (t.out.events = [.diag .badCode])) = true := by decide
theorem test_buttonCode_empty : next (exec (.buttonCode true 2) eventing) (fun t => decide (t.out.events = [.diag .unregisteredCode])) = true := by
  decide

/-- V-G33: a point at (0, 0) is inside a code widget's rectangle. -/
theorem test_subPress : next (exec (.subPress 0 0) eventing) (fun t => decide (t.out.events = [.dispatch 0 4 (some 2) true])) = true := by decide
theorem test_subRelease : next (exec (.subRelease 50 10) eventing) (fun t => decide (t.out.events = [.dispatch 15 9 none false])) = true := by decide
theorem test_subRepeat : next (exec .subRepeat eventing) (fun t => decide (t.out.events = [])) = true := by decide
theorem test_subOther : next (exec (.subOther 3) eventing) (fun t => decide (t.out.events = [.diag .badTouchSub])) = true := by decide
theorem test_ctrlNoresp : next (exec .ctrlNoresp (staged1 t0)) (fun t => decide (t.nextState = .reset) && decide (outRead t 3 = some 0x53)) = true := by
  decide
theorem test_ctrlResp : next (exec .ctrlResp (staged1 t0)) (fun t => decide (t.nextState = .receive) && decide (outRead t 3 = some 0x54)) = true := by
  decide
theorem test_ack : next (exec .ack (ticking t0Tick .receiveAck)) (fun t => decide (t.tstate = .ready)) = true := by decide

/-- R140: the second refusal passes `RETRY_LIMIT = 1`. -/
theorem test_nak : next (exec (.nak 0x15) (ticking t0RetryTick .receiveAck)) (fun t => decide (t.tstate = .start) && decide (t.tRetries = 1)) = true := by
  decide
theorem test_nak_ceiling : next (exec (.nak 0x15) { ticking t0RetryTick .receiveAck with tRetries := 1 })
    (fun t => decide (t.fault = .retryLimit)) = true := by decide
theorem test_esc : next (exec .esc (filled 60)) (fun t => decide (outRead t 62 = some 0x1B) && decide (t.outLen = 61)) = true := by decide

/-! ## Witnesses: for each statement, a state and operands that meet its hypotheses, clause by clause -/

/-- The common checks pass. -/
theorem accepting (c : Cfg) : Accepting (attached c) := ⟨rfl, rfl⟩

/-- Staging may start. -/
theorem staging (c : Cfg) : Staging (staged1 c) := ⟨⟨rfl, rfl⟩, rfl⟩

theorem witness_DecodeReadsWhatEncodeWrites : (Instr.putU8 255).wf t0 = true
    ∧ (Instr.allocArea ⟨65535, 0, 65535, 0⟩ (some 0) none).wf t0 = true ∧ (Instr.undefinedHostOpcode 0xFF []).wf t0 = true := by decide

theorem witness_FormatTokensReadLeftToRight : (0x41 : Byte) ≠ 0 ∧ (0x41 : Byte) ≠ 0x25 ∧ (0x44 : Byte) ≠ 0 := by decide

theorem witness_ConfigurationsKeepTheirConstraints : (Cfg.ofRaw OpenCfg.t0.raw).isSome = true
    ∧ (Cfg.ofRaw { OpenCfg.t0.raw with nSlots := 128 }).isSome = false := by decide

/-- An operation that returns, one that stays in progress, and one that stops. -/
theorem witness_StepRunsTheDecodedInstruction :
    (nextTurn (scheduled [.host] [host 0x08 []] (attached t0)) = (.host, scheduled [] [host 0x08 []] (attached t0))
      ∧ decode t0 (host 0x08 []) = .ok .isReady
      ∧ ∃ t, exec .isReady (scheduled [] [host 0x08 []] (attached t0)) = .next t ∧ t.pos = .idle)
    ∧ (∃ t, exec .flush (scheduled [] [host 0x06 []] { attached t0Tick with state := .reset, tstate := .send }) = .next t ∧ t.pos ≠ .idle)
    ∧ exec .step (scheduled [] [host 0x07 []] { attached t0 with state := .event }) = .fault .unwrittenIn :=
  ⟨⟨rfl, rfl, _, rfl, rfl⟩, ⟨_, rfl, by decide⟩, rfl⟩

theorem witness_EmptyPortWaits : (attached t0Tick).env.port = [] ∧ (attached t0Tick).tickEn = false
    ∧ (nextTurn (scheduled [.host] [] (attached t0Tick))).1 ≠ .reset ∧ (nextTurn (scheduled [.tick] [] (attached t0Tick))).1 ≠ .reset :=
  ⟨rfl, rfl, by decide, by decide⟩

theorem witness_StepTakesTheOtherTurns :
    nextTurn (scheduled [.tick] [] (attached t0)) = (.tick, attached t0)
    ∧ (nextTurn (scheduled [.reset] [] (attached t0)) = (.reset, attached t0) ∧ (attached t0).pos = .idle)
    ∧ (nextTurn (scheduled [.reset] [] { attached t0 with pos := .flushing }) = (.reset, { attached t0 with pos := .flushing })
      ∧ HostPos.flushing ≠ .idle)
    ∧ (nextTurn (scheduled [.host] [] (attached t0)) = (.host, attached t0) ∧ (attached t0).env.port.head? = none)
    ∧ decode t0 (bytes .handshake []) = .error .notOneByte :=
  ⟨rfl, ⟨rfl, rfl⟩, ⟨rfl, by decide⟩, ⟨rfl, rfl⟩, rfl⟩

theorem witness_HaltedOperationsReturnHalted :
    isHostOp .setup = true ∧ (attached t0).pos = .idle ∧ ({ attached t0 with fault := .badSlot } : State).fault ≠ .none :=
  ⟨rfl, rfl, by decide⟩

theorem witness_HaltedBlockStaysAsItIs : Instr.tick ≠ .reset ∧ ({ ticking t0Tick .send with fault := .retryLimit } : State).fault ≠ .none :=
  ⟨by decide, by decide⟩

theorem witness_UnattachedOperationsFault : isHostOp .isReady = true ∧ isSetupOp .isReady = false ∧ (State.resetOf t0).pos = .idle
    ∧ (State.resetOf t0).fault = .none ∧ (State.resetOf t0).attached = false := ⟨rfl, rfl, rfl, rfl, rfl⟩

theorem witness_BadOperandsFault :
    (isHostOp (.putU8 256) = true ∧ (∀ o ops, Instr.putU8 256 ≠ .undefinedHostOpcode o ops) ∧ (Instr.putU8 256).wf t0 = false
      ∧ Accepting (attached t0))
    ∧ (State.resetOf t0).fault = .none := ⟨⟨rfl, by simp, rfl, rfl, rfl⟩, rfl⟩

theorem witness_SequenceGuardFaults :
    ((putBytes (.putU8 0)).isSome = true ∧ (Instr.putU8 0).wf t0 = true) ∧ (Instr.encode [] []).wf t0 = true
    ∧ Accepting { attached t0 with state := .transmit } ∧ ({ attached t0 with state := .transmit } : State).state ≠ .ready :=
  ⟨⟨rfl, rfl⟩, rfl, ⟨rfl, rfl⟩, by decide⟩

/-- The last byte that fits. -/
theorem witness_PutCallsStageTheirBytes : putBytes (.putU8 255) = some [255] ∧ (Instr.putU8 255).wf t0 = true
    ∧ Staging (filled 60) ∧ fits [255] (filled 60) := ⟨rfl, rfl, ⟨⟨rfl, rfl⟩, rfl⟩, by unfold fits; decide⟩

/-- One byte fits and the second does not; and none fits. -/
theorem witness_PutCallsStageWhatFitsThenFault :
    (putBytes (.putU16le 0xBBAA) = some [0xAA, 0xBB] ∧ (Instr.putU16le 0xBBAA).wf t0 = true ∧ Staging (filled 60)
      ∧ (filled 60).outLen + 3 ≤ t0.cOut ∧ ¬ fits [0xAA, 0xBB] (filled 60))
    ∧ ((filled 61).outLen + 3 ≤ t0.cOut ∧ ¬ fits [0xAA, 0xBB] (filled 61)) :=
  ⟨⟨rfl, rfl, ⟨⟨rfl, rfl⟩, rfl⟩, by decide, by unfold fits; decide⟩, by decide, by unfold fits; decide⟩

theorem witness_EncodeStagesItsTokens : tokensEffect (formatTokens [37, 99, 37, 100]) [.int 511] = some ([255], 1)
    ∧ Staging (filled 60) ∧ fits [255] (filled 60) := ⟨rfl, ⟨⟨rfl, rfl⟩, rfl⟩, by unfold fits; decide⟩

theorem witness_EncodeFaultsAtALackingArgument :
    formatTokens [88, 37, 99] = [.lit 88] ++ .char :: [] ∧ tokensEffect [.lit 88] [] = some ([88], 0)
    ∧ tokenBytes .char (argsLeft [.lit 88] []).head? = none ∧ Staging (filled 60) ∧ fits [88] (filled 60) :=
  ⟨rfl, rfl, rfl, ⟨⟨rfl, rfl⟩, rfl⟩, by unfold fits; decide⟩

theorem witness_EncodeFaultsAtTheFirstByteThatDoesNotFit :
    formatTokens [88, 37, 68] = [.lit 88] ++ .word :: [] ∧ tokensEffect [.lit 88] [.int 1] = some ([88], 0)
    ∧ tokenBytes .word (argsLeft [.lit 88] [.int 1]).head? = some [1, 0] ∧ Staging (filled 59) ∧ fits [88] (filled 59)
    ∧ ¬ fits ([88] ++ [1, 0]) (filled 59) :=
  ⟨rfl, rfl, rfl, ⟨⟨rfl, rfl⟩, rfl⟩, by unfold fits; decide, by unfold fits; decide⟩

theorem witness_LoneTokensAreOneTokenEncodes :
    (tokenOf (.dirStr (some (.str [65]))) = some (.str, some (.str [65])) ∧ tokenBytes .str (some (.str [65])) = some [65, 0]
      ∧ Staging (filled 59) ∧ fits [65, 0] (filled 59))
    ∧ ((0x41 : Byte) ≠ 0 ∧ (0x41 : Byte) ≠ 0x25) ∧ (0x43 : Byte) ≠ 0 ∧ directiveOf 0x43 = .unknown 0x43 :=
  ⟨⟨rfl, rfl, ⟨⟨rfl, rfl⟩, rfl⟩, by unfold fits; decide⟩, by decide, by decide, rfl⟩

theorem witness_BeginFrameStagesTheLeadByte : (filled 60).pos = .idle ∧ Staging (filled 60)
    ∧ (filled 60).outLen + 1 ≤ t0.cOut - 3 ∧ Staging (filled 61) ∧ t0.cOut - 3 < (filled 61).outLen + 1 :=
  ⟨rfl, ⟨⟨rfl, rfl⟩, rfl⟩, by decide, ⟨⟨rfl, rfl⟩, rfl⟩, by decide⟩

/-- The armed frame, one refusal under a ceiling of one, then ACK. -/
theorem witness_Sending (nx : NextState) : Accepting (answering [0x15, 0x06] (sending t0Retry nx)) ∧ (sending t0Retry nx).pos = .idle
    ∧ Sending (answering [0x15, 0x06] (sending t0Retry nx)) 1 [0x11, 1, 0x41, 0x53]
    ∧ (answering [0x15, 0x06] (sending t0Retry nx)).env.rx = [0x15] ++ t0Retry.ack :: []
    ∧ (∀ b ∈ [(0x15 : Byte)], b ≠ t0Retry.ack) ∧ ∀ k, t0Retry.retryLimit = some k → [(0x15 : Byte)].length ≤ k :=
  ⟨⟨rfl, rfl⟩, rfl, ⟨rfl, rfl, rfl, rfl, rfl⟩, rfl, by decide, by intro k h; cases h; decide⟩

/-- A poll's frame and a reply of one byte. -/
theorem witness_Sending_poll : (sending t0 .receive).nextState = .receive
    ∧ (answering [0x06, 0x11, 1, 0x41, 0x42] (sending t0 .receive)).env.rx = [] ++ t0.ack :: (0x11 :: 1 :: [0x41] ++ 0x42 :: [])
    ∧ [(0x41 : Byte)].length = (1 : Byte).toNat := ⟨rfl, rfl, rfl⟩

/-- The last step of a driving loop in `Tick`, begun and in progress. -/
theorem witness_BeginFrameStagesTheLeadByte_tick (p : HostPos) : Accepting { ticking t0Tick .ready with pos := p }
    ∧ (ticking t0Tick .ready).pos = .idle ∧ t0Tick.transport = .tick ∧ (ticking t0Tick .ready).tstate = .ready
    ∧ (ticking t0Tick .ready).state = .reset := ⟨⟨rfl, rfl⟩, rfl, rfl, rfl, rfl⟩

theorem witness_SetupOpensTheChannel : ((attached t0).fault = .none ∧ (attached t0).attached = true)
    ∧ ((State.resetOf t0).fault = .none ∧ (State.resetOf t0).attached = false ∧ (State.resetOf t0).env.opens = [])
    ∧ ({ Env.initial with opens := [true] } : Env).opens = true :: [] ∧ ({ Env.initial with opens := [false] } : Env).opens = false :: [] :=
  ⟨⟨rfl, rfl⟩, ⟨rfl, rfl, rfl⟩, rfl, rfl⟩

theorem witness_IsReadyReadsTheTransport : (Accepting (attached t0) ∧ t0.transport = .blocking)
    ∧ Accepting (ticking t0Tick .send) ∧ t0Tick.transport = .tick := ⟨⟨⟨rfl, rfl⟩, rfl⟩, ⟨rfl, rfl⟩, rfl⟩

theorem witness_StepFollowsTheSessionTable :
    (Accepting (ticking t0Tick .wait) ∧ (ticking t0Tick .wait).pos = .idle ∧ t0Tick.transport = .tick ∧ TransportState.wait ≠ .ready)
    ∧ (Accepting { attached t0Tick with state := .transmit } ∧ (attached t0Tick).tstate = .ready)
    ∧ Accepting { attached t0Tick with state := .receive } ∧ Accepting { attached t0Tick with state := .reset }
    ∧ Accepting { attached t0 with state := .reset } ∧ t0.transport = .blocking :=
  ⟨⟨⟨rfl, rfl⟩, rfl, rfl, by decide⟩, ⟨⟨rfl, rfl⟩, rfl⟩, ⟨rfl, rfl⟩, ⟨rfl, rfl⟩, ⟨rfl, rfl⟩, rfl⟩

/-- The second refusal under a ceiling of one; the acknowledged frame is `witness_Sending`. -/
theorem witness_StepFollowsTheSessionTable_ceiling : Accepting (sending t0Retry .reset) ∧ (sending t0Retry .reset).pos = .idle
    ∧ Sending (answering [0x15, 0x07] (sending t0Retry .reset)) 1 [0x11, 1, 0x41, 0x53]
    ∧ (answering [0x15, 0x07] (sending t0Retry .reset)).env.rx = [0x15] ++ 0x07 :: [] ∧ (∀ b ∈ [(0x15 : Byte)], b ≠ t0Retry.ack)
    ∧ (0x07 : Byte) ≠ t0Retry.ack ∧ t0Retry.retryLimit = some 1 ∧ [(0x15 : Byte)].length = 1 :=
  ⟨⟨rfl, rfl⟩, rfl, ⟨rfl, rfl, rfl, rfl, rfl⟩, rfl, by decide, by decide, rfl, rfl⟩

/-- The poll's byte is the last that fits; and it does not fit. -/
theorem witness_PollArmsAFrameThatExpectsAReply :
    (Staging { attached t0Poll with outLen := 60 } ∧ (attached t0Poll).pos = .idle ∧ t0Poll.transport = .blocking
      ∧ fits t0Poll.pollPayload { attached t0Poll with outLen := 60 })
    ∧ Staging { attached t0Poll with outLen := 61 } ∧ 61 + 3 ≤ t0Poll.cOut ∧ ¬ fits t0Poll.pollPayload { attached t0Poll with outLen := 61 } :=
  ⟨⟨⟨⟨rfl, rfl⟩, rfl⟩, rfl, rfl, by unfold fits; decide⟩, ⟨⟨rfl, rfl⟩, rfl⟩, by decide, by unfold fits; decide⟩

theorem witness_ControlBytesChooseTheNextState : Staging (filled 61) ∧ t0.transport = .blocking ∧ (filled 61).outLen + 3 ≤ t0.cOut :=
  ⟨⟨⟨rfl, rfl⟩, rfl⟩, rfl, by decide⟩

theorem witness_ArmedFramesCarryTheirChecksum : CodecInv (staged1 t0) ∧ ∃ t, arm (staged1 t0) = .ok t :=
  ⟨⟨by decide, [0x41], rfl, rfl⟩, _, rfl⟩

/-- No payload, an overflow, a wrong trailer, and the right one. -/
theorem witness_EventStepChecksTheFrame :
    (Accepting (received 0) ∧ (received 0).pos = .idle ∧ (received 0).state = .event ∧ t0.transport = .blocking)
    ∧ inRead { received 0 with inBuf := [(0, 0x11), (1, 0)] } 1 = some 0
    ∧ (inRead { received 0 with inOvf := true } 1 = some 2 ∧ (2 : Byte) ≠ 0)
    ∧ (inRead (received 0) 1 = some 2 ∧ (received 0).inOvf = false ∧ readRange (received 0).inBuf 2 2 = some [0x41, 0x81]
      ∧ inRead (received 0) 4 = some 0 ∧ sum8 [2, 0x41, 0x81] ≠ 0)
    ∧ inRead (received 0xC4) 4 = some 0xC4 ∧ sum8 [2, 0x41, 0x81] = 0xC4 :=
  ⟨⟨⟨rfl, rfl⟩, rfl, rfl, rfl⟩, rfl, ⟨rfl, by decide⟩, ⟨rfl, rfl, rfl, rfl, by decide⟩, rfl, rfl⟩

theorem witness_FlushWithNothingStagedDoesNothing :
    (Accepting (attached t0) ∧ (attached t0).pos = .idle ∧ (attached t0).state = .ready ∧ (attached t0).outLen = 0)
    ∧ ∃ t, exec .flush (attached t0) = .next t ∧ t.out.results = (attached t0).out.results ++ [.unit] :=
  ⟨⟨⟨rfl, rfl⟩, rfl, rfl, rfl⟩, _, rfl, rfl⟩

/-- A busy transport, a ready one in each session state a loop passes, and a fault. -/
theorem witness_DrivingOperationsWaitForTheTransport :
    (Accepting { widgets with cfg := t0Tick, state := .reset, tstate := .send } ∧ t0Tick.transport = .tick ∧ TransportState.send ≠ .ready
      ∧ SessionState.reset ≠ .ready ∧ 15 < t0Tick.nSlots ∧ (slotAt widgets 15).cb ≠ none)
    ∧ (Accepting { widgets with cfg := t0Tick, state := .transmit } ∧ widgets.tstate = .ready
      ∧ (∃ u, exec .step { widgets with cfg := t0Tick, state := .transmit } = .next (State.ret .stepped u))
      ∧ (∃ u, exec .step { widgets with cfg := t0Tick, state := .receive } = .next (State.ret .stepped u))
      ∧ ∃ u, exec .step { received 0xC4 with cfg := t0Tick } = .next (State.ret .stepped u))
    ∧ FaultCode.retryLimit ≠ .none :=
  ⟨⟨⟨rfl, rfl⟩, rfl, by decide, by decide, by decide, by decide⟩, ⟨⟨rfl, rfl⟩, rfl, ⟨_, rfl⟩, ⟨_, rfl⟩, ⟨_, rfl⟩⟩, by decide⟩

/-- After the session's RESET step, with a remove command that fits. -/
theorem witness_DrivingOperationsWaitForTheTransport_reset :
    Accepting { widgets with cfg := t0Tick, state := .reset } ∧ widgets.pos = .idle ∧ widgets.tstate = .ready
    ∧ removeBytes widgets 15 = some [65, 86, 100, 0, 60, 0, 1] ∧ [65, 86, 100, 0, 60, 0, (1 : Byte)].length + 4 ≤ t0Tick.cOut :=
  ⟨⟨rfl, rfl⟩, rfl, rfl, by decide, by decide⟩

/-- FLUSH from READY with the fullest frame; in `Blocking`, FLUSH from RESET, and an operation under a retry ceiling. The armed frames are
`witness_Sending` and `witness_Sending_poll`. -/
theorem witness_DrivingOperationsWaitForTheTransport_flush :
    (Staging { filled 61 with cfg := t0Tick } ∧ (filled 61).tstate = .ready ∧ (filled 61).pos = .idle ∧ (filled 61).ctrl = t0Tick.ctrlNoresp
      ∧ 0 < (filled 61).outLen ∧ (filled 61).outLen + 3 ≤ t0Tick.cOut)
    ∧ (Accepting { attached t0 with state := .reset } ∧ t0.transport = .blocking ∧ (attached t0).pos = .idle ∧ (attached t0).tstate = .ready
      ∧ SessionState.reset ≠ .ready ∧ exec .flush { attached t0 with state := .reset } = .next ((attached t0).ret .unit))
    ∧ (isHostOp .isReady = true ∧ t0Retry.transport = .blocking ∧ (attached t0Retry).tstate = .ready ∧ t0Retry.retryLimit ≠ none
      ∧ ∃ t, exec .isReady (attached t0Retry) = .next t) :=
  ⟨⟨⟨⟨rfl, rfl⟩, rfl⟩, rfl, rfl, rfl, by decide, by decide⟩, ⟨⟨rfl, rfl⟩, rfl, rfl, rfl, by decide, rfl⟩, rfl, rfl, rfl, by decide, _, rfl⟩

/-- FREE from READY in `Tick`, begun and in progress. -/
theorem witness_DrivingOperationsWaitForTheTransport_free :
    (Staging { widgets with cfg := t0Tick } ∧ t0Tick.transport = .tick ∧ widgets.tstate = .ready ∧ widgets.pos = .idle ∧ 15 < t0Tick.nSlots
      ∧ (slotAt widgets 15).cb ≠ none ∧ widgets.ctrl = t0Tick.ctrlNoresp
      ∧ removeBytes { widgets with cfg := t0Tick } 15 = some [65, 86, 100, 0, 60, 0, 1]
      ∧ fits (0x1B :: [65, 86, 100, 0, 60, 0, 1]) { widgets with cfg := t0Tick })
    ∧ Staging { widgets with cfg := t0Tick, pos := .freeingBegin } :=
  ⟨⟨⟨⟨rfl, rfl⟩, rfl⟩, rfl, rfl, rfl, by decide, by decide, rfl, by decide, by unfold fits; decide⟩, ⟨⟨rfl, rfl⟩, rfl⟩⟩

/-- In `Blocking`, outside READY: STEP returns from RESET and from EVENT. -/
theorem witness_DrivingOperationsWaitForTheTransport_step :
    (Accepting { widgets with state := .reset } ∧ t0.transport = .blocking ∧ widgets.pos = .idle ∧ SessionState.reset ≠ .ready
      ∧ 15 < t0.nSlots ∧ (slotAt widgets 15).cb ≠ none ∧ exec .step { widgets with state := .reset } = .next (widgets.ret .stepped))
    ∧ (Accepting (received 0xC4) ∧ (∃ u, exec .step (received 0xC4) = .next (State.ret .stepped u) ∧ u.pos = .idle)) :=
  ⟨⟨⟨rfl, rfl⟩, rfl, rfl, by decide, by decide, by decide, rfl⟩, ⟨⟨rfl, rfl⟩, _, rfl, rfl⟩⟩

/-- An operation that returned `r`, read off its outcome. -/
theorem returned {o : Host.Outcome State Fault Refusal} {r : Result}
    (h : next o (fun t => decide (result t = some r ∧ t.pos = .idle)) = true) : ∃ u, o = .next (State.ret r u) ∧ u.pos = .idle := by
  cases o with
  | next t =>
    obtain ⟨h1, h2⟩ := of_decide_eq_true h
    refine ⟨{ t with out := { t.out with results := t.out.results.dropLast } }, ?_, h2⟩
    simp [State.ret, List.dropLast_append_getLast? _ h1, ← h2]
  | fault f => cases h
  | refused r => cases h

/-- An operation still in progress, read off its outcome. -/
theorem inProgress {o : Host.Outcome State Fault Refusal} {p : HostPos} (h : next o (fun t => decide (t.pos = p)) = true) :
    ∃ u, o = .next u ∧ u.pos = p := by
  cases o with
  | next t => exact ⟨t, rfl, of_decide_eq_true h⟩
  | fault f => cases h
  | refused r => cases h

/-- From RECEIVE and from TRANSMIT, at the retry ceiling, and with a transfer that goes on (from a state that no run reaches:
where a run's transfer goes on, the free `refusalsBeforeAck` says so, which no proof evaluates). -/
theorem witness_DrivingOperationsWaitForTheTransport_transfer :
    (∃ u, exec .step { answering [0x11, 0, 0] widgets with state := .receive } = .next (State.ret .stepped u) ∧ u.pos = .idle)
    ∧ (∃ u, exec .step (answering [0x06] (sending t0Retry .receive)) = .next (State.ret .stepped u) ∧ u.pos = .idle)
    ∧ (∃ u, exec .step (answering [0x15, 0x15] (sending t0Retry .receive)) = .next (State.ret (.fault .retryLimit) u) ∧ u.pos = .idle)
    ∧ ∃ u, exec .step { sending t0Retry .receive with tstate := .wait, tWait := 999 } = .next u ∧ u.pos = .stepping :=
  ⟨returned (by decide +kernel), returned (by decide +kernel), returned (by decide +kernel), inProgress (by decide +kernel)⟩

/-- One refusal under a ceiling of one, then ACK. -/
theorem witness_BlockingFlushResendsUntilAcknowledged :
    Accepting (answering [0x15, 0x06] (staged1 t0Retry)) ∧ (staged1 t0Retry).pos = .idle ∧ t0Retry.transport = .blocking
    ∧ (staged1 t0Retry).state = .ready ∧ (staged1 t0Retry).tstate = .ready ∧ (staged1 t0Retry).ctrl = t0Retry.ctrlNoresp
    ∧ 0 < (staged1 t0Retry).outLen ∧ (staged1 t0Retry).outLen + 3 ≤ t0Retry.cOut
    ∧ readRange (staged1 t0Retry).outBuf 2 1 = some [0x41] ∧ sum8 [0x41] = (staged1 t0Retry).outSum
    ∧ (answering [0x15, 0x06] (staged1 t0Retry)).env.rx = [0x15] ++ t0Retry.ack :: []
    ∧ (∀ b ∈ [(0x15 : Byte)], b ≠ t0Retry.ack) ∧ ∀ k, t0Retry.retryLimit = some k → [(0x15 : Byte)].length ≤ k :=
  ⟨⟨rfl, rfl⟩, rfl, rfl, rfl, rfl, rfl, by decide, by decide, rfl, rfl, rfl, by decide, by intro k h; cases h; decide⟩

theorem witness_BlockingFlushFaultsAtTheRetryCeiling :
    Accepting (answering [0x15, 0x15] (staged1 t0Retry))
    ∧ (answering [0x15, 0x15] (staged1 t0Retry)).env.rx = [0x15, 0x15] ++ []
    ∧ (∀ b ∈ [(0x15 : Byte), 0x15], b ≠ t0Retry.ack) ∧ t0Retry.retryLimit = some 1 ∧ [(0x15 : Byte), 0x15].length = 1 + 1
    ∧ (staged1 t0Retry).pos = .idle ∧ t0Retry.transport = .blocking ∧ (staged1 t0Retry).state = .ready ∧ (staged1 t0Retry).tstate = .ready
    ∧ 0 < (staged1 t0Retry).outLen ∧ (staged1 t0Retry).outLen + 3 ≤ t0Retry.cOut
    ∧ readRange (staged1 t0Retry).outBuf 2 1 = some [0x41] ∧ sum8 [0x41] = (staged1 t0Retry).outSum :=
  ⟨⟨rfl, rfl⟩, rfl, by decide, rfl, rfl, rfl, rfl, rfl, rfl, by decide, by decide, rfl, rfl⟩

theorem witness_BlockingReceiveStoresTheFrame :
    Accepting (answering [0x11, 1, 0x41, 0x42] { attached t0 with state := .receive }) ∧ (attached t0).pos = .idle ∧ t0.transport = .blocking
    ∧ (attached t0).tstate = .ready
    ∧ (answering [0x11, 1, 0x41, 0x42] (attached t0)).env.rx = 0x11 :: 1 :: [0x41, 0x42] ++ []
    ∧ [(0x41 : Byte), 0x42].length = (1 : Byte).toNat + 1 := ⟨⟨rfl, rfl⟩, rfl, rfl, rfl, rfl, rfl⟩

theorem witness_FiveStepsPollTheDisplay :
    Accepting (answering [0x06, 0x11, 0, 0] (attached t0)) ∧ (attached t0).pos = .idle ∧ t0.transport = .blocking ∧ t0.pollPayload = []
    ∧ (attached t0).state = .ready ∧ (attached t0).tstate = .ready ∧ (attached t0).outLen = 0 ∧ (attached t0).outSum = 0
    ∧ ([] : List Byte).length = (0 : Byte).toNat
    ∧ (answering [0x06, 0x11, 0, 0] (attached t0)).env.rx = t0.ack :: 0x11 :: 0 :: [] ++ 0 :: [] :=
  ⟨⟨rfl, rfl⟩, rfl, rfl, rfl, rfl, rfl, rfl, rfl, rfl, rfl⟩

/-- Each transport state of a transmit, the counters at the values where the clauses part. -/
theorem witness_TransmitTicksFollowTheSchedule :
    ((ticking t0Tick .start).cfg.transport = .tick ∧ (ticking t0Tick .start).tickEn = true ∧ (ticking t0Tick .start).fault = .none)
    ∧ outRead { ticking t0Tick .start with outBuf := [(1, 255)] } 1 = some 255
    ∧ (0 < ({ ticking t0Tick .send with outBuf := [(0, 0x11)], tCnt := 1 } : State).tCnt
      ∧ outRead { ticking t0Tick .send with outBuf := [(0, 0x11)], tCnt := 1 } 0 = some 0x11)
    ∧ (ticking t0Tick .send).tCnt = 0 ∧ 0 < ({ ticking t0Tick .wait with tWait := 1 } : State).tWait ∧ (ticking t0Tick .wait).tWait = 0
    ∧ drawByte (answering [0x06] (ticking t0Tick .wait)).env = (0x06, (ticking t0Tick .wait).env)
    ∧ ({ ticking t0Tick .receiveAck with tAck := 0x06 } : State).tAck = t0Tick.ack ∧ (ticking t0Tick .receiveAck).tAck ≠ t0Tick.ack
    ∧ t0RetryTick.retryLimit = some 1 ∧ 0 + 1 ≤ 1 ∧ 1 < ({ ticking t0RetryTick .receiveAck with tRetries := 1 } : State).tRetries + 1 :=
  ⟨⟨rfl, rfl, rfl⟩, rfl, ⟨by decide, rfl⟩, rfl, by decide, rfl, rfl, rfl, by decide, rfl, by decide, by decide⟩

theorem witness_ReceiveTicksFollowTheSchedule :
    ((ticking t0Tick .receive).cfg.transport = .tick ∧ (ticking t0Tick .receive).tickEn = true ∧ (ticking t0Tick .ready).fault = .none)
    ∧ 1 < ({ ticking t0Tick .receiveHeader with tCnt := 2 } : State).tCnt
    ∧ ({ ticking t0Tick .receiveHeader with tCnt := 1, tIdx := 1 } : State).tIdx = 1
    ∧ 1 < ({ ticking t0Tick .receivePayload with tCnt := 2 } : State).tCnt
    ∧ ({ ticking t0Tick .receivePayload with tCnt := 1, tIdx := 64 } : State).tCnt = 1
    ∧ drawByte (answering [0x41] (ticking t0Tick .receivePayload)).env = (0x41, (ticking t0Tick .receivePayload).env) :=
  ⟨⟨rfl, rfl, rfl⟩, by decide, rfl, by decide, rfl, rfl⟩

theorem witness_MaskedTicksAreLost : (attached t0).cfg.transport = .blocking ∧ (attached t0Tick).tickEn = false
    ∧ ({ ticking t0Tick .send with fault := .sequence } : State).fault ≠ .none := ⟨rfl, rfl, by decide⟩

/-- The empty frame, answered by ACK and by another byte. -/
theorem witness_TransmitTakesItsTicks :
    (t0Tick.transport = .tick ∧ (ticking t0Tick .start).tickEn = true ∧ (ticking t0Tick .start).fault = .none
      ∧ outRead { ticking t0Tick .start with outBuf := [(0, 0x12), (1, 0), (2, 0x12)] } 1 = some 0
      ∧ readRange [(0, 0x12), (1, 0), (2, 0x12)] 0 ((0 : Byte).toNat + 3) = some [0x12, 0, 0x12])
    ∧ drawByte { Env.initial with rx := [0x06] } = (t0Tick.ack, Env.initial)
    ∧ drawByte { Env.initial with rx := [0x15] } = (0x15, Env.initial) ∧ (0x15 : Byte) ≠ t0Tick.ack ∧ t0Tick.retryLimit = none :=
  ⟨⟨rfl, rfl, rfl, rfl, rfl⟩, rfl, rfl, by decide, rfl⟩

theorem witness_ReceiveTakesItsTicks :
    t0Tick.transport = .tick ∧ (ticking t0Tick .receive).tickEn = true ∧ (ticking t0Tick .receive).fault = .none
    ∧ (ticking t0Tick .receive).tstate = .receive ∧ (ticking t0Tick .receive).inLen = 0 ∧ (ticking t0Tick .receive).inOvf = false
    ∧ (answering [0x11, 0, 0] (ticking t0Tick .receive)).env.rx = 0x11 :: 0 :: [0] ++ [] ∧ [(0 : Byte)].length = (0 : Byte).toNat + 1 :=
  ⟨rfl, rfl, rfl, rfl, rfl, rfl, rfl, rfl⟩

theorem witness_TicksLeaveTheFrameAndTheSession : ∃ t, ticks 2 (ticking t0Tick .receive) = .next t := ⟨_, rfl⟩

/-- Below the ceiling, and at it. -/
theorem witness_HandshakeBytesDecide : (ticking t0RetryTick .receiveAck).tstate = .receiveAck ∧ (ticking t0RetryTick .receiveAck).fault = .none
    ∧ (0x15 : Byte) ≠ t0RetryTick.ack ∧ t0RetryTick.retryLimit = some 1 ∧ (ticking t0RetryTick .receiveAck).tRetries + 1 ≤ 1
    ∧ 1 < ({ ticking t0RetryTick .receiveAck with tRetries := 1 } : State).tRetries + 1 :=
  ⟨rfl, rfl, by decide, rfl, by decide, by decide⟩

/-- Every slot but `i` holds a widget. -/
def allBut (i : Nat) : State :=
  { attached t0 with slots := (List.replicate 16 { cb := some 1, user := none, rect := Rect.zero, enabled := true }).set i Slot.empty }

/-- The last slot from the front, and the full table. -/
theorem witness_CodeWidgetsTakeTheLowestEmptySlot : Accepting (allBut 15) ∧ (allBut 15).slots.length = t0.nSlots
    ∧ (15 < t0.nSlots ∧ (slotAt (allBut 15) 15).cb = none ∧ ∀ j, j < 15 → (slotAt (allBut 15) j).cb ≠ none)
    ∧ ∀ i, i < t0.nSlots → (slotAt (allBut 16) i).cb ≠ none := by
  refine ⟨⟨rfl, rfl⟩, rfl, ⟨by decide, rfl, by decide⟩, by decide⟩

/-- The last slot from the back, and the full table. -/
theorem witness_AreasTakeTheHighestEmptySlot : Accepting (allBut 0) ∧ (allBut 0).slots.length = t0.nSlots
    ∧ (⟨65535, 0, 0, 65535⟩ : RawRect).wf = true
    ∧ (0 < t0.nSlots ∧ (slotAt (allBut 0) 0).cb = none ∧ ∀ j, 0 < j → j < t0.nSlots → (slotAt (allBut 0) j).cb ≠ none)
    ∧ (areaWidget (allBut 0).window (.allocArea ⟨65535, 0, 0, 65535⟩ (some 1) none)).isSome = true
    ∧ ∀ i, i < t0.nSlots → (slotAt (allBut 16) i).cb ≠ none := by
  refine ⟨⟨rfl, rfl⟩, rfl, by decide, ⟨by decide, rfl, ?_⟩, rfl, by decide⟩
  intro j h h'
  have : ∀ j, j < 16 → 0 < j → (slotAt (allBut 0) j).cb ≠ none := by decide
  exact this j h' h

/-- Sixteen allocations of both kinds fill the table. -/
theorem witness_AllocationsNeverCollide :
    Accepting (attached t0) ∧ (attached t0).slots = List.replicate t0.nSlots Slot.empty
    ∧ (∀ i ∈ Instr.allocCode (some 1) none :: List.replicate 15 (.allocArea ⟨0, 0, 1, 1⟩ (some 2) none), isAlloc i = true)
    ∧ (Instr.allocCode (some 1) none :: List.replicate 15 (.allocArea ⟨0, 0, 1, 1⟩ (some 2) none)).length = t0.nSlots :=
  ⟨⟨rfl, rfl⟩, rfl, by decide, rfl⟩

theorem witness_FreeSendsTheRemoveCommandThenClears :
    Accepting (answering [0x06] widgets) ∧ widgets.pos = .idle ∧ t0.transport = .blocking ∧ widgets.state = .ready ∧ widgets.tstate = .ready
    ∧ widgets.ctrl = t0.ctrlNoresp ∧ readRange widgets.outBuf 2 widgets.outLen = some [] ∧ sum8 [] = widgets.outSum
    ∧ widgets.slots.length = t0.nSlots ∧ 15 < t0.nSlots ∧ (slotAt widgets 15).cb ≠ none
    ∧ removeBytes widgets 15 = some [65, 86, 100, 0, 60, 0, 1] ∧ fits (0x1B :: [65, 86, 100, 0, 60, 0, 1]) widgets
    ∧ (answering [0x06] widgets).env.rx = t0.ack :: [] :=
  ⟨⟨rfl, rfl⟩, rfl, rfl, rfl, rfl, rfl, rfl, rfl, rfl, by decide, by decide, by decide, by unfold fits; decide, rfl⟩

/-- A remove command that lacks one byte of room, and one of which nothing fits. -/
theorem witness_FreeSendsTheRemoveCommandThenClears_full :
    (Staging { widgets with outLen := 54 } ∧ widgets.pos = .idle ∧ 15 < t0.nSlots ∧ (slotAt widgets 15).cb ≠ none
      ∧ removeBytes { widgets with outLen := 54 } 15 = some [65, 86, 100, 0, 60, 0, 1]
      ∧ 54 + 3 ≤ t0.cOut ∧ ¬ fits (0x1B :: [65, 86, 100, 0, 60, 0, 1]) { widgets with outLen := 54 })
    ∧ Staging { widgets with outLen := 61 } ∧ 61 + 3 ≤ t0.cOut ∧ ¬ fits (0x1B :: [65, 86, 100, 0, 60, 0, 1]) { widgets with outLen := 61 } :=
  ⟨⟨⟨⟨rfl, rfl⟩, rfl⟩, rfl, by decide, by decide, by decide, by decide, by unfold fits; decide⟩, ⟨⟨rfl, rfl⟩, rfl⟩, by decide,
    by unfold fits; decide⟩

/-- The first index outside the table, and an empty slot. -/
theorem witness_BadSlotsFault : Accepting widgets ∧ widgets.pos = .idle ∧ t0.nSlots ≤ 16 ∧ (slotAt widgets 1).cb = none ∧ 1 < 2 :=
  ⟨⟨rfl, rfl⟩, rfl, by decide, rfl, by decide⟩

theorem witness_AllocationAndRemovalAreAtomic : (∃ t, exec (.allocCode (some 5) none) widgets = .next t)
    ∧ (∃ t, exec (.allocArea ⟨0, 0, 1, 1⟩ (some 5) none) widgets = .next t) ∧ ∃ t, exec (.free 16) widgets = .next t :=
  ⟨⟨_, rfl⟩, ⟨_, rfl⟩, _, rfl⟩

theorem witness_OccupiedSlotsKeepTheirWidget : (∃ t, exec (.setEnabled 15 0) widgets = .next t) ∧ (slotAt widgets 15).cb ≠ none
    ∧ Instr.setEnabled 15 0 ≠ .free 15 ∧ Instr.setEnabled 15 0 ≠ .reset
    ∧ (∃ t, exec (.setEnabled 0 0) widgets = .next t) ∧ ∀ e, Instr.setEnabled 0 0 ≠ .setEnabled 15 e :=
  ⟨⟨_, rfl⟩, by decide, by decide, by decide, ⟨_, rfl⟩, by intro e h; cases h⟩

theorem witness_SetEnabledWritesOneBit : Accepting widgets ∧ widgets.slots.length = t0.nSlots ∧ 15 < t0.nSlots
    ∧ (slotAt widgets 15).cb ≠ none ∧ 1 < 2 := ⟨⟨rfl, rfl⟩, rfl, by decide, by decide, by decide⟩

theorem witness_WindowAndHookAreWrittenWhole : Accepting widgets ∧ (⟨65535, 65535, 65535, 65535⟩ : RawRect).wf = true := ⟨⟨rfl, rfl⟩, by decide⟩

theorem witness_RegistryFaultAndAttachmentHaveFewWriters :
    (∃ t, exec .isReady widgets = .next t) ∧ writesRegistry .isReady = false ∧ Instr.isReady ≠ .reset ∧ Instr.isReady ≠ .setup
    ∧ ({ widgets with fault := .badSlot } : State).fault ≠ .none ∧ ∃ t, exec .isReady { widgets with fault := .badSlot } = .next t :=
  ⟨⟨_, rfl⟩, rfl, by decide, by decide, by decide, _, rfl⟩

/-- The corner, one unit beyond each edge, and one unit before each origin, of the area (50, 10, 100, 100) in the highest slot. -/
theorem witness_RectanglesAreInclusiveOnBothEdges : 15 < t0.nSlots ∧ (slotAt widgets 15).cb ≠ none
    ∧ (∀ j, 15 < j → j < t0.nSlots → ¬ PointInSlot widgets j 150 110) ∧ (slotAt widgets 15).rect = ⟨50, 10, 100, 100⟩
    ∧ (150 : U16).toNat = 50 + 100 ∧ (110 : U16).toNat = 10 + 100 ∧ (151 : U16).toNat = 50 + 100 + 1 ∧ (111 : U16).toNat = 10 + 100 + 1
    ∧ 1 ≤ (50 : U16).toNat ∧ 1 ≤ (10 : U16).toNat ∧ (49 : U16).toNat + 1 = 50 ∧ (9 : U16).toNat + 1 = 10 := by
  refine ⟨by decide, by decide, ?_, by decide, by decide, by decide, by decide, by decide, by decide, by decide, by decide, by decide⟩
  intro j h h'
  have : j < 16 := h'
  omega

/-- Dispatching in EVENT. -/
theorem dispatching : Dispatching eventing := ⟨rfl, fun _ => rfl, rfl⟩

/-- Code 0 and the first code above the table; an empty slot's code; the highest code. -/
theorem witness_ButtonCodesResolveByIndex : Dispatching eventing ∧ (0 : BitVec 7).toNat = 0 ∧ t0.nSlots < (17 : BitVec 7).toNat
    ∧ ((slotAt eventing ((2 : BitVec 7).toNat - 1)).cb = none) ∧ 1 ≤ (16 : BitVec 7).toNat ∧ (16 : BitVec 7).toNat ≤ t0.nSlots
    ∧ (slotAt eventing ((16 : BitVec 7).toNat - 1)).cb = some 9 := by
  refine ⟨dispatching, rfl, by decide, by decide, by decide, by decide, by decide⟩

theorem witness_TouchSubBytesDispatchTheHit : Dispatching eventing ∧ (hitTest eventing 50 10 = some 15 ∧ (slotAt eventing 15).cb = some 9)
    ∧ hitTest eventing 49 10 = none ∧ (3 : Byte) ≠ 0 ∧ (3 : Byte) ≠ 1 ∧ (3 : Byte) ≠ 2 := by
  refine ⟨dispatching, by decide, by decide, by decide, by decide, by decide⟩

theorem witness_EventsDispatchThenCallTheHook : Dispatching eventing
    ∧ ((Instr.evButton [0x41]).wf t0 = true ∧ ([0x41] : List Byte).getLast? = some 0x41)
    ∧ ((Instr.evTouch [0x48, 1, 0, 0, 0]).wf t0 = true ∧ ([0x48, 1, 0, 0, 0] : List Byte).length ≠ t0.touchLen)
    ∧ ((Instr.evTouch [0x48, 1, 2, 3, 4, 5]).wf t0 = true ∧ ([0x48, 1, 2, 3, 4, 5] : List Byte).length = t0.touchLen
      ∧ ([0x48, 1, 2, 3, 4, 5] : List Byte)[t0.offSub]? = some 1 ∧ ([0x48, 1, 2, 3, 4, 5] : List Byte)[t0.offX]? = some 2
      ∧ ([0x48, 1, 2, 3, 4, 5] : List Byte)[t0.offX + 1]? = some 3 ∧ ([0x48, 1, 2, 3, 4, 5] : List Byte)[t0.offY]? = some 4
      ∧ ([0x48, 1, 2, 3, 4, 5] : List Byte)[t0.offY + 1]? = some 5)
    ∧ (Instr.evUnknown [0]).wf t0 = true := by
  refine ⟨dispatching, by decide, by decide, by decide, by decide⟩

theorem witness_SingleCorruptionsAreDetected : inboundSumOk 2 [0x41, 0x81] 0xC4 = true ∧ ([0x41, 0x81] : List Byte)[1]? = some 0x81
    ∧ (0x82 : Byte) ≠ 0x81 ∧ (0xC5 : Byte) ≠ 0xC4 := by decide

/-- A frame of one byte, staged and not yet armed, is a good state. -/
theorem good_staged : GoodState (scheduled [.host] [host 0x08 []] (staged1 t0)) where
  memory := ⟨rfl, rfl, fun i hi => by
    have : 64 ≤ i := hi
    simp [outRead, scheduled, staged1, readMem]; omega, fun _ _ => rfl⟩
  codec := ⟨by decide, [0x41], rfl, rfl⟩
  session := ⟨.inl rfl, fun _ _ => rfl, fun h => absurd rfl h, (fun h => nomatch h)⟩
  transport := ⟨(fun h => nomatch h), (fun h => nomatch h), (fun h => nomatch h), (fun h => nomatch h), (fun h => nomatch h), (fun h => nomatch h),
    (fun h => by rcases h with h | h <;> cases h), (fun h => nomatch h), Nat.zero_le _⟩
  line := ⟨fun _ => ⟨rfl, rfl⟩, fun h => nomatch (show Transport.blocking = .tick from h)⟩
  table := ⟨rfl, fun _ hv _ => List.eq_of_mem_replicate hv⟩

theorem witness_EveryStepKeepsGoodStates : GoodState (scheduled [.host] [host 0x08 []] (staged1 t0))
    ∧ ∃ t, step (scheduled [.host] [host 0x08 []] (staged1 t0)) = .next t := ⟨good_staged, _, rfl⟩

theorem witness_GoodStatesNeverStop : GoodState (scheduled [.host] [host 0x08 []] (staged1 t0)) := good_staged

end Sys2Proof.Tests
end

section
/-! SUPPORT. The configuration (00_scope.md R7, R8). -/

namespace Sys2Proof.Machine

/-- R8's decision procedure decides R7's constraint column. -/
theorem valid_iff_configConstraints (r : RawCfg) : r.valid = true ↔ ConfigConstraints r := by
  simp only [RawCfg.valid, ConfigConstraints, Bool.and_eq_true, decide_eq_true_eq]
  have room : ∀ k : Nat, 4 ≤ r.cOut → (k ≤ r.cOut - 3 ↔ k + 3 ≤ r.cOut) := by omega
  constructor
  · rintro ⟨⟨⟨⟨⟨⟨⟨⟨⟨⟨⟨⟨hSlots, hOut⟩, hIn⟩, hEsc⟩, hCtrl⟩, hAck⟩, hPoll⟩, hEv⟩, hCmd⟩, hOff⟩, hSub⟩, hCode⟩, hPoint⟩
    exact ⟨hSlots.1, hSlots.2, hOut.1, hOut.2, hIn, hEsc, hCtrl, hAck, (room _ hOut.1).1 hPoll, hEv, hCmd, hOff.1, hOff.2.1, hOff.2.2,
      hSub.1, hSub.2.1, hSub.2.2, hCode, hPoint⟩
  · rintro ⟨hs1, hs2, ho1, ho2, hIn, hEsc, hCtrl, hAck, hPoll, hEv, hCmd, hf1, hf2, hf3, hb1, hb2, hb3, hCode, hPoint⟩
    exact ⟨⟨⟨⟨⟨⟨⟨⟨⟨⟨⟨⟨⟨hs1, hs2⟩, ho1, ho2⟩, hIn⟩, hEsc⟩, hCtrl⟩, hAck⟩, (room _ ho1).2 hPoll⟩, hEv⟩, hCmd⟩, hf1, hf2, hf3⟩,
      hb1, hb2, hb3⟩, hCode⟩, hPoint⟩

/-- R8 refuses a configuration exactly where its decision procedure fails. -/
theorem ofRaw_isSome_iff (r : RawCfg) : (Cfg.ofRaw r).isSome = true ↔ r.valid = true := by
  unfold Cfg.ofRaw
  split <;> simp [*]

/-- Every configuration keeps R7's constraints, since it carries the proof that it does. -/
theorem configConstraints_cfg (c : Cfg) : ConfigConstraints c.toRawCfg := (valid_iff_configConstraints _).1 c.ok

/-- Settles O5: the decision procedure spells out R7's column, and a configuration carries its own acceptance. -/
theorem configurationsKeepTheirConstraints : Obligations.ConfigurationsKeepTheirConstraints :=
  ⟨fun r => (ofRaw_isSome_iff r).trans (valid_iff_configConstraints r), fun s => configConstraints_cfg s.cfg⟩

end Sys2Proof.Machine
end

section
/-! SUPPORT. Driving (00_scope.md R14): what a session step keeps, what the EVENT step emits, and where a driving loop waits, goes on or ends. -/

namespace Sys2Proof.Machine

/-! ## What a step of a driving loop keeps -/

/-- What every part of a driving loop that runs to its end leaves as it was: the configuration, the attachment, the fault register, the
widget table and the host's place. The count of free answers drawn only grows. -/
structure DrivingKeeps (s t : State) : Prop where
  cfg : t.cfg = s.cfg
  attached : t.attached = s.attached
  fault : t.fault = s.fault
  slots : t.slots = s.slots
  pos : t.pos = s.pos
  drawn : s.env.rxCount ≤ t.env.rxCount

theorem DrivingKeeps.refl (s : State) : DrivingKeeps s s := ⟨rfl, rfl, rfl, rfl, rfl, Nat.le_refl _⟩

theorem DrivingKeeps.trans {s t u : State} (h : DrivingKeeps s t) (g : DrivingKeeps t u) : DrivingKeeps s u :=
  ⟨g.cfg.trans h.cfg, g.attached.trans h.attached, g.fault.trans h.fault, g.slots.trans h.slots, g.pos.trans h.pos,
    Nat.le_trans h.drawn g.drawn⟩

theorem drawByte_rxCount_le (e : Env) : e.rxCount ≤ (drawByte e).2.rxCount := by
  unfold drawByte
  split <;> simp

theorem busRx_keeps (s : State) : (busRx s).2.fault = s.fault ∧ s.env.rxCount ≤ (busRx s).2.env.rxCount :=
  ⟨rfl, drawByte_rxCount_le s.env⟩

theorem rxByte_keeps (s : State) : (rxByte s).fault = s.fault ∧ s.env.rxCount ≤ (rxByte s).env.rxCount := by
  rw [rxByte_eq s _ _ rfl]
  exact ⟨rfl, drawByte_rxCount_le s.env⟩

/-- A transport step that does not raise leaves the fault register, and draws answers only. -/
theorem transportStep_ok_keeps_fault {s t : State} (h : transportStep s = .ok t) :
    t.fault = s.fault ∧ s.env.rxCount ≤ t.env.rxCount := by
  cases hst : s.tstate <;> simp only [transportStep, hst] at h
  case start =>
    unfold tickStart at h
    split at h <;> cases h
    simp
  case send =>
    unfold tickSend at h
    split at h
    · split at h <;> cases h
      simp
    · cases h
      simp
  case wait =>
    unfold tickWait at h
    split at h <;> cases h
    · simp
    · obtain ⟨hf, hd⟩ := busRx_keeps (s.setCs true)
      exact ⟨hf.trans (setCs_fault s true), Nat.le_trans (by simp) hd⟩
  case receiveAck =>
    unfold tickReceiveAck handshakeAck handshakeNak at h
    split at h
    · cases h
      simp
    · simp only at h
      split at h
      · cases h
      · cases h
        simp
  case receive =>
    cases h
    simp
  case receiveHeader =>
    unfold tickReceiveHeader at h
    simp only at h
    split at h
    · split at h <;> cases h
      exact rxByte_keeps s
    · cases h
      exact rxByte_keeps s
  case receivePayload =>
    unfold tickReceivePayload at h
    simp only at h
    split at h <;> cases h <;> exact rxByte_keeps s
  case ready =>
    cases h
    simp

theorem transportStep_ok_keeps {s t : State} (h : transportStep s = .ok t) : DrivingKeeps s t := by
  obtain ⟨hf, hd⟩ := transportStep_ok_keeps_fault h
  have hw : TransportWrites s t := by simpa [h, Res.ends] using transportStep_writes s
  exact ⟨by rw [hw], by rw [hw], hf, by rw [hw], by rw [hw], hd⟩

theorem runTransfer_ok_keeps (n : Nat) : ∀ {s t : State}, runTransfer n s = .ok t → DrivingKeeps s t := by
  induction n with
  | zero =>
    intro s t h
    unfold runTransfer at h
    split at h <;> cases h
    exact .refl s
  | succ n ih =>
    intro s t h
    by_cases hr : s.tstate = .ready
    · rw [runTransfer_ready _ _ hr] at h
      cases h
      exact .refl s
    · rw [runTransfer_succ _ _ hr] at h
      cases hx : transportStep s <;> rw [hx] at h <;>
        simp only [andThen_ok, andThen_wait, andThen_raised, andThen_stop, reduceCtorEq] at h
      exact (transportStep_ok_keeps hx).trans (ih h)

theorem drawHandshakes_rxCount_le (s : State) : s.env.rxCount ≤ (drawHandshakes s).env.rxCount := by
  unfold drawHandshakes
  split
  · exact Nat.le_refl _
  · split
    · exact Nat.le_trans (Nat.le_add_right _ _) (Nat.le_succ _)
    · exact Nat.le_succ _

theorem drawHandshakes_keeps (s : State) : DrivingKeeps s (drawHandshakes s) := by
  have hw := drawHandshakes_writes s
  exact ⟨by rw [hw], by rw [hw], by rw [hw], by rw [hw], by rw [hw], drawHandshakes_rxCount_le s⟩

/-- A `transmit()` that ends; in `Blocking` it leaves the transport ready. -/
theorem transmit_ok_keeps {s t : State} (h : transmit s = .ok t) :
    DrivingKeeps s t ∧ (s.cfg.transport = .blocking → t.tstate = .ready) := by
  unfold transmit at h
  split at h
  next hv =>
    cases h
    exact ⟨⟨rfl, rfl, rfl, rfl, rfl, Nat.le_refl _⟩, fun hb => by simp [hv] at hb⟩
  next =>
    refine ⟨?_, fun _ => runTransfer_ok_ready _ _ _ h⟩
    have hk := drawHandshakes_keeps s
    have hr := runTransfer_ok_keeps _ h
    split at hr
    · exact hk.trans ⟨hr.cfg, hr.attached, hr.fault, hr.slots, hr.pos, hr.drawn⟩
    · exact hk.trans hr

/-- A `receive()` that ends; in `Blocking` it leaves the transport ready. -/
theorem receive_ok_keeps {s t : State} (h : receive s = .ok t) :
    DrivingKeeps s t ∧ (s.cfg.transport = .blocking → t.tstate = .ready) := by
  unfold receive at h
  split at h
  next hv =>
    cases h
    exact ⟨⟨rfl, rfl, rfl, rfl, rfl, Nat.le_refl _⟩, fun hb => by simp [hv] at hb⟩
  next =>
    refine ⟨?_, fun _ => runTransfer_ok_ready _ _ _ h⟩
    have hr := runTransfer_ok_keeps _ h
    split at hr
    · exact ⟨hr.cfg, hr.attached, hr.fault, hr.slots, hr.pos, hr.drawn⟩
    · exact hr

/-! ## The EVENT step -/

/-- The records the EVENT step emits for a frame of declared length `n`, read off the inbound buffer (41_session.md R115); `none` where a
byte of the frame was never written. -/
def eventRecords (s : State) (n : Byte) : Option (List Event) :=
  if n = 0 then some []
  else if s.inOvf then some [.diag .inboundOverflow]
  else (inFrame s n.toNat).map fun f => if sum8 (n :: f.1) = f.2 then payloadEvents s f.1 else [.diag .checksumMismatch]

theorem eventFrame_eq_records (n : Byte) (s : State) :
    eventFrame n s = match eventRecords s n with
      | some l => .ok (s.withEvents l)
      | none => .stop .unwrittenIn := by
  unfold eventRecords
  by_cases hn : n = 0
  · simp [hn, eventFrame, withEvents_nil]
  · by_cases ho : s.inOvf = true
    · simp only [eventFrame, if_neg hn, if_pos ho]
      rfl
    · rw [if_neg hn, if_neg ho]
      cases hp : readRange s.inBuf 2 n.toNat with
      | none => simp only [eventFrame, if_neg hn, if_neg ho, inFrame, hp, Option.map_none]
      | some p =>
        cases ht : inRead s (2 + n.toNat) with
        | none => simp only [eventFrame, if_neg hn, if_neg ho, inFrame, hp, ht, Option.map_none]
        | some trailer =>
          rw [eventFrame_eq s n p trailer hp ht hn (by simpa using ho)]
          simp [inFrame, hp, ht]

/-- The EVENT step appends its records and goes to RESET. -/
theorem eventStep_eq_records (s : State) :
    eventStep s = match (inRead s 1).bind (eventRecords s) with
      | some l => .ok { s.withEvents l with state := .reset }
      | none => .stop .unwrittenIn := by
  unfold eventStep
  cases inRead s 1 with
  | none => rfl
  | some n =>
    simp only [eventFrame_eq_records, Option.bind_some]
    cases eventRecords s n <;> rfl

theorem eventStep_ok {s t : State} (h : eventStep s = .ok t) : ∃ l, t = { s.withEvents l with state := .reset } := by
  rw [eventStep_eq_records] at h
  split at h
  next l _ => exact ⟨l, (Res.ok.inj h).symm⟩
  next => cases h

/-! ## The session step outside READY -/

/-- How many steps lead from a session state to READY at most (41_session.md R117). -/
def stepsToReady : SessionState → Nat
  | .ready => 0
  | .reset => 1
  | .event => 2
  | .receive => 3
  | .transmit => 4

theorem stepsToReady_eq_zero {x : SessionState} : stepsToReady x = 0 ↔ x = .ready := by
  cases x <;> simp [stepsToReady]

theorem stepsToReady_le_four (x : SessionState) : stepsToReady x ≤ 4 := by
  cases x <;> decide

/-- The state after TRANSMIT is nearer to READY, and is not READY yet (41_session.md R113). -/
theorem session_after_transmit (x : NextState) : stepsToReady x.session < stepsToReady .transmit ∧ x.session ≠ .ready := by
  cases x <;> decide

theorem sessionArm_ready {s : State} (h : s.state = .ready) : sessionArm s = pollStep s := by
  unfold sessionArm
  rw [h]

theorem sessionArm_transmit {s : State} (h : s.state = .transmit) : sessionArm s = transmitStep s := by
  unfold sessionArm
  rw [h]

theorem sessionArm_receive {s : State} (h : s.state = .receive) : sessionArm s = receiveStep s := by
  unfold sessionArm
  rw [h]

theorem sessionArm_event {s : State} (h : s.state = .event) : sessionArm s = eventStep s := by
  unfold sessionArm
  rw [h]

theorem sessionArm_reset {s : State} (h : s.state = .reset) : sessionArm s = resetStep s := by
  unfold sessionArm
  rw [h]

/-- In `Tick` `transmit()` starts the transfer and returns (42_transport.md R127). -/
theorem transmit_tick {s : State} (h : s.cfg.transport = .tick) :
    transmit s = .ok { s with tstate := .start, tRetries := 0, tickEn := true } := by
  unfold transmit
  rw [h]

/-- In `Tick` `receive()` starts the transfer and returns (42_transport.md R128). -/
theorem receive_tick {s : State} (h : s.cfg.transport = .tick) :
    receive s = .ok { s with inLen := 0, inOvf := false, tstate := .receive, tickEn := true } := by
  unfold receive
  rw [h]

theorem transmitStep_tick {s : State} (h : s.cfg.transport = .tick) :
    transmitStep s = .ok { s with tstate := .start, tRetries := 0, tickEn := true, state := s.nextState.session } := by
  rw [transmitStep, transmit_tick h]
  rfl

theorem receiveStep_tick {s : State} (h : s.cfg.transport = .tick) :
    receiveStep s = .ok { s with inLen := 0, inOvf := false, tstate := .receive, tickEn := true, state := .event } := by
  rw [receiveStep, receive_tick h]
  rfl

/-- Everything a session step outside READY can do where it runs to its end: it keeps what a driving loop keeps and comes nearer to READY,
which it reaches with nothing staged. In `Blocking` it leaves a ready transport ready. -/
theorem sessionArm_ok {s t : State} (hs : s.state ≠ .ready) (h : sessionArm s = .ok t) :
    DrivingKeeps s t ∧ stepsToReady t.state < stepsToReady s.state ∧ (t.state = .ready → t.outLen = 0)
      ∧ (s.cfg.transport = .blocking → s.tstate = .ready → t.tstate = .ready) := by
  cases hst : s.state
  case ready => exact absurd hst hs
  case transmit =>
    rw [sessionArm_transmit hst, transmitStep] at h
    cases hx : transmit s <;> rw [hx] at h <;> cases h
    next u =>
      obtain ⟨hk, hr⟩ := transmit_ok_keeps hx
      obtain ⟨hlt, hne⟩ := session_after_transmit u.nextState
      exact ⟨hk.trans ⟨rfl, rfl, rfl, rfl, rfl, Nat.le_refl _⟩, hlt, fun h => absurd h hne, fun hb _ => hr hb⟩
  case receive =>
    rw [sessionArm_receive hst, receiveStep] at h
    cases hx : receive s <;> rw [hx] at h <;> cases h
    next u =>
      obtain ⟨hk, hr⟩ := receive_ok_keeps hx
      exact ⟨hk.trans ⟨rfl, rfl, rfl, rfl, rfl, Nat.le_refl _⟩, by simp [stepsToReady], (fun h => nomatch h), fun hb _ => hr hb⟩
  case event =>
    obtain ⟨l, rfl⟩ := eventStep_ok (sessionArm_event hst ▸ h)
    exact ⟨⟨rfl, rfl, rfl, rfl, rfl, Nat.le_refl _⟩, by simp [stepsToReady], (fun h => nomatch h), fun _ ht => ht⟩
  case reset =>
    rw [sessionArm_reset hst] at h
    cases h
    exact ⟨⟨rfl, rfl, rfl, rfl, rfl, Nat.le_refl _⟩, by simp [stepsToReady], fun _ => rfl, fun _ ht => ht⟩

theorem sessionStep_ready {s : State} (h : isReady s = true) : sessionStep s = sessionArm s := by simp [sessionStep, h]

theorem isReady_blocking {s : State} (h : s.cfg.transport = .blocking) : isReady s = true := by simp [isReady, h]

theorem isReady_tick {s : State} (h : s.cfg.transport = .tick) : isReady s = decide (s.tstate = .ready) := by simp [isReady, h]

/-- A session step that runs to its end was one of the arms. -/
theorem sessionStep_ok {s t : State} (h : sessionStep s = .ok t) : sessionArm s = .ok t := by
  unfold sessionStep at h
  split at h
  · exact h
  · cases h

/-! ## Driving loops -/

/-- Iterations beyond the steps to READY are not made. -/
theorem driveLoop_fuel (n : Nat) : ∀ s : State, stepsToReady s.state ≤ n → driveLoop (n + 1) s = driveLoop n s := by
  induction n with
  | zero =>
    intro s h
    have hs : s.state = .ready := stepsToReady_eq_zero.1 (Nat.le_zero.1 h)
    by_cases hf : s.fault = .none
    · rw [driveLoop_ready _ _ hf hs, driveLoop_ready _ _ hf hs]
    · rw [driveLoop_halted _ _ hf, driveLoop_halted _ _ hf]
  | succ n ih =>
    intro s h
    by_cases hf : s.fault = .none
    · by_cases hs : s.state = .ready
      · rw [driveLoop_ready _ _ hf hs, driveLoop_ready _ _ hf hs]
      · rw [driveLoop_succ _ _ hf hs, driveLoop_succ _ _ hf hs]
        cases hx : sessionStep s with
        | ok t =>
          obtain ⟨_, hlt, _⟩ := sessionArm_ok hs (sessionStep_ok hx)
          exact ih t (by omega)
        | wait t => rfl
        | raised t => rfl
        | stop f => rfl
    · rw [driveLoop_halted _ _ hf, driveLoop_halted _ _ hf]

/-- A driving loop begun in READY makes no step. -/
theorem driveLoop_ok_of_ready {n : Nat} {s t : State} (hs : s.state = .ready) (h : driveLoop n s = .ok t) : t = s := by
  by_cases hf : s.fault = .none
  · rw [driveLoop_ready _ _ hf hs] at h
    exact (Res.ok.inj h).symm
  · rw [driveLoop_halted _ _ hf] at h
    cases h

/-- A driving loop that ends keeps what its steps keep, and where it made one, nothing is staged. -/
theorem driveLoop_ok_keeps (n : Nat) : ∀ {s t : State}, driveLoop n s = .ok t →
    DrivingKeeps s t ∧ (s.state ≠ .ready → t.outLen = 0) := by
  induction n with
  | zero =>
    intro s t h
    by_cases hs : s.state = .ready
    · obtain rfl := driveLoop_ok_of_ready hs h
      exact ⟨.refl t, fun hn => absurd hs hn⟩
    · unfold driveLoop at h
      split at h <;> cases h
  | succ n ih =>
    intro s t h
    by_cases hs : s.state = .ready
    · obtain rfl := driveLoop_ok_of_ready hs h
      exact ⟨.refl t, fun hn => absurd hs hn⟩
    · by_cases hf : s.fault = .none
      · rw [driveLoop_succ _ _ hf hs] at h
        cases hx : sessionStep s <;> rw [hx] at h <;>
          simp only [andThen_ok, andThen_wait, andThen_raised, andThen_stop, reduceCtorEq] at h
        next u =>
          obtain ⟨hk, _, hl, _⟩ := sessionArm_ok hs (sessionStep_ok hx)
          obtain ⟨hk', hl'⟩ := ih h
          refine ⟨hk.trans hk', fun _ => ?_⟩
          by_cases hu : u.state = .ready
          · rw [driveLoop_ok_of_ready hu h]
            exact hl hu
          · exact hl' hu
      · rw [driveLoop_halted _ _ hf] at h
        cases h

/-- In `Blocking` a loop outside READY takes the session step and goes on from the state after it. -/
theorem drive_blocking {s : State} (p : HostPos) (hb : s.cfg.transport = .blocking) (hf : s.fault = .none) (hs : s.state ≠ .ready) :
    drive p s = ((sessionArm s).at p).andThen (drive p) := by
  have hstep : drive p s = ((sessionArm s).andThen (driveLoop 3)).at p := by
    rw [drive, driveFuel, hb, driveLoop_succ _ _ hf hs, sessionStep_ready (isReady_blocking hb)]
  rw [hstep]
  cases hx : sessionArm s with
  | ok t =>
    obtain ⟨hk, hlt, _⟩ := sessionArm_ok hs hx
    have hrank := stepsToReady_le_four s.state
    simp only [andThen_ok, at_ok, drive, driveFuel, hk.cfg, hb]
    rw [driveLoop_fuel 3 t (by omega)]
  | wait t => rfl
  | raised t => rfl
  | stop f => rfl

/-- In `Tick` a loop outside READY takes at most one session step, and waits if that does not lead to READY. -/
theorem drive_tick {s : State} (p : HostPos) (hv : s.cfg.transport = .tick) (hf : s.fault = .none) (hs : s.state ≠ .ready) :
    drive p s = ((sessionStep s).andThen (driveLoop 0)).at p := by
  rw [drive, driveFuel, hv, driveLoop_succ _ _ hf hs]

/-- In `Tick` a loop waits while the transport is busy, and nothing changes. -/
theorem drive_busy {s : State} (p : HostPos) (hv : s.cfg.transport = .tick) (hf : s.fault = .none) (hs : s.state ≠ .ready)
    (ht : s.tstate ≠ .ready) : drive p s = .wait { s with pos := p } := by
  simp [drive_tick p hv hf hs, sessionStep, isReady_tick hv, ht]

/-- In `Tick` a loop waits behind a step that does not lead to READY. -/
theorem drive_tick_steps {s u : State} (p : HostPos) (hv : s.cfg.transport = .tick) (hf : s.fault = .none) (hs : s.state ≠ .ready)
    (h : sessionStep s = .ok u) (hu : u.state ≠ .ready) : drive p s = .wait { u with pos := p } := by
  obtain ⟨hk, _⟩ := sessionArm_ok hs (sessionStep_ok h)
  rw [drive_tick p hv hf hs, h, andThen_ok, driveLoop_zero _ (hk.fault.trans hf) hu, at_wait]

theorem drive_halted {s : State} (p : HostPos) (hf : s.fault ≠ .none) : drive p s = .raised s := by
  rw [drive, driveLoop_halted _ _ hf, at_raised]

theorem drive_ok_keeps {s t : State} {p : HostPos} (h : drive p s = .ok t) :
    DrivingKeeps s t ∧ (s.state ≠ .ready → t.outLen = 0) := by
  unfold drive at h
  cases hx : driveLoop (driveFuel s) s <;> rw [hx] at h <;> cases h
  exact driveLoop_ok_keeps _ hx

end Sys2Proof.Machine
end

section
/-! SUPPORT. The operations that drive the session, each as its loop and what stands behind it, and STEP's outcome read back as a session step. -/

namespace Sys2Proof.Machine

/-! ## The driving operations, as a loop and what follows it -/

/-- An operation that drives the session in the loop `p` and then goes on with `k` (00_scope.md R14). -/
def driving (p : HostPos) (k : State → Res) (s : State) : Host.Outcome State Fault Refusal :=
  ((drive p s).andThen k).toOutcome unitResult

/-- FLUSH behind its first loop (41_session.md R119). -/
def flushRest (p : HostPos) (s : State) : Res := if 0 < s.outLen then (arm s).andThen (drive p) else .ok s

/-- BEGIN_FRAME behind its loop (40_codec.md R93). -/
def beginRest (s : State) : Res := appendByte s.cfg.esc s

/-- FREE behind the loop of its BEGIN_FRAME (43_registry.md R148). -/
def freeRest (i : Nat) (s : State) : Res :=
  (beginRest s).andThen fun t => (removeCommand i t).andThen (freeFromFlush i)

/-- FREE behind the first loop of its FLUSH (43_registry.md R148). -/
def freeFlushRest (i : Nat) (s : State) : Res := (flushRest .freeingFlush s).andThen (freeClear i)

/-- FREE can begin here, on a slot in use, or goes on in its first loop (43_registry.md R148). -/
def FreeDrives (i : Nat) (s : State) : Prop :=
  (s.pos = .idle ∧ i < s.cfg.nSlots ∧ (slotAt s i).cb ≠ none) ∨ s.pos = .freeingBegin

theorem exec_flush_idle {s : State} (ha : Accepting s) (hp : s.pos = .idle) : exec .flush s = driving .flushing (flushRest .flushing) s := by
  show execFlush s = _
  rw [execFlush, hp]
  exact hostOp_run s _ _ ha.1 ha.2

theorem exec_flush_flushing {s : State} (hp : s.pos = .flushing) : exec .flush s = driving .flushing (flushRest .flushing) s := by
  show execFlush s = _
  rw [execFlush, hp]
  rfl

theorem exec_beginFrame_idle {s : State} (ha : Accepting s) (hp : s.pos = .idle) : exec .beginFrame s = driving .beginning beginRest s := by
  show execBeginFrame s = _
  rw [execBeginFrame, hp]
  exact hostOp_run s _ _ ha.1 ha.2

theorem exec_beginFrame_beginning {s : State} (hp : s.pos = .beginning) : exec .beginFrame s = driving .beginning beginRest s := by
  show execBeginFrame s = _
  rw [execBeginFrame, hp]
  rfl

theorem freeFromBegin_eq (i : Nat) (s : State) : freeFromBegin i s = (drive .freeingBegin s).andThen (freeRest i) :=
  andThen_assoc _ _ _

theorem freeFromFlush_eq (i : Nat) (s : State) : freeFromFlush i s = (drive .freeingFlush s).andThen (freeFlushRest i) :=
  andThen_assoc _ _ _

theorem slotInUse_iff (i : Nat) (s : State) : slotInUse i s = true ↔ i < s.cfg.nSlots ∧ (slotAt s i).cb ≠ none := by
  simp [slotInUse, occupied, Option.isSome_iff_ne_none]

theorem exec_free_freeingBegin {i : Nat} {s : State} (hp : s.pos = .freeingBegin) :
    exec (.free i) s = driving .freeingBegin (freeRest i) s := by
  show execFree i s = _
  rw [execFree, hp]
  simp only [freeFromBegin_eq, driving]

theorem exec_free_idle {i : Nat} {s : State} (ha : Accepting s) (hp : s.pos = .idle) (hi : i < s.cfg.nSlots)
    (hc : (slotAt s i).cb ≠ none) : exec (.free i) s = driving .freeingBegin (freeRest i) s := by
  show execFree i s = _
  rw [execFree, hp]
  simp only
  rw [hostOp_run s _ _ ha.1 ha.2, freeBody, if_pos ((slotInUse_iff i s).2 ⟨hi, hc⟩), freeFromBegin_eq]
  rfl

theorem exec_free_freeingFlush {i : Nat} {s : State} (hp : s.pos = .freeingFlush) :
    exec (.free i) s = driving .freeingFlush (freeFlushRest i) s := by
  show execFree i s = _
  rw [execFree, hp]
  simp only [freeFromFlush_eq, driving]

theorem exec_flush_drives {s : State} (ha : Accepting s) (hp : s.pos = .idle ∨ s.pos = .flushing) :
    exec .flush s = driving .flushing (flushRest .flushing) s :=
  hp.elim (exec_flush_idle ha) exec_flush_flushing

theorem exec_beginFrame_drives {s : State} (ha : Accepting s) (hp : s.pos = .idle ∨ s.pos = .beginning) :
    exec .beginFrame s = driving .beginning beginRest s :=
  hp.elim (exec_beginFrame_idle ha) exec_beginFrame_beginning

theorem exec_free_drives {i : Nat} {s : State} (ha : Accepting s) (h : FreeDrives i s) :
    exec (.free i) s = driving .freeingBegin (freeRest i) s :=
  h.elim (fun ⟨hp, hi, hc⟩ => exec_free_idle ha hp hi hc) exec_free_freeingBegin

/-! ## What a driving operation does where its loop waits, faults or goes on -/

theorem driving_wait {p : HostPos} {s t : State} (k : State → Res) (h : drive p s = .wait t) : driving p k s = .next t := by
  simp [driving, h]

theorem driving_raised {p : HostPos} {s t : State} (k : State → Res) (h : drive p s = .raised t) :
    driving p k s = .next (t.ret (.fault t.fault)) := by
  simp [driving, h]

theorem driving_ok {p : HostPos} {s t : State} (k : State → Res) (h : drive p s = .ok t) :
    driving p k s = (k t).toOutcome unitResult := by
  simp [driving, h]

theorem driving_congr {p : HostPos} {s t : State} (k : State → Res) (h : drive p s = drive p t) :
    driving p k s = driving p k t := by
  simp [driving, h]

theorem driving_halted {s : State} (p : HostPos) (k : State → Res) (hf : s.fault ≠ .none) :
    driving p k s = .next (s.ret (.fault s.fault)) :=
  driving_raised k (drive_halted p hf)

/-! ## Reading STEP's outcome back -/

/-- What a delivery is taken back by: its result leaves the output, and the host is in the place `p`. -/
def undeliver (p : HostPos) (s : State) : State :=
  { s with pos := p, out := { s.out with results := s.out.results.dropLast } }

theorem undeliver_ret (p : HostPos) (r : Result) (s : State) : undeliver p (s.ret r) = { s with pos := p } := by
  simp [undeliver, State.ret]

/-- Two deliveries that end in the same state delivered the same result, from states that differ at most in the host's place. -/
theorem ret_inj {s t : State} {r r' : Result} (h : s.ret r = t.ret r') :
    r = r' ∧ ∀ p, ({ s with pos := p } : State) = { t with pos := p } := by
  have hr : (s.ret r).out.results = (t.ret r').out.results := by rw [h]
  refine ⟨by simpa using (List.append_inj' hr rfl).2, fun p => ?_⟩
  rw [← undeliver_ret p r s, h, undeliver_ret]

/-- States that differ at most in the host's place, and agree in it, are the same. -/
theorem eq_of_pos_eq {s t : State} (hp : s.pos = t.pos) (h : ∀ p, ({ s with pos := p } : State) = { t with pos := p }) : s = t :=
  calc s = { s with pos := s.pos } := rfl
    _ = { t with pos := s.pos } := h _
    _ = t := by rw [hp]

/-- STEP of an idle host where the transport is ready. -/
theorem exec_step_ready {s : State} (ha : Accepting s) (hp : s.pos = .idle) (hr : isReady s = true) :
    exec .step s = ((sessionArm s).at .stepping).toOutcome steppedResult := by
  show execStep s = _
  rw [execStep, hp]
  simp only [if_pos hr]
  exact hostOp_run s _ _ ha.1 ha.2

/-- STEP returned its `stepped`: the session step ran to its end. -/
theorem sessionArm_of_step_stepped {s u : State} (h : ((sessionArm s).at .stepping).toOutcome steppedResult = .next (u.ret .stepped)) :
    ∃ t, sessionArm s = .ok t ∧ ∀ p, ({ t with pos := p } : State) = { u with pos := p } := by
  cases hx : sessionArm s <;> rw [hx] at h <;>
    simp only [at_ok, at_wait, at_raised, at_stop, toOutcome_ok, toOutcome_wait, toOutcome_raised, toOutcome_stop, Host.Outcome.next.injEq,
      reduceCtorEq] at h
  case ok t => exact ⟨t, rfl, (ret_inj h).2⟩
  case wait t => exact absurd (congrArg State.pos h) (by simp)
  case raised t => exact absurd (ret_inj h).1 (by simp)

/-- STEP returned a fault: the session step raised it. -/
theorem sessionArm_of_step_fault {s u : State} {c : FaultCode}
    (h : ((sessionArm s).at .stepping).toOutcome steppedResult = .next (u.ret (.fault c))) :
    ∃ t, sessionArm s = .raised t ∧ t.ret (.fault t.fault) = u.ret (.fault c) := by
  cases hx : sessionArm s <;> rw [hx] at h <;>
    simp only [at_ok, at_wait, at_raised, at_stop, toOutcome_ok, toOutcome_wait, toOutcome_raised, toOutcome_stop, Host.Outcome.next.injEq,
      reduceCtorEq] at h
  case ok t => exact absurd (ret_inj h).1 (by simp [steppedResult])
  case wait t => exact absurd (congrArg State.pos h) (by simp)
  case raised t => exact ⟨t, rfl, h⟩

/-- STEP is in progress: the session step waits. -/
theorem sessionArm_of_step_wait {s u : State} (h : ((sessionArm s).at .stepping).toOutcome steppedResult = .next u) (hu : u.pos = .stepping) :
    ∃ t, sessionArm s = .wait t ∧ u = { t with pos := .stepping } := by
  cases hx : sessionArm s <;> rw [hx] at h <;>
    simp only [at_ok, at_wait, at_raised, at_stop, toOutcome_ok, toOutcome_wait, toOutcome_raised, toOutcome_stop, Host.Outcome.next.injEq,
      reduceCtorEq] at h
  case ok t => rw [← h] at hu; cases hu
  case wait t => exact ⟨t, rfl, h.symm⟩
  case raised t => rw [← h] at hu; cases hu

/-! ## `Tick`: waiting and stepping -/

/-- In `Tick` what a session step does in TRANSMIT, RECEIVE or EVENT does not depend on the host's place, and it leaves the session outside
READY. -/
theorem sessionArm_tick_pos {s t : State} {p : HostPos} (hv : s.cfg.transport = .tick)
    (hs : s.state = .transmit ∨ s.state = .receive ∨ s.state = .event) (h : sessionArm { s with pos := p } = .ok t) :
    sessionArm s = .ok { t with pos := s.pos } ∧ t.state ≠ .ready := by
  rcases hs with hs | hs | hs
  · rw [sessionArm_transmit hs, transmitStep_tick hv]
    rw [sessionArm_transmit (by exact hs), transmitStep_tick (by exact hv)] at h
    cases h
    exact ⟨rfl, (session_after_transmit _).2⟩
  · rw [sessionArm_receive hs, receiveStep_tick hv]
    rw [sessionArm_receive (by exact hs), receiveStep_tick (by exact hv)] at h
    cases h
    exact ⟨rfl, by simp⟩
  · have hrec : (inRead { s with pos := p } 1).bind (eventRecords { s with pos := p }) = (inRead s 1).bind (eventRecords s) := rfl
    rw [sessionArm_event hs, eventStep_eq_records]
    rw [sessionArm_event (by exact hs), eventStep_eq_records, hrec] at h
    cases hl : (inRead s 1).bind (eventRecords s) <;> rw [hl] at h <;> cases h
    exact ⟨rfl, by simp⟩

/-- In `Tick` a loop of a driving operation takes the step STEP takes, and waits. -/
theorem drive_tick_of_step {s u : State} (ha : Accepting s) (hv : s.cfg.transport = .tick) (ht : s.tstate = .ready)
    (hs : s.state = .transmit ∨ s.state = .receive ∨ s.state = .event)
    (h : exec .step { s with pos := .idle } = .next (u.ret .stepped)) (p : HostPos) : drive p s = .wait { u with pos := p } := by
  have hr : isReady s = true := by simp [isReady_tick hv, ht]
  rw [exec_step_ready (s := { s with pos := .idle }) ha rfl hr] at h
  obtain ⟨t, hx, hu⟩ := sessionArm_of_step_stepped h
  obtain ⟨hx', hne⟩ := sessionArm_tick_pos hv hs hx
  have hns : s.state ≠ .ready := by rcases hs with h | h | h <;> simp [h]
  rw [drive_tick_steps p hv ha.1 hns ((sessionStep_ready hr).trans hx') hne]
  exact congrArg Res.wait (hu p)

/-! ## `Blocking`: what STEP does, and then the rest -/

section
variable {s u : State}

/-- In `Blocking` a step that ran to its end leaves the host idle: STEP's next state is the state the loop goes on from. -/
theorem sessionArm_of_blocking_step (ha : Accepting s) (hb : s.cfg.transport = .blocking) (hp : s.pos = .idle) (hs : s.state ≠ .ready)
    (h : exec .step s = .next (u.ret .stepped)) (hu : u.pos = .idle) : sessionArm s = .ok u ∧ DrivingKeeps s u := by
  rw [exec_step_ready ha hp (isReady_blocking hb)] at h
  obtain ⟨t, hx, ht⟩ := sessionArm_of_step_stepped h
  obtain ⟨hk, _⟩ := sessionArm_ok hs hx
  have hpos : t.pos = u.pos := by rw [hk.pos, hp, hu]
  exact eq_of_pos_eq hpos ht ▸ ⟨hx, hk⟩

theorem accepting_of_keeps (ha : Accepting s) (hk : DrivingKeeps s u) : Accepting u := ⟨hk.fault.trans ha.1, hk.attached.trans ha.2⟩

/-- A slot in use stays in use over what a driving loop keeps. -/
theorem slot_of_keeps (hk : DrivingKeeps s u) {i : Nat} (hi : i < s.cfg.nSlots) (hc : (slotAt s i).cb ≠ none) :
    i < u.cfg.nSlots ∧ (slotAt u i).cb ≠ none := by
  rw [hk.cfg, slotAt, hk.slots]
  exact ⟨hi, hc⟩

/-- The driving operations agree on two idle states that their loops do not tell apart. -/
theorem operations_congr (ha : Accepting s) (hp : s.pos = .idle) (hk : DrivingKeeps s u) (hd : ∀ p, drive p s = drive p u) :
    exec .flush s = exec .flush u ∧ exec .beginFrame s = exec .beginFrame u
      ∧ ∀ i, i < s.cfg.nSlots → (slotAt s i).cb ≠ none → exec (.free i) s = exec (.free i) u := by
  have hau := accepting_of_keeps ha hk
  have hpu := hk.pos.trans hp
  refine ⟨?_, ?_, fun i hi hc => ?_⟩
  · rw [exec_flush_idle ha hp, exec_flush_idle hau hpu, driving_congr _ (hd _)]
  · rw [exec_beginFrame_idle ha hp, exec_beginFrame_idle hau hpu, driving_congr _ (hd _)]
  · obtain ⟨hi', hc'⟩ := slot_of_keeps hk hi hc
    rw [exec_free_idle ha hp hi hc, exec_free_idle hau hpu hi' hc', driving_congr _ (hd _)]

theorem operations_after_step (ha : Accepting s) (hb : s.cfg.transport = .blocking) (hp : s.pos = .idle) (hs : s.state ≠ .ready)
    (h : exec .step s = .next (u.ret .stepped)) (hu : u.pos = .idle) :
    Accepting u ∧ exec .flush s = exec .flush u ∧ exec .beginFrame s = exec .beginFrame u
      ∧ ∀ i, i < s.cfg.nSlots → (slotAt s i).cb ≠ none → exec (.free i) s = exec (.free i) u := by
  obtain ⟨hx, hk⟩ := sessionArm_of_blocking_step ha hb hp hs h hu
  exact ⟨accepting_of_keeps ha hk, operations_congr ha hp hk fun p => by rw [drive_blocking p hb ha.1 hs, hx, at_ok, andThen_ok]⟩

theorem operations_after_fault (ha : Accepting s) (hb : s.cfg.transport = .blocking) (hp : s.pos = .idle) (hs : s.state ≠ .ready)
    (c : FaultCode) (h : exec .step s = .next (u.ret (.fault c))) :
    exec .flush s = .next (u.ret (.fault c)) ∧ exec .beginFrame s = .next (u.ret (.fault c))
      ∧ ∀ i, i < s.cfg.nSlots → (slotAt s i).cb ≠ none → exec (.free i) s = .next (u.ret (.fault c)) := by
  rw [exec_step_ready ha hp (isReady_blocking hb)] at h
  obtain ⟨t, hx, ht⟩ := sessionArm_of_step_fault h
  have hd : ∀ p, drive p s = .raised t := fun p => by rw [drive_blocking p hb ha.1 hs, hx, at_raised, andThen_raised]
  refine ⟨?_, ?_, fun i hi hc => ?_⟩
  · rw [exec_flush_idle ha hp, driving_raised _ (hd _), ht]
  · rw [exec_beginFrame_idle ha hp, driving_raised _ (hd _), ht]
  · rw [exec_free_idle ha hp hi hc, driving_raised _ (hd _), ht]

theorem operations_after_wait (ha : Accepting s) (hb : s.cfg.transport = .blocking) (hp : s.pos = .idle) (hs : s.state ≠ .ready)
    (h : exec .step s = .next u) (hu : u.pos = .stepping) :
    exec .flush s = .next { u with pos := .flushing } ∧ exec .beginFrame s = .next { u with pos := .beginning }
      ∧ ∀ i, i < s.cfg.nSlots → (slotAt s i).cb ≠ none → exec (.free i) s = .next { u with pos := .freeingBegin } := by
  rw [exec_step_ready ha hp (isReady_blocking hb)] at h
  obtain ⟨t, hx, rfl⟩ := sessionArm_of_step_wait h hu
  have hd : ∀ p, drive p s = .wait { t with pos := p } := fun p => by rw [drive_blocking p hb ha.1 hs, hx, at_wait, andThen_wait]
  refine ⟨?_, ?_, fun i hi hc => ?_⟩
  · rw [exec_flush_idle ha hp, driving_wait _ (hd _)]
  · rw [exec_beginFrame_idle ha hp, driving_wait _ (hd _)]
  · rw [exec_free_idle ha hp hi hc, driving_wait _ (hd _)]

end

/-! ## What FLUSH does first -/

/-- FLUSH from outside READY returned: its first loop ended in the state it returned from, with nothing staged. -/
theorem drive_of_flush_returned {s t : State} (ha : Accepting s) (hp : s.pos = .idle) (hs : s.state ≠ .ready)
    (h : exec .flush s = .next (t.ret .unit)) (ht : t.pos = .idle) : drive .flushing s = .ok t := by
  rw [exec_flush_idle ha hp] at h
  cases hx : drive .flushing s with
  | ok u =>
    obtain ⟨hk, hl⟩ := drive_ok_keeps hx
    rw [driving_ok _ hx, flushRest, if_neg (by simp [hl hs]), toOutcome_ok] at h
    have hpos : u.pos = t.pos := by rw [hk.pos, hp, ht]
    rw [eq_of_pos_eq hpos (ret_inj (Host.Outcome.next.inj h)).2]
  | wait u =>
    rw [driving_wait _ hx] at h
    have hu : u.pos = .flushing := by
      unfold drive at hx
      cases hy : driveLoop (driveFuel s) s <;> rw [hy] at hx <;> cases hx
      rfl
    rw [Host.Outcome.next.inj h] at hu
    cases hu
  | raised u =>
    rw [driving_raised _ hx] at h
    exact absurd (ret_inj (Host.Outcome.next.inj h)).1 (by simp)
  | stop f => simp [driving, hx] at h

/-- A loop that ends does not depend on the place it would wait in. -/
theorem drive_ok_any {s t : State} {p : HostPos} (h : drive p s = .ok t) (q : HostPos) : drive q s = .ok t := by
  unfold drive at h ⊢
  cases hy : driveLoop (driveFuel s) s <;> rw [hy] at h <;> cases h
  rfl

theorem operations_after_flush {s t : State} (ha : Accepting s) (hp : s.pos = .idle) (hs : s.state ≠ .ready)
    (h : exec .flush s = .next (t.ret .unit)) (ht : t.pos = .idle) :
    exec .beginFrame s = exec .beginFrame t
      ∧ ∀ i, i < s.cfg.nSlots → (slotAt s i).cb ≠ none → exec (.free i) s = exec (.free i) t := by
  have hx := drive_of_flush_returned ha hp hs h ht
  obtain ⟨hr, hf⟩ := drive_ok _ _ _ hx
  exact (operations_congr ha hp (drive_ok_keeps hx).1 fun q => by rw [drive_ok_any hx q, drive_ready q t hf hr]).2

end Sys2Proof.Machine
end

section
/-! SUPPORT. What FREE and FLUSH stage, arm and start in `Tick` (40_codec.md R105, 41_session.md R113, R119, 43_registry.md R148). -/

namespace Sys2Proof.Machine

/-! ## The remove command -/

/-- Tokens that each emit no diagnostic emit none together (30_encoding.md R78). -/
theorem tokensEffect_no_diags (ts : List Token) : ∀ (args : List Arg) (l : List Byte) (k : Nat),
    (∀ t ∈ ts, tokenDiags t = 0) → tokensEffect ts args = some (l, k) → k = 0 := by
  induction ts with
  | nil =>
    intro args l k _ h
    cases h
    rfl
  | cons t rest ih =>
    intro args l k hd h
    simp only [tokensEffect] at h
    split at h
    next b bs k' _ hr =>
      cases h
      rw [hd t (by simp), ih _ _ _ (fun u hu => hd u (by simp [hu])) hr]
    next => cases h

/-- Only a directive can emit a diagnostic. -/
theorem formatTokens_no_diags {fmt : List Byte} (h : ∀ t ∈ formatDirectives fmt, tokenDiags t = 0) :
    ∀ t ∈ formatTokens fmt, tokenDiags t = 0 := by
  intro t ht
  cases t with
  | unknown d => exact h _ (List.mem_filter.2 ⟨ht, rfl⟩)
  | trailing => exact h _ (List.mem_filter.2 ⟨ht, rfl⟩)
  | lit b => rfl
  | char => rfl
  | word => rfl
  | str => rfl
  | percent => rfl

theorem cfg_removeFormats (c : Cfg) :
    formatDirectives c.removeCodeFmt = [.char] ∧ formatDirectives c.removePointFmt = [.word, .word] := by
  obtain ⟨_, _, _, _, _, _, _, _, _, _, _, _, _, _, _, _, _, hCode, hPoint⟩ := configConstraints_cfg c
  exact ⟨hCode, hPoint⟩

theorem cfg_esc (c : Cfg) : c.esc = 0x1B := by
  obtain ⟨_, _, _, _, _, hEsc, _⟩ := configConstraints_cfg c
  exact hEsc

theorem cfg_ctrl_ne (c : Cfg) : c.ctrlNoresp ≠ c.ctrlResp := by
  obtain ⟨_, _, _, _, _, _, hCtrl, _⟩ := configConstraints_cfg c
  exact hCtrl

theorem cfg_cIn (c : Cfg) : 3 ≤ c.cIn := by
  obtain ⟨_, _, _, _, hIn, _⟩ := configConstraints_cfg c
  exact hIn

/-- An ENCODE in READY whose tokens find their arguments, fit and emit no diagnostic stages its bytes. -/
theorem encodeBody_ok {fmt : List Byte} {args : List Arg} {l : List Byte} {s : State} (hs : s.state = .ready)
    (hd : ∀ t ∈ formatDirectives fmt, tokenDiags t = 0) (h : (tokensEffect (formatTokens fmt) args).map (·.1) = some l) (hf : fits l s) :
    encodeBody fmt args s = .ok (s.staged l) := by
  obtain ⟨⟨l', k⟩, he, rfl⟩ := Option.map_eq_some_iff.1 h
  obtain rfl := tokensEffect_no_diags _ _ _ _ (formatTokens_no_diags hd) he
  have := encodeTokens_append (formatTokens fmt) [] args l' 0 s he hf
  rw [List.append_nil] at this
  rw [encodeBody, staging_ready hs, this, withUnknown_zero]
  rfl

theorem toNat_centroidX (r : Rect) : (centroidX r).toNat = (r.x.toNat + r.w.toNat / 2) % 65536 := by
  simp [centroidX, u16Of]

theorem toNat_centroidY (r : Rect) : (centroidY r).toNat = (r.y.toNat + r.h.toNat / 2) % 65536 := by
  simp [centroidY, u16Of]

/-- The remove command in READY, where it fits, stages its bytes (43_registry.md R148). -/
theorem removeCommand_ok {i : Nat} {l : List Byte} {s : State} (hs : s.state = .ready) (h : removeBytes s i = some l) (hf : fits l s) :
    removeCommand i s = .ok (s.staged l) := by
  obtain ⟨hCode, hPoint⟩ := cfg_removeFormats s.cfg
  unfold removeBytes at h
  unfold removeCommand zeroArea
  simp only [decide_eq_true_eq] at h ⊢
  split at h
  next hz =>
    rw [if_pos hz]
    exact encodeBody_ok hs (by simp [hCode, tokenDiags]) h hf
  next hz =>
    rw [if_neg hz, toNat_centroidX, toNat_centroidY]
    exact encodeBody_ok hs (by simp [hPoint, tokenDiags]) h hf

/-! ## Arming and starting the transfer in `Tick` -/

/-- What a frame armed over staged bytes holds in the outbound buffer (20_memory.md R45). -/
theorem armedFrame_of_outBuf {l : List Byte} {s t : State} (h : t.outBuf = (s.staged l).armed.outBuf) : ArmedFrame s.ctrl l s t := by
  have hm : ∀ i, outRead t i = if i = 2 + (s.outLen + l.length) then some (s.outSum + sum8 l + s.ctrl + BitVec.ofNat 8 (s.outLen + l.length))
      else if i = 1 then some (BitVec.ofNat 8 (s.outLen + l.length)) else if i = 0 then some s.ctrl
      else if 2 + s.outLen ≤ i ∧ i < 2 + s.outLen + l.length then l[i - (2 + s.outLen)]? else outRead s i := by
    intro i
    simp only [outRead, h, State.armed, State.staged, readMem_writeMem, readMem_writeBytes]
  refine ⟨?_, ?_, fun j hj => ?_, ?_, fun i h0 h1 hi => ?_⟩
  · rw [hm, if_neg (by omega), if_neg (by omega), if_pos rfl]
  · rw [hm, if_neg (by omega), if_pos rfl]
  · rw [hm, if_neg (by omega), if_neg (by omega), if_neg (by omega), if_pos (by omega), Nat.add_sub_cancel_left]
  · rw [hm, if_pos (by omega)]
  · rw [hm, if_neg (by omega), if_neg h1, if_neg h0, if_neg (by omega)]

/-- In `Tick`, with the transport ready, a frame under the default control byte is armed, its transfer is started and the loop waits. -/
theorem flushRest_tick {s : State} (p : HostPos) (hf : s.fault = .none) (hv : s.cfg.transport = .tick) (ht : s.tstate = .ready)
    (hc : s.ctrl = s.cfg.ctrlNoresp) (h0 : 0 < s.outLen) (hl : s.outLen + 3 ≤ s.cfg.cOut) :
    flushRest p s = .wait { s.armed with state := .reset, nextState := .reset, tstate := .start, tRetries := 0, tickEn := true, pos := p } := by
  have hn : s.armed.nextState = .reset := by simp [State.armed, hc, cfg_ctrl_ne]
  have hstep : sessionStep s.armed
      = .ok { s.armed with state := .reset, nextState := .reset, tstate := .start, tRetries := 0, tickEn := true } := by
    rw [sessionStep_ready (by simpa [isReady_tick, State.armed, hv] using ht), sessionArm_transmit rfl,
      transmitStep_tick (by exact hv), hn]
    rfl
  rw [flushRest, if_pos h0, arm_ok s hl, andThen_ok, drive_tick_steps (s := s.armed) p hv hf (by simp [State.armed]) hstep (by simp)]

/-- The state in which FREE from READY waits in `Tick`: ESC and the remove command stand behind what was staged, the frame is armed and its
transfer is started (41_session.md R113, R119, 43_registry.md R148). -/
def freeStarted (l : List Byte) (s : State) : State :=
  { (s.staged (0x1B :: l)).armed with
    state := .reset, nextState := .reset, tstate := .start, tRetries := 0, tickEn := true, pos := .freeingFlush }

/-- In `Tick`, FREE behind its first loop stages its remove command, arms it, starts the transfer and waits. -/
theorem freeRest_tick {i : Nat} {l : List Byte} {s : State} (hf : s.fault = .none) (hs : s.state = .ready) (hv : s.cfg.transport = .tick)
    (ht : s.tstate = .ready) (hc : s.ctrl = s.cfg.ctrlNoresp) (h : removeBytes s i = some l) (hl : fits (0x1B :: l) s) :
    freeRest i s = .wait (freeStarted l s) := by
  have hEsc : fits [0x1B] s := by simp [fits] at hl ⊢; omega
  have hCmd : fits l (s.staged [0x1B]) := (fits_staged _ _ _).2 hl
  have hRoom : (s.staged (0x1B :: l)).outLen + 3 ≤ s.cfg.cOut := hl
  rw [freeRest, beginRest, cfg_esc, appendByte_ok _ _ hEsc, andThen_ok, removeCommand_ok (by exact hs) (by exact h) hCmd, andThen_ok,
    staged_staged, List.singleton_append, freeFromFlush_eq, drive_ready _ _ (by exact hf) (by exact hs), andThen_ok, freeFlushRest,
    flushRest_tick .freeingFlush (by exact hf) (by exact hv) (by exact ht) (by exact hc) (by simp [State.staged]) hRoom, andThen_wait]
  rfl

/-! ## The session's RESET step -/

/-- The state after the session's RESET step (41_session.md R116). -/
def resetStepped (s : State) : State := { s with outLen := 0, outSum := 0, ctrl := s.cfg.ctrlNoresp, state := .ready }

/-- A loop begun in RESET, with the transport ready, takes the RESET step and ends, in both variants. -/
theorem drive_reset {s : State} (p : HostPos) (hf : s.fault = .none) (hr : isReady s = true) (hs : s.state = .reset) :
    drive p s = .ok (resetStepped s) := by
  have hfuel : ∃ n, driveFuel s = n + 1 := by
    unfold driveFuel
    cases s.cfg.transport <;> exact ⟨_, rfl⟩
  obtain ⟨n, hn⟩ := hfuel
  rw [drive, hn, driveLoop_succ _ _ hf (by simp [hs]), sessionStep_ready hr, sessionArm_reset hs, resetStep, andThen_ok,
    driveLoop_ready _ _ (by exact hf) rfl, at_ok]
  rfl

theorem flushRest_nothing {s : State} (p : HostPos) (h : s.outLen = 0) : flushRest p s = .ok s := by simp [flushRest, h]

end Sys2Proof.Machine
end

section
/-! SUPPORT. In `Blocking`, where every transmit ends, no part of a host operation waits (20_memory.md R56, 42_transport.md R142). -/

namespace Sys2Proof.Machine

/-! ## Operations that return in the transition they began in -/

/-- A part of an operation that does not wait, and where it runs to its end leaves a state with `P`. -/
def Res.Returns (P : State → Prop) : Res → Prop
  | .ok t => P t
  | .wait _ => False
  | .raised _ => True
  | .stop _ => True

theorem returns_andThen {P Q : State → Prop} {r : Res} {k : State → Res} (h : r.Returns P) (hk : ∀ t, P t → (k t).Returns Q) :
    (r.andThen k).Returns Q := by
  cases r with
  | ok t => exact hk t h
  | wait t => exact h
  | raised t => exact h
  | stop f => exact h

theorem returns_at {P : State → Prop} {r : Res} (p : HostPos) (h : r.Returns P) : (r.at p).Returns P := by
  cases r with
  | ok t => exact h
  | wait t => exact h.elim
  | raised t => exact h
  | stop f => exact h

theorem returns_raise {P : State → Prop} (c : FaultCode) (s : State) : (raise c s).Returns P := trivial

/-- An operation whose body does not wait leaves the host idle. -/
theorem toOutcome_idle {P : State → Prop} {r : Res} {g : State → Result} {t : State} (hr : r.Returns P) (h : r.toOutcome g = .next t) :
    t.pos = .idle := by
  cases r with
  | ok u => rw [toOutcome_ok] at h; cases h; rfl
  | wait u => exact hr.elim
  | raised u => rw [toOutcome_raised] at h; cases h; rfl
  | stop f => cases h

theorem hostOp_idle {P : State → Prop} {su ok : Bool} {s t : State} {g : State → Result} {body : State → Res} (hr : (body s).Returns P)
    (h : hostOp su ok s g body = .next t) : t.pos = .idle := by
  rcases hostOp_cases su ok s g body with ⟨_, e⟩ | ⟨_, _, _, e⟩ | ⟨_, _, _, e⟩ | ⟨_, _, _, e⟩ <;> rw [e] at h
  · cases h; rfl
  · cases h; rfl
  · cases h; rfl
  · exact toOutcome_idle hr h

/-- An operation that only writes fields leaves the host idle. -/
theorem hostOp_update_idle {su ok : Bool} {s t : State} {g : State → Result} {body : State → Res} (h : hostOp su ok s g body = .next t)
    (hb : ∃ u, body s = .ok u) : t.pos = .idle := by
  obtain ⟨u, hu⟩ := hb
  exact hostOp_idle (P := fun _ => True) (by rw [hu]; trivial) h

/-- In `Blocking` with the transport ready, every transmit from here on ends: a retry ceiling stands, or the display acknowledges at last
(42_transport.md R140, R142, 70_reset_and_hazards.md R199; log 15). -/
structure Answered (s : State) : Prop where
  blocking : s.cfg.transport = .blocking
  ready : s.tstate = .ready
  ends : s.cfg.retryLimit ≠ none ∨ ∀ n, s.env.rxCount ≤ n → Config.refusalsBeforeAck n ≠ none

theorem Answered.congr {s t : State} (h : Answered s) (hc : t.cfg = s.cfg) (ht : t.tstate = s.tstate) (he : t.env = s.env) : Answered t :=
  ⟨hc ▸ h.blocking, ht ▸ h.ready, by rw [hc, he]; exact h.ends⟩

theorem Answered.of_keeps {s t : State} (h : Answered s) (hk : DrivingKeeps s t) (ht : t.tstate = .ready) : Answered t :=
  ⟨hk.cfg ▸ h.blocking, ht, by rw [hk.cfg]; exact h.ends.imp_right fun e n hn => e n (Nat.le_trans hk.drawn hn)⟩

/-! ### Staging and arming -/

theorem outWrite_returns {s : State} (i : Nat) (v : Byte) (h : Answered s) : (outWrite i v s).Returns Answered := by
  unfold outWrite
  split
  · exact h.congr rfl rfl rfl
  · trivial

theorem appendByte_returns {s : State} (b : Byte) (h : Answered s) : (appendByte b s).Returns Answered := by
  unfold appendByte
  split
  · exact returns_raise _ _
  · exact returns_andThen (outWrite_returns _ _ h) fun t ht => ht.congr rfl rfl rfl

theorem appendAll_returns (l : List Byte) : ∀ {s : State}, Answered s → (appendAll l s).Returns Answered := by
  induction l with
  | nil => exact fun h => h
  | cons b rest ih => exact fun h => returns_andThen (appendByte_returns b h) fun _ => ih

theorem arm_returns {s : State} (h : Answered s) : (arm s).Returns Answered := by
  have hfin : (finalize s).Returns Answered :=
    returns_andThen (outWrite_returns _ _ h) fun _ h1 => returns_andThen (outWrite_returns _ _ h1) fun _ h2 => outWrite_returns _ _ h2
  exact returns_andThen hfin fun _ ht => ht.congr rfl rfl rfl

theorem staging_returns {P : State → Prop} {body : State → Res} {s : State} (h : (body s).Returns P) : (staging body s).Returns P := by
  unfold staging
  split
  · exact returns_raise _ _
  · exact h

theorem opToken_returns (t : Token) (arg : Option Arg) {s : State} (h : Answered s) : (opToken t arg s).Returns Answered := by
  cases hb : tokenBytes t arg with
  | none =>
    rw [opToken_lacking t arg hb]
    exact returns_raise _ _
  | some b =>
    rw [opToken_found t arg b hb]
    exact returns_andThen (appendAll_returns b h) fun u hu => hu.congr rfl rfl rfl

theorem encodeTokens_returns (ts : List Token) : ∀ (args : List Arg) {s : State}, Answered s → (encodeTokens ts args s).Returns Answered := by
  induction ts with
  | nil => exact fun _ _ h => h
  | cons t rest ih => exact fun args _ h => returns_andThen (opToken_returns t args.head? h) fun _ => ih _

theorem encodeBody_returns (fmt : List Byte) (args : List Arg) {s : State} (h : Answered s) : (encodeBody fmt args s).Returns Answered :=
  staging_returns (encodeTokens_returns _ _ h)

theorem removeCommand_returns (i : Nat) {s : State} (h : Answered s) : (removeCommand i s).Returns Answered := by
  unfold removeCommand
  simp only
  split <;> exact encodeBody_returns _ _ h

/-! ### Session steps and loops -/

theorem transmit_returns {s : State} (h : Answered s) : (transmit s).Returns Answered := by
  cases hx : transmit s with
  | ok t =>
    obtain ⟨hk, ht⟩ := transmit_ok_keeps hx
    exact h.of_keeps hk (ht h.blocking)
  | wait t =>
    obtain ⟨hr, hn⟩ := transmit_waits h.blocking h.ready hx
    exact absurd hn (h.ends.resolve_left (not_not_intro hr) _ (Nat.le_refl _))
  | raised t => trivial
  | stop f => trivial

theorem receive_returns {s : State} (h : Answered s) : (receive s).Returns Answered := by
  cases hx : receive s with
  | ok t =>
    obtain ⟨hk, ht⟩ := receive_ok_keeps hx
    exact h.of_keeps hk (ht h.blocking)
  | wait t => exact receive_ends h.blocking h.ready t hx
  | raised t => trivial
  | stop f => trivial

theorem sessionArm_returns {s : State} (h : Answered s) : (sessionArm s).Returns Answered := by
  cases hst : s.state with
  | ready =>
    rw [sessionArm_ready hst]
    exact returns_andThen (appendAll_returns _ (h.congr rfl rfl rfl)) fun _ => arm_returns
  | transmit =>
    rw [sessionArm_transmit hst]
    exact returns_andThen (transmit_returns h) fun t ht => ht.congr rfl rfl rfl
  | receive =>
    rw [sessionArm_receive hst]
    exact returns_andThen (receive_returns h) fun t ht => ht.congr rfl rfl rfl
  | event =>
    rw [sessionArm_event hst, eventStep_eq_records]
    split
    · exact h.congr rfl rfl rfl
    · trivial
  | reset =>
    rw [sessionArm_reset hst]
    exact h.congr rfl rfl rfl

theorem driveLoop_returns (n : Nat) : ∀ {s : State}, Answered s → stepsToReady s.state ≤ n → (driveLoop n s).Returns Answered := by
  induction n with
  | zero =>
    intro s h hn
    have hs : s.state = .ready := stepsToReady_eq_zero.1 (Nat.le_zero.1 hn)
    by_cases hf : s.fault = .none
    · rw [driveLoop_ready _ _ hf hs]
      exact h
    · rw [driveLoop_halted _ _ hf]
      trivial
  | succ n ih =>
    intro s h hn
    by_cases hf : s.fault = .none
    · by_cases hs : s.state = .ready
      · rw [driveLoop_ready _ _ hf hs]
        exact h
      · rw [driveLoop_succ _ _ hf hs, sessionStep_ready (isReady_blocking h.blocking)]
        have hr := sessionArm_returns h
        cases hx : sessionArm s <;> rw [hx] at hr
        case ok t =>
          obtain ⟨_, hlt, _⟩ := sessionArm_ok hs hx
          exact ih hr (by omega)
        all_goals exact hr
    · rw [driveLoop_halted _ _ hf]
      trivial

theorem drive_returns {s : State} (p : HostPos) (h : Answered s) : (drive p s).Returns Answered := by
  refine returns_at p ?_
  rw [driveFuel, h.blocking]
  exact driveLoop_returns 4 h (stepsToReady_le_four _)

theorem flushRest_returns {s : State} (p : HostPos) (h : Answered s) : (flushRest p s).Returns Answered := by
  unfold flushRest
  split
  · exact returns_andThen (arm_returns h) fun _ => drive_returns p
  · exact h

theorem freeRest_returns {s : State} (i : Nat) (h : Answered s) : (freeRest i s).Returns Answered := by
  refine returns_andThen (appendByte_returns _ h) fun t ht => returns_andThen (removeCommand_returns i ht) fun u hu => ?_
  rw [freeFromFlush_eq]
  exact returns_andThen (drive_returns _ hu) fun v hv => returns_andThen (flushRest_returns _ hv) fun w hw => hw.congr rfl rfl rfl

theorem freeBody_returns {s : State} (i : Nat) (h : Answered s) : (freeBody i s).Returns Answered := by
  unfold freeBody
  split
  · rw [freeFromBegin_eq]
    exact returns_andThen (drive_returns _ h) fun _ => freeRest_returns i
  · exact returns_raise _ _

/-! ### Every host operation -/

theorem execStep_idle_of_answered {s t : State} (h : Answered s) (hp : s.pos = .idle) (he : execStep s = .next t) : t.pos = .idle := by
  rw [execStep, hp] at he
  simp only [if_pos (isReady_blocking h.blocking)] at he
  exact hostOp_idle (returns_at _ (sessionArm_returns h)) he

theorem setupBody_returns (s : State) : (setupBody s).Returns fun _ => True := by
  unfold setupBody
  split
  · trivial
  · split <;> trivial

theorem allocate_returns (found : Option Nat) (v : Slot) (s : State) : (allocate found v s).Returns fun _ => True := by
  unfold allocate
  split
  · trivial
  · exact returns_raise _ _

theorem setEnabledBody_returns (i : Nat) (e : Bool) (s : State) : (setEnabledBody i e s).Returns fun _ => True := by
  unfold setEnabledBody
  split
  · trivial
  · exact returns_raise _ _

/-- In `Blocking`, where every transmit ends, every host operation returns in the transition it began in (20_memory.md R56). -/
theorem exec_returns_of_answered {i : Instr} {s t : State} (h : Answered s) (hp : s.pos = .idle) (hi : isHostOp i = true)
    (he : exec i s = .next t) : t.pos = .idle := by
  cases i
  case setup => exact hostOp_idle (setupBody_returns s) he
  case beginFrame =>
    have he : execBeginFrame s = .next t := he
    rw [execBeginFrame, hp] at he
    exact hostOp_idle (returns_andThen (drive_returns _ h) fun _ hu => appendByte_returns _ hu) he
  case putU8 v => exact hostOp_idle (staging_returns (appendByte_returns _ h)) he
  case putU16le v => exact hostOp_idle (staging_returns (appendAll_returns _ h)) he
  case putCstr str => exact hostOp_idle (staging_returns (appendAll_returns _ h)) he
  case encode fmt args => exact hostOp_idle (encodeBody_returns fmt args h) he
  case flush =>
    have he : execFlush s = .next t := he
    rw [execFlush, hp] at he
    exact hostOp_idle (returns_andThen (drive_returns _ h) fun _ => flushRest_returns _) he
  case step => exact execStep_idle_of_answered h hp he
  case isReady => exact hostOp_update_idle he ⟨_, rfl⟩
  case allocCode cb user => exact hostOp_idle (allocate_returns _ _ s) he
  case allocArea r cb user => exact hostOp_idle (allocate_returns _ _ s) he
  case free n =>
    have he : execFree n s = .next t := he
    rw [execFree, hp] at he
    exact hostOp_idle (freeBody_returns n h) he
  case setEnabled n e => exact hostOp_idle (setEnabledBody_returns _ _ s) he
  case setWindow r => exact hostOp_update_idle (show execSetWindow r s = .next t from he) ⟨_, rfl⟩
  case clearWindow => exact hostOp_update_idle (show execClearWindow s = .next t from he) ⟨_, rfl⟩
  case setHook k => exact hostOp_update_idle (show execSetHook k s = .next t from he) ⟨_, rfl⟩
  case clearHook => exact hostOp_update_idle (show execClearHook s = .next t from he) ⟨_, rfl⟩
  case undefinedHostOpcode o ops => exact hostOp_update_idle he ⟨_, rfl⟩
  all_goals cases hi

end Sys2Proof.Machine
end

section
/-! SUPPORT. A blocking receive of a whole frame, and the EVENT step on it (42_transport.md R134 to R137, 41_session.md R115). -/

namespace Sys2Proof.Machine

/-! ## A blocking receive -/

/-- The inbound counters agree with the number of bytes read (42_transport.md R137). -/
def InboundCounted (s : State) : Prop := s.inLen = min s.tIdx s.cfg.cIn ∧ s.inOvf = decide (s.cfg.cIn < s.tIdx)

/-- The bytes `l` read and stored as far as they fit, the display's further answers being `rest` (42_transport.md R135 to R137). -/
def State.readIn (l rest : List Byte) (s : State) : State :=
  { s with
    inBuf := writeBytes s.inBuf s.tIdx (l.take (s.cfg.cIn - s.tIdx))
    inLen := min (s.tIdx + l.length) s.cfg.cIn
    inOvf := decide (s.cfg.cIn < s.tIdx + l.length)
    tIdx := s.tIdx + l.length
    tCnt := s.tCnt - l.length
    env := { s.env with rx := rest }
    out := { s.out with bus := s.out.bus ++ l.map (.rx s.cfg.dummyTx) } }

theorem inboundCounted_readIn (l rest : List Byte) (s : State) : InboundCounted (s.readIn l rest) := ⟨rfl, rfl⟩

/-- One byte read and stored. -/
theorem rxByte_eq_readIn {s : State} {b : Byte} {rest : List Byte} (hi : InboundCounted s) (hx : s.env.rx = b :: rest) :
    rxByte s = s.readIn [b] rest := by
  obtain ⟨hl, ho⟩ := hi
  rw [rxByte_eq s _ _ (drawByte_cons hx), State.readIn, hl, ho]
  by_cases hc : s.tIdx < s.cfg.cIn
  · have htake : ([b] : List Byte).take (s.cfg.cIn - s.tIdx) = [b] := List.take_of_length_le (by simp; omega)
    have hlen : min s.tIdx s.cfg.cIn + 1 = min (s.tIdx + 1) s.cfg.cIn := by omega
    have hovf : ¬ s.cfg.cIn < s.tIdx ∧ ¬ s.cfg.cIn < s.tIdx + 1 := by omega
    simp [hc, htake, hlen, hovf, writeBytes]
  · have htake : ([b] : List Byte).take (s.cfg.cIn - s.tIdx) = [] := by simp [show s.cfg.cIn - s.tIdx = 0 by omega]
    have hlen : min s.tIdx s.cfg.cIn = min (s.tIdx + 1) s.cfg.cIn := by omega
    have hovf : s.cfg.cIn < s.tIdx + 1 := by omega
    simp [hc, htake, hlen, hovf, writeBytes]

/-- Bytes read one after another. -/
theorem readIn_readIn (l l' r rest : List Byte) (s : State) : (s.readIn l r).readIn l' rest = s.readIn (l ++ l') rest := by
  have hbuf : writeBytes (writeBytes s.inBuf s.tIdx (l.take (s.cfg.cIn - s.tIdx))) (s.tIdx + l.length)
        (l'.take (s.cfg.cIn - (s.tIdx + l.length)))
      = writeBytes s.inBuf s.tIdx ((l ++ l').take (s.cfg.cIn - s.tIdx)) := by
    rw [List.take_append, writeBytes_append, Nat.sub_add_eq]
    by_cases hc : l.length ≤ s.cfg.cIn - s.tIdx
    · rw [List.take_of_length_le hc]
    · rw [show s.cfg.cIn - s.tIdx - l.length = 0 by omega, List.take_zero]
      rfl
  simp only [State.readIn, hbuf]
  simp [Nat.add_assoc, Nat.sub_sub]

/-- A byte of the payload, or the trailer behind it (42_transport.md R136). -/
theorem transportStep_payload {s : State} {b : Byte} {rest : List Byte} (hs : s.tstate = .receivePayload) (hi : InboundCounted s)
    (hx : s.env.rx = b :: rest) :
    transportStep s = if s.tCnt - 1 = 0 then .ok { s.readIn [b] rest with tstate := .ready } else .ok (s.readIn [b] rest) := by
  simp only [transportStep, hs, tickReceivePayload, rxByte_eq_readIn hi hx]
  rfl

/-- The ticks of `T_RECEIVE_PAYLOAD` read the bytes that are left, and the transfer ends. -/
theorem runTransfer_payload (l : List Byte) : ∀ (s : State) (rest : List Byte) (m : Nat), l ≠ [] → s.tstate = .receivePayload →
    s.tCnt = l.length → InboundCounted s → s.env.rx = l ++ rest →
    runTransfer (l.length + m) s = .ok { s.readIn l rest with tstate := .ready } := by
  induction l with
  | nil => exact fun _ _ _ h => absurd rfl h
  | cons b r ih =>
    intro s rest m _ hs hc hi hx
    rw [List.length_cons, show r.length + 1 + m = (r.length + m) + 1 by omega, runTransfer_succ _ _ (by rw [hs]; decide)]
    rw [transportStep_payload (rest := r ++ rest) hs hi hx]
    by_cases hr : r = []
    · subst hr
      rw [if_pos (by simp [hc]), andThen_ok, runTransfer_ready _ _ rfl]
      rfl
    · rw [if_neg (by simpa [hc] using hr), andThen_ok, ih _ rest m hr (by exact hs) (by simp [State.readIn, hc])
        (inboundCounted_readIn _ _ _) (by rfl), readIn_readIn]
      rfl

/-- The bytes read in are found from the index of the first one on, as far as the buffer goes; every other byte is as before. -/
theorem inRead_readIn (l rest : List Byte) (s : State) (i : Nat) : inRead (s.readIn l rest) i
    = if s.tIdx ≤ i ∧ i < s.tIdx + l.length ∧ i < s.cfg.cIn then l[i - s.tIdx]? else inRead s i := by
  simp only [inRead, State.readIn, readMem_writeBytes, List.length_take]
  by_cases h : s.tIdx ≤ i ∧ i < s.tIdx + l.length ∧ i < s.cfg.cIn
  · rw [if_pos (by omega), if_pos h, List.getElem?_take, if_pos (by omega)]
  · rw [if_neg (by omega), if_neg h]

/-- The first header byte (42_transport.md R135). -/
theorem transportStep_header_first {s : State} {b : Byte} {rest : List Byte} (hs : s.tstate = .receiveHeader) (hc : s.tCnt = 2)
    (hi : InboundCounted s) (hx : s.env.rx = b :: rest) : transportStep s = .ok (s.readIn [b] rest) := by
  simp only [transportStep, hs, tickReceiveHeader, rxByte_eq_readIn hi hx]
  rw [if_neg (by simp [State.readIn, hc])]

/-- The second header byte is the length of the payload (42_transport.md R135). -/
theorem transportStep_header_last {s : State} {n : Byte} {rest : List Byte} (hs : s.tstate = .receiveHeader) (hc : s.tCnt = 1)
    (h1 : s.tIdx = 1) (hi : InboundCounted s) (hx : s.env.rx = n :: rest) :
    transportStep s = .ok { s.readIn [n] rest with tCnt := n.toNat + 1, tstate := .receivePayload } := by
  have hIn := cfg_cIn s.cfg
  have hn : inRead (s.readIn [n] rest) 1 = some n := by
    rw [inRead_readIn, if_pos (by simp [h1]; omega)]
    simp [h1]
  simp only [transportStep, hs, tickReceiveHeader, rxByte_eq_readIn hi hx, hn]
  rw [if_pos (by simp [State.readIn, hc])]

/-- Where `T_RECEIVE` leaves a blocking receive: nothing read, two header bytes to come (42_transport.md R134). -/
def receiveStarted (s : State) : State :=
  { s with inLen := 0, inOvf := false, tIdx := 0, tCnt := 2, tstate := .receiveHeader }

/-- A blocking receive of a whole frame: its control byte, its length byte, its payload and its trailer (42_transport.md R134 to R137, R142,
20_memory.md R46). -/
theorem receive_blocking {s : State} {c n trailer : Byte} {p rest : List Byte} (hb : s.cfg.transport = .blocking) (ht : s.tstate = .ready)
    (hp : p.length = n.toNat) (hx : s.env.rx = c :: n :: p ++ trailer :: rest) :
    receive s = .ok { (receiveStarted s).readIn (c :: n :: p ++ [trailer]) rest with tCnt := 0, tstate := .ready } := by
  have hn := n.isLt
  have hlen : (p ++ [trailer]).length = n.toNat + 1 := by simp [hp]
  have hx : s.env.rx = c :: n :: (p ++ [trailer] ++ rest) := by simp [hx]
  have hstart : transportStep { s with inLen := 0, inOvf := false, tstate := .receive } = .ok (receiveStarted s) := by
    simp [transportStep, tickReceive, receiveStarted, setCs_blocking, hb]
  have hfirst := transportStep_header_first (s := receiveStarted s) (rest := n :: (p ++ [trailer] ++ rest)) rfl rfl
    ⟨by simp [receiveStarted], by simp [receiveStarted]⟩ hx
  have hlast := transportStep_header_last (s := (receiveStarted s).readIn [c] (n :: (p ++ [trailer] ++ rest))) (rest := p ++ [trailer] ++ rest)
    rfl rfl rfl (inboundCounted_readIn _ _ _) rfl
  rw [readIn_readIn] at hlast
  obtain ⟨k, hk⟩ : ∃ k, receiveTicks = ((p ++ [trailer]).length + k) + 1 + 1 + 1 := ⟨255 - n.toNat, by rw [receiveTicks, hlen]; omega⟩
  unfold receive
  rw [hb]
  simp only [if_pos ht]
  rw [hk, runTransfer_succ _ _ (by simp), hstart, andThen_ok, runTransfer_succ _ _ (by simp [receiveStarted]), hfirst, andThen_ok,
    runTransfer_succ _ _ (by simp [State.readIn, receiveStarted]), hlast, andThen_ok]
  have hpay := runTransfer_payload (p ++ [trailer]) { (receiveStarted s).readIn [c, n] (p ++ [trailer] ++ rest) with
    tCnt := n.toNat + 1, tstate := .receivePayload } rest k (by simp) rfl hlen.symm ⟨rfl, rfl⟩ rfl
  have hall := readIn_readIn [c, n] (p ++ [trailer]) (p ++ [trailer] ++ rest) rest (receiveStarted s)
  calc _ = Res.ok { ((receiveStarted s).readIn [c, n] (p ++ [trailer] ++ rest)).readIn (p ++ [trailer]) rest with
        tCnt := n.toNat + 1 - (p ++ [trailer]).length, tstate := .ready } := hpay
    _ = _ := by
      rw [hall, hlen, Nat.sub_self]
      rfl

/-! ## The EVENT step on the frame received -/

/-- The EVENT step finds the frame received in the buffer and emits its records (41_session.md R115). -/
theorem eventRecords_received {s : State} {c n trailer : Byte} {p : List Byte} (hp : p.length = n.toNat)
    (hr : ∀ i, i < n.toNat + 3 → i < s.cfg.cIn → inRead s i = (c :: n :: p ++ [trailer])[i]?)
    (ho : s.inOvf = decide (s.cfg.cIn < n.toNat + 3)) :
    (inRead s 1).bind (eventRecords s) = some (replyEvents s n p trailer) := by
  have hIn := cfg_cIn s.cfg
  have h1 : inRead s 1 = some n := by simpa using hr 1 (by omega) (by omega)
  rw [h1, Option.bind_some, eventRecords, replyEvents]
  by_cases hn : n = 0
  · rw [if_pos hn, if_pos hn]
  · rw [if_neg hn, if_neg hn]
    by_cases hc : s.cfg.cIn < n.toNat + 3
    · rw [if_pos (by simp [ho, hc]), if_pos hc]
    · have hpay : readRange s.inBuf 2 n.toNat = some p := by
        refine (readRange_eq_some_iff _ _ _ _).2 ⟨hp, fun i hi => ?_⟩
        have := hr (2 + i) (by omega) (by omega)
        rw [inRead, show 2 + i = i + 1 + 1 by omega] at this
        rw [show 2 + i = i + 1 + 1 by omega, this]
        simp [List.getElem?_append_left (show i < p.length by omega)]
      have htr : inRead s (2 + n.toNat) = some trailer := by
        rw [hr _ (by omega) (by omega), show 2 + n.toNat = p.length + 1 + 1 by omega]
        simp
      rw [if_neg (by simp [ho, hc]), if_neg hc]
      simp only [inFrame, hpay, htr, Option.map_some]

end Sys2Proof.Machine
end

section
/-! SUPPORT. The armed frame that a blocking FLUSH finishes, and O29 from its clauses. -/

namespace Sys2Proof.Machine

/-! ## The armed frame that a blocking operation finishes -/

/-- The state after a blocking TRANSMIT step that the display acknowledged after some refusals (41_session.md R113, 42_transport.md R133). -/
def transmitted (len : Byte) (frame refusals rest : List Byte) (s : State) : State :=
  { s with
    tIdx := len.toNat + 3
    tCnt := 0
    tWait := 0
    tAck := s.cfg.ack
    tRetries := refusals.length
    env := { s.env with rx := rest }
    out := { s.out with bus := s.out.bus ++ (refusals ++ [s.cfg.ack]).flatMap (attemptBus frame s.cfg.dummyTx) }
    state := s.nextState.session }

theorem sessionArm_transmitted {s : State} {len : Byte} {frame refusals rest : List Byte} (hs : Sending s len frame)
    (hx : s.env.rx = refusals ++ s.cfg.ack :: rest) (hne : ∀ b ∈ refusals, b ≠ s.cfg.ack)
    (hk : ∀ k, s.cfg.retryLimit = some k → refusals.length ≤ k) : sessionArm s = .ok (transmitted len frame refusals rest s) := by
  obtain ⟨hb, hst, ht, h1, hf⟩ := hs
  rw [sessionArm_transmit hst, transmitStep, transmit_acknowledged hb ht h1 hf hx hne hk]
  rfl

/-- The state after the blocking receive of a frame and the EVENT step on it. -/
def frameDispatched (c n : Byte) (p : List Byte) (trailer : Byte) (rest : List Byte) (s : State) : State :=
  { ((receiveStarted s).readIn (c :: n :: p ++ [trailer]) rest).withEvents (replyEvents s n p trailer) with
    tCnt := 0, tstate := .ready, state := .reset }

theorem length_inboundFrame {n : Byte} {p : List Byte} (c trailer : Byte) (hp : p.length = n.toNat) :
    (c :: n :: p ++ [trailer]).length = n.toNat + 3 := by
  simp [hp]

/-- What the inbound buffer holds behind a blocking receive. -/
theorem inRead_receiveStarted {s : State} {c n trailer : Byte} {p : List Byte} (rest : List Byte) (hp : p.length = n.toNat) (i : Nat) :
    inRead ((receiveStarted s).readIn (c :: n :: p ++ [trailer]) rest) i
      = if i < n.toNat + 3 ∧ i < s.cfg.cIn then (c :: n :: p ++ [trailer])[i]? else inRead s i := by
  rw [inRead_readIn, length_inboundFrame c trailer hp]
  simp [receiveStarted, inRead]

/-- In `Blocking` a loop begun in RECEIVE reads the display's frame, dispatches it, and goes on in RESET (41_session.md R119 corner case 2). -/
theorem drive_receive {s : State} {c n trailer : Byte} {p rest : List Byte} (q : HostPos) (hf : s.fault = .none)
    (hb : s.cfg.transport = .blocking) (ht : s.tstate = .ready) (hs : s.state = .receive) (hp : p.length = n.toNat)
    (hx : s.env.rx = c :: n :: p ++ trailer :: rest) :
    drive q s = drive q (frameDispatched c n p trailer rest s) := by
  have hlen := length_inboundFrame c trailer hp
  have hreceive : sessionArm s = .ok { (receiveStarted s).readIn (c :: n :: p ++ [trailer]) rest with
      tCnt := 0, tstate := .ready, state := .event } := by
    rw [sessionArm_receive hs, receiveStep, receive_blocking hb ht hp hx]
    rfl
  generalize hu : ({ (receiveStarted s).readIn (c :: n :: p ++ [trailer]) rest with
      tCnt := 0, tstate := .ready, state := .event } : State) = u at hreceive
  have hrecords : (inRead u 1).bind (eventRecords u) = some (replyEvents s n p trailer) := by
    subst hu
    exact eventRecords_received hp (fun i hi hc => (inRead_receiveStarted rest hp i).trans (if_pos ⟨hi, hc⟩))
      (by simp only [State.readIn, hlen, receiveStarted, Nat.zero_add])
  have hevent : sessionArm u = .ok (frameDispatched c n p trailer rest s) := by
    rw [sessionArm_event (by rw [← hu]), eventStep_eq_records, hrecords, ← hu]
    rfl
  obtain ⟨hku, _⟩ := sessionArm_ok (by simp [hs]) hreceive
  rw [drive_blocking q hb hf (by simp [hs]), hreceive, at_ok, andThen_ok,
    drive_blocking q (by rw [hku.cfg]; exact hb) (hku.fault.trans hf) (by simp [← hu]), hevent, at_ok, andThen_ok]

/-- A blocking FLUSH of an armed frame that expects no response. -/
theorem flush_finishes_frame {s : State} {len : Byte} {frame refusals rest : List Byte} (ha : Accepting s) (hp : s.pos = .idle)
    (hs : Sending s len frame) (hx : s.env.rx = refusals ++ s.cfg.ack :: rest) (hne : ∀ b ∈ refusals, b ≠ s.cfg.ack)
    (hk : ∀ k, s.cfg.retryLimit = some k → refusals.length ≤ k) (hn : s.nextState = .reset) :
    exec .flush s = .next ((resetStepped (transmitted len frame refusals rest s)).ret .unit) := by
  obtain ⟨hb, hst, -⟩ := id hs
  have hd : drive .flushing s = .ok (resetStepped (transmitted len frame refusals rest s)) := by
    rw [drive_blocking _ hb ha.1 (by simp [hst]), sessionArm_transmitted hs hx hne hk, at_ok, andThen_ok,
      drive_reset _ (by exact ha.1) (isReady_blocking (by exact hb)) (by simp [transmitted, hn, NextState.session])]
  rw [exec_flush_idle ha hp, driving_ok _ hd, flushRest_nothing _ rfl, toOutcome_ok, unitResult]

/-- A blocking FLUSH of an armed poll: the response is received and dispatched before FLUSH returns (41_session.md R119 corner case 2). -/
theorem flush_finishes_poll {s : State} {len c n trailer : Byte} {frame refusals p rest : List Byte} (ha : Accepting s) (hp : s.pos = .idle)
    (hs : Sending s len frame) (hx : s.env.rx = refusals ++ s.cfg.ack :: (c :: n :: p ++ trailer :: rest))
    (hne : ∀ b ∈ refusals, b ≠ s.cfg.ack) (hk : ∀ k, s.cfg.retryLimit = some k → refusals.length ≤ k) (hn : s.nextState = .receive)
    (hl : p.length = n.toNat) :
    exec .flush s = .next ((resetStepped (frameDispatched c n p trailer rest
      (transmitted len frame refusals (c :: n :: p ++ trailer :: rest) s))).ret .unit) := by
  obtain ⟨hb, hst, ht, -⟩ := id hs
  have hd : drive .flushing s = .ok (resetStepped (frameDispatched c n p trailer rest
      (transmitted len frame refusals (c :: n :: p ++ trailer :: rest) s))) := by
    rw [drive_blocking _ hb ha.1 (by simp [hst]), sessionArm_transmitted hs hx hne hk, at_ok, andThen_ok,
      drive_receive (rest := rest) (c := c) (n := n) (p := p) (trailer := trailer) _ (by exact ha.1) (by exact hb) (by exact ht)
        (by simp [transmitted, hn, NextState.session]) hl rfl,
      drive_reset _ (by exact ha.1) (isReady_blocking (by exact hb)) rfl]
  rw [exec_flush_idle ha hp, driving_ok _ hd, flushRest_nothing _ rfl, toOutcome_ok, unitResult]

/-! ## The clauses of O29 -/

theorem flush_in_reset {s : State} (ha : Accepting s) (hr : isReady s = true) (hs : s.state = .reset) (hp : s.pos = .idle ∨ s.pos = .flushing) :
    exec .flush s = .next ((resetStepped s).ret .unit) := by
  rw [exec_flush_drives ha hp, driving_ok _ (drive_reset _ ha.1 hr hs), flushRest_nothing _ rfl, toOutcome_ok, unitResult]

/-- FREE's last loop ends in RESET: the slot is cleared and FREE returns. -/
theorem free_ends_in_reset {s : State} {i : Nat} (hf : s.fault = .none) (hr : isReady s = true) (hs : s.state = .reset)
    (hp : s.pos = .freeingFlush) : exec (.free i) s = .next ((setSlot i Slot.empty (resetStepped s)).ret .unit) := by
  rw [exec_free_freeingFlush hp, driving_ok _ (drive_reset _ hf hr hs), freeFlushRest, flushRest_nothing _ rfl, andThen_ok]
  rfl

/-- In `Tick`, FREE from RESET stages, arms and starts its remove command behind the RESET step. -/
theorem free_tick_from_reset {s : State} {i : Nat} {l : List Byte} (ha : Accepting s) (hv : s.cfg.transport = .tick) (ht : s.tstate = .ready)
    (hs : s.state = .reset) (hp : FreeDrives i s) (h : removeBytes s i = some l) (hl : l.length + 4 ≤ s.cfg.cOut) :
    exec (.free i) s = .next (freeStarted l (resetStepped s)) := by
  have hr : isReady s = true := by simp [isReady_tick hv, ht]
  have hfit : fits (0x1B :: l) (resetStepped s) := by simp [fits, resetStepped]; omega
  rw [exec_free_drives ha hp, driving_ok _ (drive_reset _ ha.1 hr hs),
    freeRest_tick (l := l) (by exact ha.1) rfl (by exact hv) (by exact ht) rfl (by exact h) hfit, toOutcome_wait]

/-- In `Tick`, FREE from READY stages its remove command behind what is staged, arms it and starts its transfer. -/
theorem free_tick_from_ready {s : State} {i : Nat} {l : List Byte} (hs : Staging s) (hv : s.cfg.transport = .tick) (ht : s.tstate = .ready)
    (hp : FreeDrives i s) (hc : s.ctrl = s.cfg.ctrlNoresp) (h : removeBytes s i = some l) (hl : fits (0x1B :: l) s) :
    exec (.free i) s = .next (freeStarted l s) := by
  obtain ⟨ha, hst⟩ := hs
  rw [exec_free_drives ha hp, driving_ok _ (drive_ready _ _ ha.1 hst), freeRest_tick ha.1 hst hv ht hc h hl, toOutcome_wait]

/-- In `Tick`, FLUSH from READY arms the staged bytes and starts their transfer. -/
theorem flush_tick_from_ready {s : State} (hs : Staging s) (hv : s.cfg.transport = .tick) (ht : s.tstate = .ready) (hp : s.pos = .idle)
    (hc : s.ctrl = s.cfg.ctrlNoresp) (h0 : 0 < s.outLen) (hl : s.outLen + 3 ≤ s.cfg.cOut) : exec .flush s = .next { s.armed with
      state := .reset, nextState := .reset, tstate := .start, tRetries := 0, tickEn := true, pos := .flushing } := by
  obtain ⟨ha, hst⟩ := hs
  rw [exec_flush_idle ha hp, driving_ok _ (drive_ready _ _ ha.1 hst), flushRest_tick _ ha.1 hv ht hc h0 hl, toOutcome_wait]

/-- Settles O29: each clause is what the operation's loop does (`drive`), and then what stands behind it. -/
theorem drivingOperationsWaitForTheTransport : Obligations.DrivingOperationsWaitForTheTransport := by
  refine ⟨?busy, ?steps, ?reset, ?flushReady, ?freeReady, ?halted, ?blocking, ?finishes, ?behindFlush, ?returns⟩
  case busy =>
    intro s ha hv ht hs
    have hd := fun p => drive_busy p hv ha.1 hs ht
    refine ⟨fun hp => ?_, fun hp => ?_, fun i => ⟨fun hp => ?_, fun hp => ?_⟩⟩
    · rw [exec_beginFrame_drives ha hp, driving_wait _ (hd _)]
    · rw [exec_flush_drives ha hp, driving_wait _ (hd _)]
    · rw [exec_free_drives ha hp, driving_wait _ (hd _)]
    · rw [exec_free_freeingFlush hp, driving_wait _ (hd _), ← hp]
  case steps =>
    intro s u ha hv ht hs hstep
    have hd := drive_tick_of_step ha hv ht hs hstep
    refine ⟨fun hp => ?_, fun hp => ?_, fun i => ⟨fun hp => ?_, fun hp => ?_⟩⟩
    · rw [exec_beginFrame_drives ha hp, driving_wait _ (hd _)]
    · rw [exec_flush_drives ha hp, driving_wait _ (hd _)]
    · rw [exec_free_drives ha hp, driving_wait _ (hd _)]
    · rw [exec_free_freeingFlush hp, driving_wait _ (hd _)]
  case reset =>
    intro s ha hv ht hs
    have hr : isReady s = true := by simp [isReady_tick hv, ht]
    refine ⟨flush_in_reset ha hr hs, fun i => ⟨fun l hp h hl => ?_, free_ends_in_reset ha.1 hr hs⟩⟩
    refine ⟨_, free_tick_from_reset ha hv ht hs hp h hl, armedFrame_of_outBuf (s := resetStepped s) rfl, ?_⟩
    simp [freeStarted, State.armed, State.staged, resetStepped, hs]
  case flushReady =>
    intro s hs hv ht hp hc h0 hl
    refine ⟨_, flush_tick_from_ready hs hv ht hp hc h0 hl, ?_, rfl⟩
    rw [← hc]
    exact armedFrame_of_outBuf (by rw [staged_nil])
  case freeReady =>
    intro s i l hs hv ht hp hc h hl
    refine ⟨_, free_tick_from_ready hs hv ht hp hc h hl, ?_, rfl⟩
    rw [← hc]
    exact armedFrame_of_outBuf rfl
  case halted =>
    intro s hf
    refine ⟨fun hp => ?_, fun hp => ?_, fun i hp => ?_⟩
    · rw [exec_beginFrame_beginning hp, driving_halted _ _ hf]
    · rw [exec_flush_flushing hp, driving_halted _ _ hf]
    · rcases hp with hp | hp
      · rw [exec_free_freeingBegin hp, driving_halted _ _ hf]
      · rw [exec_free_freeingFlush hp, driving_halted _ _ hf]
  case blocking =>
    intro s u ha hb hp hs
    exact ⟨operations_after_step ha hb hp hs, operations_after_fault ha hb hp hs, operations_after_wait ha hb hp hs⟩
  case finishes =>
    intro s len frame refusals rest ha hp hs hx hne hk
    refine ⟨flush_finishes_frame ha hp hs hx hne hk, ?_⟩
    rintro c n trailer p rest' hn hl rfl
    have hlen := length_inboundFrame c trailer hl
    obtain ⟨-, -, ht, -⟩ := id hs
    refine ⟨_, flush_finishes_poll ha hp hs hx hne hk hn hl, fun i hi hc => ?_, fun i hi => ?_, ?_⟩
    · exact (inRead_receiveStarted rest' hl i).trans (if_pos ⟨hi, hc⟩)
    · exact (inRead_receiveStarted rest' hl i).trans (if_neg (by show ¬ (i < n.toNat + 3 ∧ i < s.cfg.cIn); omega))
    · simp only [resetStepped, frameDispatched, State.readIn, receiveStarted, hlen, Nat.zero_add, ← ht]
      rfl
  case behindFlush =>
    intro s t ha _ hp _ hs h ht
    exact operations_after_flush ha hp hs h ht
  case returns =>
    intro i s t hi hb hp ht he h
    exact exec_returns_of_answered ⟨hb, ht, he⟩ hp hi h

end Sys2Proof.Machine
end

section
/-! SUPPORT. The host's turn (10_state.md R18, 20_memory.md R56), and O6. -/

namespace Sys2Proof.Machine

theorem step_host {s u : State} (h : nextTurn s = (.host, u)) : step s = hostTurn u := by rw [step, h]

/-- A host turn with a record at the port that spells an instruction runs it, and retires the record where the operation returned. -/
theorem hostTurn_decoded {s : State} {r : Record} {i : Instr} (hr : s.env.port.head? = some r) (hd : decode s.cfg r = .ok i) :
    hostTurn s = retireOutcome (exec i s) := by
  rw [hostTurn, portRecord, hr]
  simp only [hd]

theorem retire_idle {s : State} (h : s.pos = .idle) : s.retire = s.popPort := if_pos h

theorem retire_busy {s : State} (h : s.pos ≠ .idle) : s.retire = s := if_neg h

/-- Settles O6: the host's turn runs what its record decodes to, and only a returned operation gives up the port. -/
theorem stepRunsTheDecodedInstruction : Obligations.StepRunsTheDecodedInstruction := by
  intro s u r i hn hr hd
  have hstep : step s = retireOutcome (exec i u) := (step_host hn).trans (hostTurn_decoded hr hd)
  refine ⟨fun t ht hp => ?_, fun t ht hp => ?_, fun f hf => ?_⟩
  · rw [hstep, ht, retireOutcome, retire_idle hp]
    rfl
  · rw [hstep, ht, retireOutcome, retire_busy hp]
  · rw [hstep, hf, retireOutcome]

end Sys2Proof.Machine
end

section
/-! SUPPORT. Properties of states that every operation keeps: from what the parts of an operation keep, what each instruction keeps. -/

namespace Sys2Proof.Machine

/-! ## Where the parts of an operation end -/

theorem ends_mono {P Q : State → Prop} {r : Res} (hPQ : ∀ t, P t → Q t) (h : r.ends P) : r.ends Q := by
  cases r with
  | ok t => exact hPQ t h
  | wait t => exact hPQ t h
  | raised t => exact hPQ t h
  | stop f => trivial

theorem ends_and {P Q : State → Prop} {r : Res} (h : r.ends P) (g : r.ends Q) : r.ends fun t => P t ∧ Q t := by
  cases r with
  | ok t => exact ⟨h, g⟩
  | wait t => exact ⟨h, g⟩
  | raised t => exact ⟨h, g⟩
  | stop f => trivial

theorem ends_of_ok {P : State → Prop} {r : Res} {t : State} (h : r.ends P) (hr : r = .ok t) : P t := by
  subst hr
  exact h

/-- A part and what follows it, where the part ran to its end. -/
theorem ends_andThen {P : State → Prop} {r : Res} {k : State → Res} (h : r.ends P) (hk : ∀ t, r = .ok t → P t → (k t).ends P) :
    (r.andThen k).ends P := by
  cases r with
  | ok t => exact hk t rfl h
  | wait t => exact h
  | raised t => exact h
  | stop f => trivial

theorem toOutcome_ends {P : State → Prop} {r : Res} {g : State → Result} {t : State} (hret : ∀ s x, P s → P (s.ret x)) (h : r.ends P)
    (he : r.toOutcome g = .next t) : P t := by
  cases r with
  | ok s => rw [toOutcome_ok] at he; cases he; exact hret s _ h
  | wait s => rw [toOutcome_wait] at he; cases he; exact h
  | raised s => rw [toOutcome_raised] at he; cases he; exact hret s _ h
  | stop f => rw [toOutcome_stop] at he; cases he

theorem transition_ends {P : State → Prop} {e : Bool} {s t : State} {body : State → Res} (he : transition e s body = .next t) (h : P s)
    (hb : e = true → (body s).ends P) : P t := by
  cases e with
  | false => rw [transition_disabled] at he; cases he; exact h
  | true =>
    rw [transition_enabled] at he
    have hr := hb rfl
    cases hx : body s <;> rw [hx] at he hr <;> cases he <;> exact hr

theorem runTransfer_ends {P : State → Prop} (ht : ∀ s, P s → s.tstate ≠ .ready → (transportStep s).ends P) (n : Nat) :
    ∀ s, P s → (runTransfer n s).ends P := by
  induction n with
  | zero =>
    intro s h
    by_cases hr : s.tstate = .ready
    · rw [runTransfer_ready _ _ hr]; exact h
    · rw [runTransfer_zero _ hr]; exact h
  | succ n ih =>
    intro s h
    by_cases hr : s.tstate = .ready
    · rw [runTransfer_ready _ _ hr]; exact h
    · rw [runTransfer_succ _ _ hr]
      exact ends_andThen (ht s h hr) fun t _ => ih t

/-! ## Staging stays in READY -/

theorem raise_state (c : FaultCode) (s : State) : (raise c s).ends fun t => t.state = s.state := by
  show (if s.fault = .none then { s with fault := c } else s).state = s.state
  split <;> rfl

theorem appendByte_state (b : Byte) (s : State) : (appendByte b s).ends fun t => t.state = s.state := by
  by_cases h : fits [b] s
  · rw [appendByte_ok b s h]; rfl
  · rw [appendByte_full b s h]; exact raise_state _ s

/-! ## Kept properties -/

/-- A property of states that every part of an operation keeps: a delivery, the host's place, the outputs, the handshake byte and a fault;
an append and an arming in READY (40_codec.md R92, 41_session.md R112); a tick (42_transport.md R129) and a session step (41_session.md R110). -/
structure Kept (P : State → Prop) : Prop where
  ret : ∀ s r, P s → P (s.ret r)
  place : ∀ s p, P s → P { s with pos := p }
  events : ∀ s l, P s → P (s.withEvents l)
  bus : ∀ s b, P s → P (s.logBus b)
  handshake : ∀ s b, P s → P { s with tAck := b }
  fault : ∀ s c, s.fault = .none → c ≠ .none → P s → P { s with fault := c }
  append : ∀ s b, P s → s.state = .ready → (appendByte b s).ends P
  arm : ∀ s, P s → s.state = .ready → (arm s).ends P
  armUnder : ∀ s c, P s → s.state = .ready → c = s.cfg.ctrlNoresp ∨ c = s.cfg.ctrlResp → (Machine.arm { s with ctrl := c }).ends P
  tick : ∀ s, P s → (transportStep s).ends P
  session : ∀ s, P s → s.fault = .none → isReady s = true → (sessionArm s).ends P

/-- The property, in READY. -/
def InReady (P : State → Prop) (s : State) : Prop := P s ∧ s.state = .ready

section
variable {P : State → Prop} (hP : Kept P) {s : State}
include hP

theorem Kept.raise {c : FaultCode} (hc : c ≠ .none) (h : P s) : (raise c s).ends P := by
  by_cases hf : s.fault = .none
  · rw [raise_running c s hf]; exact hP.fault s c hf hc h
  · rw [raise_halted c s hf]; exact h

theorem Kept.at (p : HostPos) {r : Res} (h : r.ends P) : (r.at p).ends P := by
  cases r with
  | wait t => exact hP.place t p h
  | ok t => exact h
  | raised t => exact h
  | stop f => trivial

/-! ### Staging -/

theorem Kept.appendByte (b : Byte) (h : InReady P s) : (appendByte b s).ends (InReady P) :=
  ends_mono (fun _ ⟨ht, hs⟩ => ⟨ht, hs.trans h.2⟩) (ends_and (hP.append s b h.1 h.2) (appendByte_state b s))

theorem Kept.appendAll (l : List Byte) : ∀ {s : State}, InReady P s → (appendAll l s).ends (InReady P) := by
  induction l with
  | nil => exact fun h => h
  | cons b rest ih => exact fun h => ends_andThen (hP.appendByte b h) fun _ _ => ih

theorem Kept.opToken (t : Token) (arg : Option Arg) (h : InReady P s) : (opToken t arg s).ends (InReady P) := by
  cases hb : tokenBytes t arg with
  | none =>
    rw [opToken_lacking t arg hb]
    exact ends_mono (fun _ ⟨ht, hs⟩ => ⟨ht, hs.trans h.2⟩) (ends_and (hP.raise (by decide) h.1) (raise_state _ s))
  | some b =>
    rw [opToken_found t arg b hb]
    exact ends_andThen (hP.appendAll b h) fun u _ hu => ⟨hP.events u _ hu.1, hu.2⟩

theorem Kept.encodeTokens (ts : List Token) : ∀ (args : List Arg) {s : State}, InReady P s → (encodeTokens ts args s).ends (InReady P) := by
  induction ts with
  | nil => exact fun _ _ h => h
  | cons t rest ih => exact fun args _ h => ends_andThen (hP.opToken t args.head? h) fun _ _ => ih _

theorem Kept.staging {body : State → Res} (h : P s) (hb : InReady P s → (body s).ends (InReady P)) : (staging body s).ends P := by
  by_cases hs : s.state = .ready
  · rw [staging_ready hs]
    exact ends_mono (fun _ ht => ht.1) (hb ⟨h, hs⟩)
  · rw [Machine.staging, if_pos hs]
    exact hP.raise (by decide) h

theorem Kept.encodeBody (fmt : List Byte) (args : List Arg) (h : P s) : (encodeBody fmt args s).ends P :=
  hP.staging h fun hr => hP.encodeTokens _ _ hr

theorem Kept.removeCommand (i : Nat) (h : P s) : (removeCommand i s).ends P := by
  unfold Machine.removeCommand
  simp only
  split <;> exact hP.encodeBody _ _ h

/-! ### Driving -/

theorem Kept.sessionStep (h : P s) (hf : s.fault = .none) : (sessionStep s).ends P := by
  unfold Machine.sessionStep
  split
  next hr => exact hP.session s h hf hr
  next => exact h

theorem Kept.driveLoop (n : Nat) : ∀ {s : State}, P s → (driveLoop n s).ends P := by
  induction n with
  | zero =>
    intro s h
    unfold Machine.driveLoop
    split
    · exact h
    · split <;> exact h
  | succ n ih =>
    intro s h
    unfold Machine.driveLoop
    split
    · exact h
    next hf =>
      split
      · exact h
      · exact ends_andThen (hP.sessionStep h (not_not.1 hf)) fun _ _ => ih

theorem Kept.drive (p : HostPos) (h : P s) : (drive p s).ends P := hP.at p (hP.driveLoop _ h)

theorem Kept.flushBody (p : HostPos) (h : P s) : (flushBody p s).ends P := by
  refine ends_andThen (hP.drive p h) fun t ht hPt => ?_
  split
  · exact ends_andThen (hP.arm t hPt (drive_ok p s t ht).1) fun _ _ => hP.drive p
  · exact hPt

theorem Kept.beginBody (p : HostPos) (h : P s) : (beginBody p s).ends P :=
  ends_andThen (hP.drive p h) fun t ht hPt => hP.append t _ hPt (drive_ok p s t ht).1

theorem Kept.freeFromFlush (i : Nat) (hc : ∀ t, P t → P (setSlot i Slot.empty t)) (h : P s) : (freeFromFlush i s).ends P :=
  ends_andThen (hP.flushBody _ h) fun t _ => hc t

theorem Kept.freeFromBegin (i : Nat) (hc : ∀ t, P t → P (setSlot i Slot.empty t)) (h : P s) : (freeFromBegin i s).ends P :=
  ends_andThen (hP.beginBody _ h) fun _ _ ht => ends_andThen (hP.removeCommand i ht) fun _ _ => hP.freeFromFlush i hc

theorem Kept.freeBody (i : Nat) (hc : ∀ t, P t → P (setSlot i Slot.empty t)) (h : P s) : (freeBody i s).ends P := by
  unfold Machine.freeBody
  split
  · exact hP.freeFromBegin i hc h
  · exact hP.raise (by decide) h

/-! ### Host operations -/

theorem Kept.toOutcome {r : Res} {g : State → Result} {t : State} (h : r.ends P) (he : r.toOutcome g = .next t) : P t :=
  toOutcome_ends hP.ret h he

/-- A host operation keeps what its body keeps where the common checks let it through (60_exceptions.md R168). -/
theorem Kept.hostOp {su ok : Bool} {t : State} {g : State → Result} {body : State → Res}
    (he : hostOp su ok s g body = .next t) (h : P s) (hb : ok = true → s.fault = .none → (body s).ends P) : P t := by
  rcases hostOp_cases su ok s g body with ⟨_, e⟩ | ⟨hf, _, _, e⟩ | ⟨hf, _, _, e⟩ | ⟨hf, _, hok, e⟩ <;> rw [e] at he
  · cases he; exact hP.ret _ _ h
  · cases he; exact hP.ret _ _ (hP.fault _ _ hf (by decide) h)
  · cases he; exact hP.ret _ _ (hP.fault _ _ hf (by decide) h)
  · exact hP.toOutcome (hb hok hf) he

theorem Kept.execBeginFrame {t : State} (h : P s) (he : execBeginFrame s = .next t) : P t := by
  unfold Machine.execBeginFrame at he
  split at he
  · exact hP.toOutcome (hP.beginBody _ h) he
  · exact hP.hostOp he h fun _ _ => hP.beginBody _ h

theorem Kept.execFlush {t : State} (h : P s) (he : execFlush s = .next t) : P t := by
  unfold Machine.execFlush at he
  split at he
  · exact hP.toOutcome (hP.flushBody _ h) he
  · exact hP.hostOp he h fun _ _ => hP.flushBody _ h

theorem Kept.execStep {t : State} (h : P s) (he : execStep s = .next t) : P t := by
  unfold Machine.execStep at he
  split at he
  · refine hP.toOutcome ?_ he
    split
    next hr => exact hP.at _ (hP.sessionStep h (of_decide_eq_true hr))
    next => exact h
  · split at he
    next hr => exact hP.hostOp he h fun _ hf => hP.at _ (hP.session s h hf hr)
    next => exact hP.hostOp he h fun _ _ => h

theorem Kept.execFree {t : State} (i : Nat) (hc : ∀ u, P u → P (setSlot i Slot.empty u)) (h : P s) (he : execFree i s = .next t) :
    P t := by
  unfold Machine.execFree at he
  split at he
  · exact hP.toOutcome (hP.freeFromBegin i hc h) he
  · exact hP.toOutcome (hP.freeFromFlush i hc h) he
  · exact hP.hostOp he h fun _ _ => hP.freeBody i hc h

/-- A directive token by itself (30_encoding.md R78; log 12). -/
theorem Kept.oneToken {t : State} (tok : Token) (arg : Option Arg) (h : P s) (he : oneToken (Machine.opToken tok arg) s = .next t) : P t :=
  hP.hostOp he h fun _ _ => hP.staging h (hP.opToken tok arg)

/-! ### Transitions -/

/-- A part of a dispatch that appends events (43_registry.md R156 to R164). -/
theorem Kept.dispatching {e : Bool} {t : State} {body : State → Res} (he : transition e s body = .next t) (h : P s)
    (hb : (∃ l, body s = .ok (s.withEvents l)) ∨ ∃ f, body s = .stop f) : P t := by
  refine transition_ends he h fun _ => ?_
  rcases hb with ⟨l, hl⟩ | ⟨f, hf⟩
  · rw [hl]; exact hP.events s l h
  · rw [hf]; trivial

theorem Kept.execTick {t : State} (h : P s) (he : execTick s = .next t) : P t := by
  refine transition_ends he h fun _ => ?_
  have ht := hP.tick s h
  cases hx : transportStep s <;> rw [hx] at ht
  case stop f => trivial
  all_goals exact hP.bus _ _ ht

theorem Kept.receiveAck {t : State} (b : Byte) (h : P s)
    (he : transition (handshakePending s) s (fun s => tickReceiveAck { s with tAck := b }) = .next t) : P t := by
  refine transition_ends he h fun hp => ?_
  have hst : s.tstate = .receiveAck := by
    simp only [handshakePending, Bool.and_eq_true, decide_eq_true_eq] at hp
    exact hp.1
  have htick := hP.tick _ (hP.handshake s b h)
  simpa only [transportStep, hst] using htick

end

theorem armable_iff (s : State) :
    armable s = true ↔ s.state = .ready ∧ isReady s = true ∧ s.attached = true ∧ s.fault = .none := by
  simp [armable, running, and_assoc]

theorem buttonEvent_events (p : List Byte) (s : State) :
    (∃ l, buttonEvent p s = .ok (s.withEvents l)) ∨ ∃ f, buttonEvent p s = .stop f := by
  unfold buttonEvent
  split
  · exact .inl ⟨_, by rw [resolveCode_eq]⟩
  · exact .inr ⟨_, rfl⟩

theorem touchEvent_events (p : List Byte) (s : State) :
    (∃ l, touchEvent p s = .ok (s.withEvents l)) ∨ ∃ f, touchEvent p s = .stop f := by
  unfold touchEvent
  split
  · exact .inl ⟨[.diag .badTouchLength], rfl⟩
  · split
    · exact .inl ⟨_, by rw [touchSub_eq]⟩
    · exact .inr ⟨_, rfl⟩

/-- The hook behind an event appends to the stream too (43_registry.md R164). -/
theorem andThen_hook_events {s : State} {r : Res} (h : (∃ l, r = .ok (s.withEvents l)) ∨ ∃ f, r = .stop f) :
    (∃ l, (r.andThen fun t => .ok (hookCall t)) = .ok (s.withEvents l)) ∨ ∃ f, (r.andThen fun t => .ok (hookCall t)) = .stop f := by
  rcases h with ⟨l, rfl⟩ | ⟨f, rfl⟩
  · exact .inl ⟨_, by rw [andThen_ok, hookCall_withEvents]⟩
  · exact .inr ⟨f, rfl⟩

/-- A kept property survives every instruction that writes neither the registry nor the attachment. -/
theorem Kept.exec {P : State → Prop} (hP : Kept P) {i : Instr} {s t : State} (hw : writesRegistry i = false) (hi : i ≠ .setup) (h : P s)
    (he : exec i s = .next t) : P t := by
  cases i
  case setup => exact absurd rfl hi
  case beginFrame => exact hP.execBeginFrame h he
  case putU8 v => exact hP.hostOp he h fun _ _ => hP.staging h (hP.appendByte _)
  case putU16le v => exact hP.hostOp he h fun _ _ => hP.staging h (hP.appendAll _)
  case putCstr str => exact hP.hostOp he h fun _ _ => hP.staging h (hP.appendAll _)
  case encode fmt args => exact hP.hostOp he h fun _ _ => hP.encodeBody fmt args h
  case flush => exact hP.execFlush h he
  case step => exact hP.execStep h he
  case isReady => exact hP.hostOp he h fun _ _ => h
  case undefinedHostOpcode o ops => exact hP.hostOp he h fun _ _ => h
  case tick => exact hP.execTick h he
  case poll =>
    refine transition_ends he h fun ha => ?_
    obtain ⟨hs, hr, _, hf⟩ := (armable_iff s).1 ha
    rw [← sessionArm_ready hs]
    exact hP.session s h hf hr
  case ctrlNoresp => exact transition_ends (show execCtrlNoresp s = .next t from he) h fun ha => hP.armUnder s _ h ((armable_iff s).1 ha).1 (.inl rfl)
  case ctrlResp => exact transition_ends (show execCtrlResp s = .next t from he) h fun ha => hP.armUnder s _ h ((armable_iff s).1 ha).1 (.inr rfl)
  case ack => exact hP.receiveAck _ h he
  case nak b => exact hP.receiveAck b h he
  case esc => exact hP.hostOp he h fun _ _ => hP.staging h (hP.appendByte _)
  case lit b => exact hP.oneToken (.lit b) none h he
  case dirChar arg => exact hP.oneToken .char arg h he
  case dirWord arg => exact hP.oneToken .word arg h he
  case dirStr arg => exact hP.oneToken .str arg h he
  case dirPercent => exact hP.oneToken .percent none h he
  case dirUnknown d => exact hP.oneToken (.unknown d) none h he
  case trailingPct => exact hP.oneToken .trailing none h he
  case evButton p => exact hP.dispatching (show execEvButton p s = .next t from he) h (andThen_hook_events (buttonEvent_events p s))
  case evTouch p =>
    exact hP.dispatching (show execEvTouch p s = .next t from he) h
      (andThen_hook_events (touchEvent_events p s))
  case evUnknown p =>
    exact hP.dispatching (show execEvUnknown p s = .next t from he) h
      (.inl ⟨_, congrArg Res.ok (hookCall_withEvents s [.diag .unknownEvent])⟩)
  case buttonCode press k =>
    exact hP.dispatching (show execButtonCode press k s = .next t from he) h (.inl ⟨_, congrArg Res.ok (resolveCode_eq s _)⟩)
  case subRelease x y =>
    exact hP.dispatching (show execSubRelease x y s = .next t from he) h (.inl ⟨_, congrArg Res.ok (touchSub_eq s _ x y)⟩)
  case subPress x y =>
    exact hP.dispatching (show execSubPress x y s = .next t from he) h (.inl ⟨_, congrArg Res.ok (touchSub_eq s _ x y)⟩)
  case subRepeat => exact hP.dispatching (show execSubRepeat s = .next t from he) h (.inl ⟨_, congrArg Res.ok (touchSub_eq s _ 0 0)⟩)
  case subOther b => exact hP.dispatching (show execSubOther b s = .next t from he) h (.inl ⟨_, congrArg Res.ok (touchSub_eq s b 0 0)⟩)
  all_goals cases hw

end Sys2Proof.Machine
end

section
/-! SUPPORT. Who writes the registry, the fault register, the configuration and the attachment (10_state.md R28, R29, R35 to R38), and O50. -/

namespace Sys2Proof.Machine

/-! ## What no shared operation touches -/

/-- The configuration, the attachment, the registry and a recorded fault are the same (10_state.md R28, R29, R35 to R38). -/
structure Untouched (s t : State) : Prop where
  cfg : t.cfg = s.cfg
  attached : t.attached = s.attached
  registry : SameRegistry s t
  fault : s.fault ≠ .none → t.fault = s.fault

/-- A state in which none of these fields was written. -/
theorem Untouched.of_eq {s t : State} (hc : t.cfg = s.cfg) (ha : t.attached = s.attached) (hf : t.fault = s.fault)
    (hs : t.slots = s.slots) (hw : t.window = s.window) (hh : t.hook = s.hook) : Untouched s t :=
  ⟨hc, ha, ⟨hs, hw, hh⟩, fun _ => hf⟩

theorem SameRegistry.trans {s t u : State} (h : SameRegistry s t) (g : SameRegistry t u) : SameRegistry s u := by
  obtain ⟨hs, hw, hh⟩ := h
  obtain ⟨gs, gw, gh⟩ := g
  exact ⟨gs.trans hs, gw.trans hw, gh.trans hh⟩

theorem Untouched.trans {s t u : State} (h : Untouched s t) (g : Untouched t u) : Untouched s u :=
  ⟨g.cfg.trans h.cfg, g.attached.trans h.attached, h.registry.trans g.registry,
    fun hf => (g.fault (by rw [h.fault hf]; exact hf)).trans (h.fault hf)⟩

theorem Untouched.refl (s : State) : Untouched s s := .of_eq rfl rfl rfl rfl rfl rfl

/-- Recording a fault while none is recorded (60_exceptions.md R171). -/
theorem untouched_fault {s : State} (c : FaultCode) (h : s.fault = .none) : Untouched s { s with fault := c } :=
  ⟨rfl, rfl, ⟨rfl, rfl, rfl⟩, fun hf => absurd h hf⟩

theorem ends_untouched_of {s t : State} {r : Res} (h : Untouched s t) (hr : r.ends (Untouched t)) : r.ends (Untouched s) :=
  ends_mono (fun _ => h.trans) hr

theorem untouched_andThen {s : State} {r : Res} {k : State → Res} (h : r.ends (Untouched s)) (hk : ∀ t, (k t).ends (Untouched t)) :
    (r.andThen k).ends (Untouched s) :=
  ends_andThen h fun t _ ht => ends_untouched_of ht (hk t)

theorem raise_untouched (c : FaultCode) (s : State) : (raise c s).ends (Untouched s) := by
  by_cases hf : s.fault = .none
  · rw [raise_running c s hf]; exact untouched_fault c hf
  · rw [raise_halted c s hf]; exact .refl s

/-! ### Staging and arming -/

theorem outWrite_untouched (i : Nat) (v : Byte) (s : State) : (outWrite i v s).ends (Untouched s) := by
  unfold outWrite
  split
  · exact .of_eq rfl rfl rfl rfl rfl rfl
  · trivial

theorem appendByte_untouched (b : Byte) (s : State) : (appendByte b s).ends (Untouched s) := by
  unfold appendByte
  split
  · exact raise_untouched _ s
  · exact untouched_andThen (outWrite_untouched _ _ s) fun t => .of_eq rfl rfl rfl rfl rfl rfl

theorem appendAll_untouched (l : List Byte) : ∀ s : State, (appendAll l s).ends (Untouched s) := by
  induction l with
  | nil => exact .refl
  | cons b rest ih => exact fun s => untouched_andThen (appendByte_untouched b s) ih

theorem arm_untouched (s : State) : (arm s).ends (Untouched s) := by
  have hfin : (finalize s).ends (Untouched s) :=
    untouched_andThen (outWrite_untouched _ _ s) fun t => untouched_andThen (outWrite_untouched _ _ t) fun u => outWrite_untouched _ _ u
  exact untouched_andThen hfin fun t => .of_eq rfl rfl rfl rfl rfl rfl

/-! ### Ticks and transfers -/

/-- Only the decision of a handshake byte raises. -/
theorem transportStep_ok_or_stop {s : State} (h : s.tstate ≠ .receiveAck) :
    (∃ t, transportStep s = .ok t) ∨ ∃ f, transportStep s = .stop f := by
  cases hst : s.tstate <;> simp only [transportStep, hst]
  case start => unfold tickStart; split <;> simp
  case send => unfold tickSend; split <;> [split; skip] <;> simp
  case wait => unfold tickWait; split <;> simp
  case receiveAck => exact absurd hst h
  case receive => exact .inl ⟨_, rfl⟩
  case receiveHeader => unfold tickReceiveHeader; simp only; split <;> [split; skip] <;> simp
  case receivePayload => unfold tickReceivePayload; simp only; split <;> simp
  case ready => exact .inl ⟨_, rfl⟩

/-- A transport step leaves the fault register, or records the passed retry ceiling in it (42_transport.md R133, R140). -/
theorem transportStep_fault (s : State) :
    (transportStep s).ends fun t => t.fault = s.fault ∨ (s.fault = .none ∧ t.fault = .retryLimit) := by
  by_cases hst : s.tstate = .receiveAck
  · simp only [transportStep, hst, tickReceiveAck, handshakeAck, handshakeNak]
    split
    · exact .inl rfl
    · split
      · by_cases hf : s.fault = .none
        · rw [raise_running _ _ (by simpa using hf)]
          exact .inr ⟨hf, rfl⟩
        · rw [raise_halted _ _ (by simpa using hf)]
          exact .inl (setCs_fault s false)
      · exact .inl (setCs_fault s false)
  · rcases transportStep_ok_or_stop hst with ⟨t, ht⟩ | ⟨f, hf⟩
    · rw [ht]
      exact .inl (transportStep_ok_keeps_fault ht).1
    · rw [hf]
      trivial

theorem transportStep_untouched (s : State) : (transportStep s).ends (Untouched s) := by
  refine ends_mono (fun t ⟨hw, hf⟩ => ?_) (ends_and (transportStep_writes s) (transportStep_fault s))
  have hw : t = _ := hw
  exact ⟨by rw [hw], by rw [hw], ⟨by rw [hw], by rw [hw], by rw [hw]⟩, fun hn => hf.resolve_right fun h => hn h.1⟩

theorem runTransfer_untouched (n : Nat) (s : State) : (runTransfer n s).ends (Untouched s) :=
  runTransfer_ends (fun u hu _ => ends_untouched_of hu (transportStep_untouched u)) n s (.refl s)

theorem transmit_untouched (s : State) : (transmit s).ends (Untouched s) := by
  unfold transmit
  split
  · exact .of_eq rfl rfl rfl rfl rfl rfl
  · have hd : Untouched s (drawHandshakes s) := by
      have hw := drawHandshakes_writes s
      exact .of_eq (by rw [hw]) (by rw [hw]) (by rw [hw]) (by rw [hw]) (by rw [hw]) (by rw [hw])
    split
    · refine ends_untouched_of ?_ (runTransfer_untouched _ _)
      exact hd.trans (.of_eq rfl rfl rfl rfl rfl rfl)
    · exact ends_untouched_of hd (runTransfer_untouched _ _)

theorem receive_untouched (s : State) : (receive s).ends (Untouched s) := by
  unfold receive
  split
  · exact .of_eq rfl rfl rfl rfl rfl rfl
  · split
    · refine ends_untouched_of ?_ (runTransfer_untouched _ _)
      exact .of_eq rfl rfl rfl rfl rfl rfl
    · exact runTransfer_untouched _ s

theorem sessionArm_untouched (s : State) : (sessionArm s).ends (Untouched s) := by
  cases hst : s.state with
  | ready =>
    rw [sessionArm_ready hst]
    have hctrl : Untouched s { s with ctrl := s.cfg.ctrlResp } := .of_eq rfl rfl rfl rfl rfl rfl
    exact untouched_andThen (ends_untouched_of hctrl (appendAll_untouched _ _)) arm_untouched
  | transmit =>
    rw [sessionArm_transmit hst]
    exact untouched_andThen (transmit_untouched s) fun t => .of_eq rfl rfl rfl rfl rfl rfl
  | receive =>
    rw [sessionArm_receive hst]
    exact untouched_andThen (receive_untouched s) fun t => .of_eq rfl rfl rfl rfl rfl rfl
  | event =>
    rw [sessionArm_event hst, eventStep_eq_records]
    split
    · exact .of_eq rfl rfl rfl rfl rfl rfl
    · trivial
  | reset =>
    rw [sessionArm_reset hst]
    exact .of_eq rfl rfl rfl rfl rfl rfl

/-! ## What an instruction may write -/

/-- What instruction `i` may have written: the registry only where it is a registry operation, the attachment only where it is SETUP, and the
fault register only where it held NONE. -/
structure WritesAllowed (i : Instr) (s t : State) : Prop where
  cfg : t.cfg = s.cfg
  attached : i ≠ .setup → t.attached = s.attached
  registry : writesRegistry i = false → SameRegistry s t
  fault : s.fault ≠ .none → t.fault = s.fault

theorem WritesAllowed.refl (i : Instr) (s : State) : WritesAllowed i s s := ⟨rfl, fun _ => rfl, fun _ => ⟨rfl, rfl, rfl⟩, fun _ => rfl⟩

theorem WritesAllowed.trans {i : Instr} {s t u : State} (h : WritesAllowed i s t) (g : WritesAllowed i t u) : WritesAllowed i s u :=
  ⟨g.cfg.trans h.cfg, fun hi => (g.attached hi).trans (h.attached hi), fun hi => (h.registry hi).trans (g.registry hi),
    fun hf => (g.fault (by rw [h.fault hf]; exact hf)).trans (h.fault hf)⟩

theorem WritesAllowed.untouched {i : Instr} {s t u : State} (h : WritesAllowed i s t) (g : Untouched t u) : WritesAllowed i s u :=
  h.trans ⟨g.cfg, fun _ => g.attached, fun _ => g.registry, g.fault⟩

/-- A registry operation that leaves the configuration, the attachment and the fault register. -/
theorem WritesAllowed.of_registry {i : Instr} {s t : State} (hi : writesRegistry i = true) (hc : t.cfg = s.cfg) (ha : t.attached = s.attached)
    (hf : t.fault = s.fault) : WritesAllowed i s t :=
  ⟨hc, fun _ => ha, fun hn => absurd (hi.symm.trans hn) (by decide), fun _ => hf⟩

/-- Every part of an operation keeps within what its instruction may write. -/
theorem writesAllowed_kept (i : Instr) (s : State) : Kept (WritesAllowed i s) where
  ret _ _ h := h.untouched (.of_eq rfl rfl rfl rfl rfl rfl)
  place _ _ h := h.untouched (.of_eq rfl rfl rfl rfl rfl rfl)
  events _ _ h := h.untouched (.of_eq rfl rfl rfl rfl rfl rfl)
  bus _ _ h := h.untouched (.of_eq rfl rfl rfl rfl rfl rfl)
  handshake _ _ h := h.untouched (.of_eq rfl rfl rfl rfl rfl rfl)
  fault _ c hf _ h := h.untouched (untouched_fault c hf)
  append u b h _ := ends_mono (fun _ => h.untouched) (appendByte_untouched b u)
  arm u h _ := ends_mono (fun _ => h.untouched) (arm_untouched u)
  armUnder u c h _ _ :=
    have hc : Untouched u { u with ctrl := c } := .of_eq rfl rfl rfl rfl rfl rfl
    ends_mono (fun _ => h.untouched) (ends_untouched_of hc (arm_untouched _))
  tick u h := ends_mono (fun _ => h.untouched) (transportStep_untouched u)
  session u h _ _ := ends_mono (fun _ => h.untouched) (sessionArm_untouched u)

/-- Opening the channel draws an outcome, and writes nothing of the block. -/
theorem openChannel_env (s : State) : ∃ e, (openChannel s).2 = { s with env := e } := by
  unfold openChannel
  split <;> exact ⟨_, rfl⟩

/-- SETUP's body leaves everything but the attachment and the environment (41_session.md R124). -/
theorem setupBody_eq (s : State) : ∃ a e, setupBody s = .ok { s with attached := a, env := e } := by
  obtain ⟨e, he⟩ := openChannel_env s
  unfold setupBody
  split
  · exact ⟨s.attached, s.env, rfl⟩
  · split
    next t ht =>
      rw [ht] at he
      exact ⟨true, e, by rw [show t = _ from he]⟩
    next t ht =>
      rw [ht] at he
      exact ⟨s.attached, e, by rw [show t = _ from he]⟩

theorem setupBody_writesAllowed (s : State) : (setupBody s).ends (WritesAllowed .setup s) := by
  obtain ⟨a, e, h⟩ := setupBody_eq s
  rw [h]
  exact ⟨rfl, fun hn => absurd rfl hn, fun _ => ⟨rfl, rfl, rfl⟩, fun _ => rfl⟩

theorem allocate_writesAllowed {i : Instr} (hi : writesRegistry i = true) (found : Option Nat) (v : Slot) (s : State) :
    (allocate found v s).ends (WritesAllowed i s) := by
  unfold allocate
  split
  · exact .of_registry hi rfl rfl rfl
  · exact (writesAllowed_kept i s).raise (by decide) (.refl i s)

theorem setEnabledBody_writesAllowed (n e : Nat) (s : State) :
    (setEnabledBody n (decide (e = 1)) s).ends (WritesAllowed (.setEnabled n e) s) := by
  unfold setEnabledBody
  split
  · exact .of_registry rfl rfl rfl rfl
  · exact (writesAllowed_kept _ s).raise (by decide) (.refl _ s)

/-- Every instruction but RESET keeps within what it may write. -/
theorem exec_writesAllowed {i : Instr} {s t : State} (hr : i ≠ .reset) (he : exec i s = .next t) : WritesAllowed i s t := by
  have hk := writesAllowed_kept i s
  have h0 : WritesAllowed i s s := .refl i s
  cases i
  case setup => exact hk.hostOp he h0 fun _ _ => setupBody_writesAllowed s
  case reset => exact absurd rfl hr
  case allocCode cb user => exact hk.hostOp he h0 fun _ _ => allocate_writesAllowed rfl _ _ s
  case allocArea r cb user => exact hk.hostOp he h0 fun _ _ => allocate_writesAllowed rfl _ _ s
  case free n => exact hk.execFree n (fun u hu => hu.trans (.of_registry rfl rfl rfl rfl)) h0 he
  case setEnabled n e => exact hk.hostOp he h0 fun _ _ => setEnabledBody_writesAllowed n e s
  case setWindow r => exact hk.hostOp (show execSetWindow r s = .next t from he) h0 fun _ _ => .of_registry rfl rfl rfl rfl
  case clearWindow => exact hk.hostOp (show execClearWindow s = .next t from he) h0 fun _ _ => .of_registry rfl rfl rfl rfl
  case setHook k => exact hk.hostOp (show execSetHook k s = .next t from he) h0 fun _ _ => .of_registry rfl rfl rfl rfl
  case clearHook => exact hk.hostOp (show execClearHook s = .next t from he) h0 fun _ _ => .of_registry rfl rfl rfl rfl
  all_goals exact hk.exec rfl (by simp) h0 he

/-- Settles O50: every part of an operation keeps within what its instruction may write, and RESET keeps the configuration. -/
theorem registryFaultAndAttachmentHaveFewWriters : Obligations.RegistryFaultAndAttachmentHaveFewWriters := by
  intro i s t he
  by_cases hr : i = .reset
  · subst hr
    cases he
    exact ⟨(fun h => nomatch h), fun h => absurd rfl h, rfl, fun _ h => absurd rfl h⟩
  · have hw := exec_writesAllowed hr he
    exact ⟨hw.registry, fun _ => hw.fault, hw.cfg, fun hs _ => hw.attached hs⟩

end Sys2Proof.Machine
end

section
/-! SUPPORT. The parts of a good state: what each depends on, and the transport's part by the phase of a transfer (10_state.md R21 to R35,
20_memory.md R44, R55). -/

namespace Sys2Proof.Machine

theorem cfg_cOut (c : Cfg) : 4 ≤ c.cOut ∧ c.cOut ≤ 258 := by
  obtain ⟨_, _, h4, h258, _⟩ := configConstraints_cfg c
  exact ⟨h4, h258⟩

section
variable {s t : State}

/-! ## What each part depends on -/

theorem MemoryInv.congr (h : MemoryInv s) (hc : t.cfg = s.cfg) (ho : t.outBuf = s.outBuf) (hi : t.inBuf = s.inBuf) : MemoryInv t where
  outWf := ho ▸ h.outWf
  inWf := hi ▸ h.inWf
  outBound i hb := by rw [outRead, ho]; exact h.outBound i (hc ▸ hb)
  inBound i hb := by rw [inRead, hi]; exact h.inBound i (hc ▸ hb)

theorem CodecInv.congr (h : CodecInv s) (hc : t.cfg = s.cfg) (ho : t.outBuf = s.outBuf) (hl : t.outLen = s.outLen) (hs : t.outSum = s.outSum) :
    CodecInv t where
  room := by rw [hl, hc]; exact h.room
  sum := by rw [ho, hl, hs]; exact h.sum

theorem outTrailer_congr (hl : t.outLen = s.outLen) (hs : t.outSum = s.outSum) (hk : t.ctrl = s.ctrl) : outTrailer t = outTrailer s := by
  rw [outTrailer, hl, hs, hk, outTrailer]

/-- The session's part does not see the transport. -/
theorem SessionInv.congr (h : SessionInv s) (hc : t.cfg = s.cfg) (ho : t.outBuf = s.outBuf) (hl : t.outLen = s.outLen)
    (hs : t.outSum = s.outSum) (hk : t.ctrl = s.ctrl) (hst : t.state = s.state) (hn : t.nextState = s.nextState)
    (hf : t.fault = .none → s.fault = .none) : SessionInv t where
  ctrlLegal := by rw [hk, hc]; exact h.ctrlLegal
  readyCtrl hr hn := by rw [hk, hc]; exact h.readyCtrl (hst ▸ hr) (hf hn)
  header hr := by
    rw [outTrailer_congr hl hs hk, outRead, outRead, outRead, ho, hl, hk]
    exact h.header (hst ▸ hr)
  chosen hr := by rw [hn, nextStateOf, hk, hc]; exact h.chosen (hst ▸ hr)

/-- The session goes on from an armed frame, which stays in the buffer (20_memory.md R43, R45). -/
theorem SessionInv.advance (h : SessionInv s) (hs : s.state ≠ .ready) (hr : t.state ≠ .ready) (ht : t.state ≠ .transmit)
    (hc : t.cfg = s.cfg) (ho : t.outBuf = s.outBuf) (hl : t.outLen = s.outLen) (hsum : t.outSum = s.outSum) (hk : t.ctrl = s.ctrl) :
    SessionInv t where
  ctrlLegal := by rw [hk, hc]; exact h.ctrlLegal
  readyCtrl h := absurd h hr
  header _ := by
    rw [outTrailer_congr hl hsum hk, outRead, outRead, outRead, ho, hl, hk]
    exact h.header hs
  chosen h := absurd h ht

theorem LineInv.congr (h : LineInv s) (hc : t.cfg = s.cfg) (hcs : t.cs = s.cs) (he : t.tickEn = s.tickEn)
    (ht : t.tstate = s.tstate) : LineInv t where
  blocking hb := by rw [he, hcs]; exact h.blocking (hc ▸ hb)
  tick hv hn := by rw [he]; exact h.tick (hc ▸ hv) (ht ▸ hn)

/-- A tick inside a transfer: the tick stays enabled, and in `Blocking` the line is not driven. -/
theorem LineInv.step (h : LineInv s) (hn : s.tstate ≠ .ready) (hc : t.cfg = s.cfg) (he : t.tickEn = s.tickEn)
    (hcs : s.cfg.transport = .blocking → t.cs = s.cs) : LineInv t where
  blocking hb := by
    have hb : s.cfg.transport = .blocking := hc ▸ hb
    rw [he, hcs hb]
    exact h.blocking hb
  tick hv _ := by rw [he]; exact h.tick (hc ▸ hv) hn

theorem TableInv.congr (h : TableInv s) (hc : t.cfg = s.cfg) (hs : t.slots = s.slots) : TableInv t where
  size := by rw [hs, hc]; exact h.size
  emptySlots := by rw [hs]; exact h.emptySlots

/-! ## The transport's part, by the phase of a transfer -/

/-- The whole frame is in the inbound buffer, unless it overflowed (20_memory.md R55). -/
def FrameStored (s : State) : Prop := ∃ n, inRead s 1 = some n ∧ (s.inOvf = false → ∀ i, i < n.toNat + 3 → inRead s i ≠ none)

/-- The inbound counters agree with the bytes read, and those that fit are stored (42_transport.md R137). -/
structure InboundStored (s : State) : Prop where
  counted : InboundCounted s
  bytes : ∀ i, i < min s.tIdx s.cfg.cIn → inRead s i ≠ none

theorem FrameStored.congr (h : FrameStored s) (hi : t.inBuf = s.inBuf) (ho : t.inOvf = s.inOvf) : FrameStored t := by
  unfold FrameStored inRead
  rw [hi, ho]
  exact h

theorem InboundStored.inLen_le (h : InboundStored s) : s.inLen ≤ s.cfg.cIn := by
  rw [h.counted.1]
  exact Nat.min_le_right _ _

theorem TransportInv.inboundStored (h : TransportInv s) (hp : s.tstate = .receiveHeader ∨ s.tstate = .receivePayload) : InboundStored s := by
  obtain ⟨hl, ho, hb⟩ := h.stored hp
  exact ⟨⟨hl, ho⟩, hb⟩

/-- No transfer is in progress. -/
theorem TransportInv.of_ready (ht : t.tstate = .ready) (hf : t.state = .event → FrameStored t) (hb : t.inLen ≤ t.cfg.cIn) :
    TransportInv t := by
  constructor <;> simp [ht, sendingState, receivingState, hb]
  exact hf

/-- A transmit is in progress. -/
theorem TransportInv.of_sending (ht : sendingState t.tstate = true) (hs : t.state = sendingSession t)
    (hc : t.tstate = .send → t.tIdx + t.tCnt = t.outLen + 3) (hb : t.inLen ≤ t.cfg.cIn) : TransportInv t := by
  have hr : receivingState t.tstate = false ∧ t.tstate ≠ .ready := by
    revert ht
    cases t.tstate <;> simp [sendingState, receivingState]
  have hne : ∀ x, receivingState x = true → t.tstate ≠ x := by
    rintro x hx rfl
    rw [hr.1] at hx
    cases hx
  exact ⟨fun _ => hs, fun h => absurd h (by simp [hr.1]), hc, fun h => absurd h (hne _ rfl), fun h => absurd h (hne _ rfl),
    fun h => absurd h (hne _ rfl), fun h => h.elim (fun h => absurd h (hne _ rfl)) fun h => absurd h (hne _ rfl),
    fun _ h => absurd h hr.2, hb⟩

/-- A receive has been started. -/
theorem TransportInv.of_receive (ht : t.tstate = .receive) (hs : t.state = receivingSession t) (hl : t.inLen = 0) (ho : t.inOvf = false) :
    TransportInv t := by
  constructor <;> simp [ht, sendingState, receivingState, hs, hl, ho]

/-- The header of a frame is being received. -/
theorem TransportInv.of_header (ht : t.tstate = .receiveHeader) (hs : t.state = receivingSession t) (hc : t.tIdx + t.tCnt = 2 ∧ 0 < t.tCnt)
    (hi : InboundStored t) : TransportInv t := by
  obtain ⟨hl, ho⟩ := hi.counted
  exact ⟨by simp [ht, sendingState], fun _ => hs, by simp [ht], by simp [ht], fun _ => hc, by simp [ht], fun _ => ⟨hl, ho, hi.bytes⟩,
    by simp [ht], hi.inLen_le⟩

/-- The payload or the trailer of a frame is being received. -/
theorem TransportInv.of_payload (ht : t.tstate = .receivePayload) (hs : t.state = receivingSession t)
    (hc : 0 < t.tCnt ∧ 2 ≤ t.tIdx ∧ ∃ n, inRead t 1 = some n ∧ t.tIdx + t.tCnt = n.toNat + 3) (hi : InboundStored t) : TransportInv t := by
  obtain ⟨hl, ho⟩ := hi.counted
  exact ⟨by simp [ht, sendingState], fun _ => hs, by simp [ht], by simp [ht], by simp [ht], fun _ => hc, fun _ => ⟨hl, ho, hi.bytes⟩,
    by simp [ht], hi.inLen_le⟩

theorem sendingSession_congr (hc : t.cfg = s.cfg) (hn : t.nextState = s.nextState) : sendingSession t = sendingSession s := by
  rw [sendingSession, hc, hn, sendingSession]

theorem receivingSession_congr (hc : t.cfg = s.cfg) : receivingSession t = receivingSession s := by
  rw [receivingSession, hc, receivingSession]

/-- A transmit is in progress outside READY and outside EVENT only (42_transport.md R141). -/
theorem sendingSession_ne (s : State) : sendingSession s ≠ .ready ∧ sendingSession s ≠ .event := by
  unfold sendingSession
  split
  · simp
  · cases s.nextState <;> simp [NextState.session]

theorem TransportInv.congr (h : TransportInv s) (hc : t.cfg = s.cfg) (hst : t.state = s.state) (hn : t.nextState = s.nextState)
    (hol : t.outLen = s.outLen) (hts : t.tstate = s.tstate) (hix : t.tIdx = s.tIdx) (hcn : t.tCnt = s.tCnt) (hib : t.inBuf = s.inBuf)
    (hil : t.inLen = s.inLen) (hio : t.inOvf = s.inOvf) : TransportInv t := by
  have hsend := sendingSession_congr hc hn
  have hrecv := receivingSession_congr hc
  obtain ⟨h1, h2, h3, h4, h5, h6, h7, h8, h9⟩ := h
  constructor <;> simp only [inRead, hsend, hrecv, hc, hst, hol, hts, hix, hcn, hib, hil, hio] <;> assumption

end

end Sys2Proof.Machine
end

section
/-! SUPPORT. A tick keeps good states good (42_transport.md R130 to R138). -/

namespace Sys2Proof.Machine

/-! ## One byte read and stored -/

@[simp] theorem rxByte_cfg (s : State) : (rxByte s).cfg = s.cfg := by rw [rxByte_eq s _ _ rfl]
@[simp] theorem rxByte_state (s : State) : (rxByte s).state = s.state := by rw [rxByte_eq s _ _ rfl]
@[simp] theorem rxByte_tstate (s : State) : (rxByte s).tstate = s.tstate := (rxByte_count s).2
@[simp] theorem rxByte_tIdx (s : State) : (rxByte s).tIdx = s.tIdx + 1 := by rw [rxByte_eq s _ _ rfl]
@[simp] theorem rxByte_tCnt (s : State) : (rxByte s).tCnt = s.tCnt - 1 := (rxByte_count s).1
@[simp] theorem rxByte_cs (s : State) : (rxByte s).cs = s.cs := by rw [rxByte_eq s _ _ rfl]
@[simp] theorem rxByte_tickEn (s : State) : (rxByte s).tickEn = s.tickEn := by rw [rxByte_eq s _ _ rfl]

/-- What the inbound buffer holds after a byte was read (42_transport.md R137). -/
theorem inRead_rxByte (s : State) (i : Nat) :
    inRead (rxByte s) i = if i = s.tIdx ∧ s.tIdx < s.cfg.cIn then some (drawByte s.env).1 else inRead s i := by
  rw [rxByte_eq s _ _ rfl, inRead]
  by_cases hc : s.tIdx < s.cfg.cIn
  · simp only [hc, if_true, and_true, readMem_writeMem]
    rfl
  · simp only [hc, if_false, and_false]
    rfl

theorem inRead_rxByte_before (s : State) {i : Nat} (h : i < s.tIdx) : inRead (rxByte s) i = inRead s i := by
  rw [inRead_rxByte, if_neg (by omega)]

/-- A byte read keeps the inbound buffer's form and bound (20_memory.md R44). -/
theorem rxByte_inBuf {s : State} (h : MemoryInv s) :
    Memory.wf (rxByte s).inBuf = true ∧ ∀ i, (rxByte s).cfg.cIn ≤ i → inRead (rxByte s) i = none := by
  refine ⟨?_, fun i hi => ?_⟩
  · rw [rxByte_eq s _ _ rfl]
    show Memory.wf (if s.tIdx < s.cfg.cIn then _ else s.inBuf) = true
    split
    · exact Memory.wf_writeMem _ _ _ h.inWf
    · exact h.inWf
  · rw [rxByte_cfg] at hi
    rw [inRead_rxByte, if_neg (by omega)]
    exact h.inBound i hi

theorem rxByte_inboundStored {s : State} (h : InboundStored s) : InboundStored (rxByte s) where
  counted := by
    obtain ⟨hl, ho⟩ := h.counted
    rw [rxByte_eq s _ _ rfl]
    by_cases hc : s.tIdx < s.cfg.cIn
    · simp only [InboundCounted, hc, if_true, hl, ho]
      exact ⟨by omega, by simp; omega⟩
    · simp only [InboundCounted, hc, if_false, hl]
      exact ⟨by omega, by simp; omega⟩
  bytes i hi := by
    rw [rxByte_tIdx, rxByte_cfg] at hi
    rw [inRead_rxByte]
    split
    · simp
    next hn => exact h.bytes i (by omega)

theorem rxByte_line {s : State} (h : LineInv s) (hn : s.tstate ≠ .ready) : LineInv (rxByte s) :=
  h.step hn (rxByte_cfg s) (rxByte_tickEn s) fun _ => rxByte_cs s

/-- A frame all of whose bytes were read is stored, unless it overflowed (20_memory.md R55). -/
theorem InboundStored.frameStored {s : State} (h : InboundStored s) {n : Byte} (h1 : inRead s 1 = some n) (hx : s.tIdx = n.toNat + 3) :
    FrameStored s := by
  refine ⟨n, h1, fun ho i hi => h.bytes i ?_⟩
  have hfit : ¬ s.cfg.cIn < s.tIdx := by simpa [h.counted.2] using ho
  omega

/-! ## The ticks -/

/-- What a tick must keep beside what it never writes: the inbound buffer, the transport's part and the line. -/
structure TickKept (t : State) : Prop where
  inWf : Memory.wf t.inBuf = true
  inBound : ∀ i, t.cfg.cIn ≤ i → inRead t i = none
  transport : TransportInv t
  line : LineInv t

/-- A tick writes nothing else, so the other parts of a good state stand (42_transport.md R129). -/
theorem TickKept.good {s t : State} (h : GoodState s) (hw : TransportWrites s t)
    (hf : t.fault = s.fault ∨ (s.fault = .none ∧ t.fault = .retryLimit)) (hk : TickKept t) : GoodState t := by
  have hw : t = _ := hw
  have hc : t.cfg = s.cfg := by rw [hw]
  have ho : t.outBuf = s.outBuf := by rw [hw]
  have hl : t.outLen = s.outLen := by rw [hw]
  have hs : t.outSum = s.outSum := by rw [hw]
  have hrun : t.fault = .none → s.fault = .none := by
    rintro h0
    rcases hf with hf | ⟨hf, _⟩
    · rw [← hf]; exact h0
    · exact hf
  refine ⟨⟨ho ▸ h.memory.outWf, hk.inWf, fun i hi => ?_, hk.inBound⟩, h.codec.congr hc ho hl hs,
    h.session.congr hc ho hl hs (by rw [hw]) (by rw [hw]) (by rw [hw]) hrun, hk.transport, hk.line, h.table.congr hc (by rw [hw])⟩
  rw [outRead, ho]
  exact h.memory.outBound i (hc ▸ hi)

section
variable {s t : State}

/-- What a tick inside a transmit may write: neither a buffer nor the tick enable (42_transport.md R130 to R133). -/
def TransmitWrites (s t : State) : Prop :=
  t = { s with
    fault := t.fault, tstate := t.tstate, tIdx := t.tIdx, tCnt := t.tCnt, tWait := t.tWait, tRetries := t.tRetries, tAck := t.tAck
    cs := t.cs, env := t.env, out := t.out }

theorem TransmitWrites.trans {a b c : State} (h : TransmitWrites a b) (g : TransmitWrites b c) : TransmitWrites a c := by
  unfold TransmitWrites at *
  rw [g, h]

theorem transmitWrites_setCs (v : Bool) (s : State) : TransmitWrites s (s.setCs v) := by
  unfold State.setCs
  split <;> rfl

/-- A tick inside a transmit that leaves the transmit in progress. -/
theorem TickKept.of_sending (h : GoodState s) (hs : sendingState s.tstate = true) (ht : sendingState t.tstate = true)
    (hw : TransmitWrites s t) (hcs : s.cfg.transport = .blocking → t.cs = s.cs)
    (hcount : t.tstate = .send → t.tIdx + t.tCnt = t.outLen + 3) : TickKept t := by
  have hw : t = _ := hw
  have hc : t.cfg = s.cfg := by rw [hw]
  have hi : t.inBuf = s.inBuf := by rw [hw]
  have hst : t.state = s.state := by rw [hw]
  have hil : t.inLen = s.inLen := by rw [hw]
  refine ⟨hi ▸ h.memory.inWf, fun i hb => ?_, .of_sending ht ?_ hcount ?_, h.line.step ?_ hc (by rw [hw]) hcs⟩
  · rw [inRead, hi]
    exact h.memory.inBound i (hc ▸ hb)
  · rw [hst, sendingSession_congr hc (by rw [hw])]
    exact h.transport.sending hs
  · rw [hil, hc]
    exact h.transport.inLenBound
  · intro hr
    rw [hr] at hs
    cases hs

theorem setCs_line (s : State) (v : Bool) (h : s.cfg.transport = .blocking) : (s.setCs v).cs = s.cs := by simp [h]

/-- In a transmit the length byte of the armed frame is its length (10_state.md R43; 20_memory.md R58). -/
theorem GoodState.lengthByte (h : GoodState s) (hs : sendingState s.tstate = true) {n : Byte} (hn : outRead s 1 = some n) :
    n.toNat = s.outLen := by
  have hr : s.state ≠ .ready := by rw [h.transport.sending hs]; exact (sendingSession_ne s).1
  obtain ⟨_, hlen, _⟩ := h.session.header hr
  have hroom := h.codec.room
  have hmax := (cfg_cOut s.cfg).2
  rw [hn] at hlen
  rw [Option.some.inj hlen, byteOf, BitVec.toNat_ofNat]
  omega

theorem tickStart_kept (h : GoodState s) (hst : s.tstate = .start) : (tickStart s).ends TickKept := by
  have hs : sendingState s.tstate = true := by rw [hst]; rfl
  unfold tickStart
  split
  next n hn =>
    refine .of_sending h hs rfl ((transmitWrites_setCs true s).trans rfl) (setCs_line s true) fun _ => ?_
    simp [h.lengthByte hs hn]
  next => trivial

theorem tickSend_kept (h : GoodState s) (hst : s.tstate = .send) : (tickSend s).ends TickKept := by
  have hs : sendingState s.tstate = true := by rw [hst]; rfl
  have hcount := h.transport.sendCount hst
  unfold tickSend
  split
  · split
    next hpos b _ =>
      refine .of_sending h hs hs rfl (fun _ => rfl) fun _ => ?_
      show s.tIdx + 1 + (s.tCnt - 1) = s.outLen + 3
      omega
    next => trivial
  · exact .of_sending h hs rfl ((transmitWrites_setCs false s).trans rfl) (setCs_line s false) nofun

theorem tickWait_kept (h : GoodState s) (hst : s.tstate = .wait) : (tickWait s).ends TickKept := by
  have hs : sendingState s.tstate = true := by rw [hst]; rfl
  unfold tickWait
  split
  · exact .of_sending h hs hs rfl (fun _ => rfl) fun hsend => absurd (hst.symm.trans hsend) (by decide)
  · show TickKept { (busRx (s.setCs true)).2 with tAck := (busRx (s.setCs true)).1, tstate := .receiveAck }
    exact .of_sending h hs rfl ((transmitWrites_setCs true s).trans rfl) (setCs_line s true) nofun

theorem tickReceiveAck_kept (h : GoodState s) (hst : s.tstate = .receiveAck) : (tickReceiveAck s).ends TickKept := by
  have hs : sendingState s.tstate = true := by rw [hst]; rfl
  have hsession := h.transport.sending hs
  unfold tickReceiveAck
  split
  · exact ⟨h.memory.inWf, h.memory.inBound,
      .of_ready rfl (fun he => absurd (hsession.symm.trans he) (sendingSession_ne s).2) h.transport.inLenBound,
      h.line.step (by simp [hst]) rfl rfl fun _ => rfl⟩
  · unfold handshakeNak
    simp only
    split
    · unfold raise
      split <;>
        exact .of_sending h hs (by simpa using hs) ((transmitWrites_setCs false s).trans rfl) (setCs_line s false)
          fun hsend => by simp [hst] at hsend
    · exact .of_sending h hs rfl ((transmitWrites_setCs false s).trans rfl) (setCs_line s false) nofun

theorem tickReceive_kept (h : GoodState s) (hst : s.tstate = .receive) : (tickReceive s).ends TickKept := by
  obtain ⟨hl, ho⟩ := h.transport.fresh hst
  have hsession := h.transport.receiving (by rw [hst]; rfl)
  refine ⟨?_, fun i hi => ?_, .of_header rfl ?_ ⟨rfl, by simp⟩ ⟨⟨?_, ?_⟩, fun i hi => ?_⟩,
    h.line.step (by simp [hst]) (by simp) (by simp) (setCs_line s true)⟩
  · simpa using h.memory.inWf
  · simpa [inRead] using h.memory.inBound i (by simpa using hi)
  · simpa [receivingSession] using hsession
  · simpa using hl
  · simpa using ho
  · simp at hi

theorem tickReceiveHeader_kept (h : GoodState s) (hst : s.tstate = .receiveHeader) : (tickReceiveHeader s).ends TickKept := by
  obtain ⟨hcount, hpos⟩ := h.transport.headerCount hst
  have hsession := h.transport.receiving (by rw [hst]; rfl)
  have hstored := rxByte_inboundStored (h.transport.inboundStored (.inl hst))
  obtain ⟨hwf, hbound⟩ := rxByte_inBuf h.memory
  have hbusy : (rxByte s).tstate ≠ .ready := by simp [hst]
  have hline := rxByte_line h.line (by simp [hst])
  unfold tickReceiveHeader
  simp only
  split
  next hz =>
    split
    next n hn =>
      refine ⟨hwf, hbound, .of_payload rfl ?_ ⟨by simp, ?_, n, hn, ?_⟩ ⟨hstored.counted, hstored.bytes⟩,
        hline.step hbusy rfl rfl fun _ => rfl⟩
      · simpa [receivingSession] using hsession
      · simp at hz ⊢; omega
      · simp at hz ⊢; omega
    next => trivial
  next hz =>
    refine ⟨hwf, hbound, .of_header (by simpa using hst) ?_ ?_ hstored, hline⟩
    · simpa [receivingSession] using hsession
    · simp at hz ⊢; omega

/-- The last byte of a frame completes it (42_transport.md R136). -/
theorem rxByte_frameStored (h : TransportInv s) (hst : s.tstate = .receivePayload) (hz : (rxByte s).tCnt = 0) : FrameStored (rxByte s) := by
  obtain ⟨hpos, hidx, n, hn, hcount⟩ := h.payloadCount hst
  refine (rxByte_inboundStored (h.inboundStored (.inr hst))).frameStored ((inRead_rxByte_before s (by omega)).trans hn) ?_
  simp at hz ⊢
  omega

theorem tickReceivePayload_kept (h : GoodState s) (hst : s.tstate = .receivePayload) : (tickReceivePayload s).ends TickKept := by
  obtain ⟨hpos, hidx, n, hn, hcount⟩ := h.transport.payloadCount hst
  have hsession := h.transport.receiving (by rw [hst]; rfl)
  have hstored := rxByte_inboundStored (h.transport.inboundStored (.inr hst))
  obtain ⟨hwf, hbound⟩ := rxByte_inBuf h.memory
  have hbusy : (rxByte s).tstate ≠ .ready := by simp [hst]
  have hline := rxByte_line h.line (by simp [hst])
  unfold tickReceivePayload
  simp only
  split
  next hz =>
    exact ⟨hwf, hbound, .of_ready rfl (fun _ => rxByte_frameStored h.transport hst hz) hstored.inLen_le,
      hline.step hbusy rfl rfl fun _ => rfl⟩
  next hz =>
    refine ⟨hwf, hbound, .of_payload (by simpa using hst) ?_ ⟨by omega, ?_, n, ?_, ?_⟩ hstored, hline⟩
    · simpa [receivingSession] using hsession
    · simp; omega
    · exact (inRead_rxByte_before s (by omega)).trans hn
    · simp at hz ⊢; omega

theorem tickReady_kept (h : GoodState s) (hst : s.tstate = .ready) : (tickReady s).ends TickKept := by
  refine ⟨by simpa using h.memory.inWf, fun i hi => ?_, .of_ready (by simpa using hst) (fun he => ?_) ?_,
    ⟨fun hb => ⟨rfl, ?_⟩, fun _ hn => ?_⟩⟩
  · simpa [inRead] using h.memory.inBound i (by simpa using hi)
  · have hframe : FrameStored s := h.transport.frame (by simpa using he) hst
    exact hframe.congr (by simp) (by simp)
  · simpa using h.transport.inLenBound
  · have hb : s.cfg.transport = .blocking := by simpa using hb
    exact (setCs_line s false hb).trans (h.line.blocking hb).2
  · exact absurd (by simpa using hst) hn

theorem transportStep_kept (h : GoodState s) : (transportStep s).ends TickKept := by
  cases hst : s.tstate <;> simp only [transportStep, hst]
  case start => exact tickStart_kept h hst
  case send => exact tickSend_kept h hst
  case wait => exact tickWait_kept h hst
  case receiveAck => exact tickReceiveAck_kept h hst
  case receive => exact tickReceive_kept h hst
  case receiveHeader => exact tickReceiveHeader_kept h hst
  case receivePayload => exact tickReceivePayload_kept h hst
  case ready => exact tickReady_kept h hst

/-- A transport step keeps good states good. -/
theorem transportStep_good (h : GoodState s) : (transportStep s).ends GoodState :=
  ends_mono (fun _ ⟨⟨hw, hf⟩, hk⟩ => hk.good h hw hf)
    (ends_and (ends_and (transportStep_writes s) (transportStep_fault s)) (transportStep_kept h))

/-- A receive that ends leaves the whole frame stored, unless it overflowed (20_memory.md R55). -/
theorem transportStep_frameStored (h : GoodState s) (hr : receivingState s.tstate = true) :
    (transportStep s).ends fun t => t.tstate = .ready → FrameStored t := by
  cases hst : s.tstate <;> rw [hst] at hr <;> cases hr <;> simp only [transportStep, hst]
  case receive => exact nofun
  case receiveHeader =>
    unfold tickReceiveHeader
    simp only
    split
    · split
      · exact nofun
      · trivial
    · intro ht
      rw [rxByte_tstate, hst] at ht
      cases ht
  case receivePayload =>
    unfold tickReceivePayload
    simp only
    split
    next hz => exact fun _ => (rxByte_frameStored h.transport hst hz).congr rfl rfl
    next =>
      intro ht
      rw [rxByte_tstate, hst] at ht
      cases ht

end

end Sys2Proof.Machine
end

section
/-! SUPPORT. Staging, arming and session steps keep good states good (40_codec.md R92, R105, 41_session.md R110 to R118). -/

namespace Sys2Proof.Machine

section
variable {s t : State}

/-! ## Fields no good state depends on -/

/-- A good state sees neither the attachment, the window, the hook, the host, the outputs nor the transport's other counters. -/
theorem GoodState.of_table (h : GoodState s)
    (ht : t = { s with
      slots := t.slots, attached := t.attached, window := t.window, hook := t.hook, tWait := t.tWait, tRetries := t.tRetries, tAck := t.tAck
      pos := t.pos, env := t.env, out := t.out })
    (htable : TableInv t) : GoodState t := by
  have hc : t.cfg = s.cfg := by rw [ht]
  have ho : t.outBuf = s.outBuf := by rw [ht]
  have hi : t.inBuf = s.inBuf := by rw [ht]
  have hl : t.outLen = s.outLen := by rw [ht]
  have hs : t.outSum = s.outSum := by rw [ht]
  have hst : t.state = s.state := by rw [ht]
  have hn : t.nextState = s.nextState := by rw [ht]
  have hts : t.tstate = s.tstate := by rw [ht]
  have hf : t.fault = s.fault := by rw [ht]
  exact ⟨h.memory.congr hc ho hi, h.codec.congr hc ho hl hs, h.session.congr hc ho hl hs (by rw [ht]) hst hn (fun h0 => hf ▸ h0),
    h.transport.congr hc hst hn hl hts (by rw [ht]) (by rw [ht]) hi (by rw [ht]) (by rw [ht]), h.line.congr hc (by rw [ht]) (by rw [ht]) hts,
    htable⟩

theorem GoodState.unseen (h : GoodState s)
    (ht : t = { s with
      attached := t.attached, window := t.window, hook := t.hook, tWait := t.tWait, tRetries := t.tRetries, tAck := t.tAck
      pos := t.pos, env := t.env, out := t.out }) : GoodState t :=
  h.of_table (by rw [ht]) (h.table.congr (by rw [ht]) (by rw [ht]))

theorem GoodState.fault (h : GoodState s) {c : FaultCode} (hc : c ≠ .none) : GoodState { s with fault := c } where
  memory := h.memory.congr rfl rfl rfl
  codec := h.codec.congr rfl rfl rfl rfl
  session := h.session.congr rfl rfl rfl rfl rfl rfl rfl fun h0 => absurd h0 hc
  transport := h.transport.congr rfl rfl rfl rfl rfl rfl rfl rfl rfl rfl
  line := h.line.congr rfl rfl rfl rfl
  table := h.table.congr rfl rfl

/-! ## Where no transfer is in progress -/

/-- A transfer is in progress in its own session state only (42_transport.md R141). -/
theorem GoodState.transport_idle (h : GoodState s) (hs : s.state ≠ sendingSession s) (hr : s.state ≠ receivingSession s) :
    s.tstate = .ready := by
  have hsend : sendingState s.tstate ≠ true := fun hx => hs (h.transport.sending hx)
  have hrecv : receivingState s.tstate ≠ true := fun hx => hr (h.transport.receiving hx)
  revert hsend hrecv
  cases s.tstate <;> simp [sendingState, receivingState]

theorem receivingSession_ne_ready (s : State) : receivingSession s ≠ .ready := by
  unfold receivingSession
  split <;> simp

theorem GoodState.transport_ready (h : GoodState s) (hs : s.state = .ready) : s.tstate = .ready :=
  h.transport_idle (by rw [hs]; exact (sendingSession_ne s).1.symm) (by rw [hs]; exact (receivingSession_ne_ready s).symm)

/-- Where a session step can be taken, and it is no step of a transfer, none is in progress. -/
theorem GoodState.transport_done (h : GoodState s) (hr : isReady s = true) (ht : s.state ≠ .transmit) (hrc : s.state ≠ .receive) :
    s.tstate = .ready := by
  cases hv : s.cfg.transport with
  | tick => simpa [isReady_tick hv] using hr
  | blocking => exact h.transport_idle (by simpa [sendingSession, hv] using ht) (by simpa [receivingSession, hv] using hrc)

/-! ## READY -/

/-- A good state in READY, but for the control byte, which a poll and a control byte by itself write before they arm. -/
structure ReadyGood (s : State) : Prop where
  memory : MemoryInv s
  codec : CodecInv s
  ctrlLegal : s.ctrl = s.cfg.ctrlNoresp ∨ s.ctrl = s.cfg.ctrlResp
  state : s.state = .ready
  tstate : s.tstate = .ready
  inLenBound : s.inLen ≤ s.cfg.cIn
  line : LineInv s
  table : TableInv s

theorem GoodState.ready (h : GoodState s) (hs : s.state = .ready) : ReadyGood s :=
  ⟨h.memory, h.codec, h.session.ctrlLegal, hs, h.transport_ready hs, h.transport.inLenBound, h.line, h.table⟩

theorem ReadyGood.good (h : ReadyGood s) (hk : s.fault = .none → s.ctrl = s.cfg.ctrlNoresp) : GoodState s where
  memory := h.memory
  codec := h.codec
  session := ⟨h.ctrlLegal, fun _ => hk, fun hn => absurd h.state hn, fun ht => absurd (h.state.symm.trans ht) (by decide)⟩
  transport := .of_ready h.tstate (fun he => absurd (h.state.symm.trans he) (by decide)) h.inLenBound
  line := h.line
  table := h.table

theorem ReadyGood.withCtrl (h : ReadyGood s) {c : Byte} (hc : c = s.cfg.ctrlNoresp ∨ c = s.cfg.ctrlResp) : ReadyGood { s with ctrl := c } where
  memory := h.memory.congr rfl rfl rfl
  codec := h.codec.congr rfl rfl rfl rfl
  ctrlLegal := hc
  state := h.state
  tstate := h.tstate
  inLenBound := h.inLenBound
  line := h.line.congr rfl rfl rfl rfl
  table := h.table.congr rfl rfl

/-- A fault in READY: the control byte is not held to its default then (41_session.md R118). -/
theorem ReadyGood.raise (h : ReadyGood s) {c : FaultCode} (hc : c ≠ .none) : (raise c s).ends GoodState := by
  by_cases hf : s.fault = .none
  · rw [raise_running c s hf]
    have hready : ReadyGood { s with fault := c } := ⟨h.memory.congr rfl rfl rfl, h.codec.congr rfl rfl rfl rfl, h.ctrlLegal, h.state, h.tstate,
      h.inLenBound, h.line.congr rfl rfl rfl rfl, h.table.congr rfl rfl⟩
    exact hready.good fun h0 => absurd h0 hc
  · rw [raise_halted c s hf]
    exact h.good fun h0 => absurd h0 hf

/-- Bytes that fit are staged behind those that stand (40_codec.md R92). -/
theorem ReadyGood.staged (h : ReadyGood s) {l : List Byte} (hf : fits l s) : ReadyGood (s.staged l) where
  memory := by
    refine ⟨Memory.wf_writeBytes l _ _ h.memory.outWf, h.memory.inWf, fun i hi => ?_, h.memory.inBound⟩
    have hi : s.cfg.cOut ≤ i := hi
    unfold fits at hf
    show readMem (writeBytes s.outBuf (2 + s.outLen) l) i = none
    rw [readMem_writeBytes, if_neg (by omega)]
    exact h.memory.outBound i hi
  codec := by
    obtain ⟨p, hp, hsum⟩ := h.codec.sum
    refine ⟨hf, p ++ l, readRange_staged l hp, ?_⟩
    rw [sum8_append, hsum]
    rfl
  ctrlLegal := h.ctrlLegal
  state := h.state
  tstate := h.tstate
  inLenBound := h.inLenBound
  line := h.line.congr rfl rfl rfl rfl
  table := h.table.congr rfl rfl

theorem CodecInv.fits_nil (h : CodecInv s) : fits [] s := h.room

/-- What arming leaves in the outbound buffer (40_codec.md R105). -/
theorem outRead_armed (s : State) (i : Nat) : outRead s.armed i =
    if i = 2 + s.outLen then some (s.outSum + s.ctrl + byteOf s.outLen)
    else if i = 1 then some (byteOf s.outLen) else if i = 0 then some s.ctrl else outRead s i := by
  simp only [outRead, State.armed, readMem_writeMem, byteOf]

/-- Arming in READY (41_session.md R112). -/
theorem ReadyGood.armed (h : ReadyGood s) : GoodState s.armed where
  memory := by
    have hroom := h.codec.room
    have hwf := Memory.wf_writeMem _ 1 (byteOf s.outLen) (Memory.wf_writeMem _ 0 s.ctrl h.memory.outWf)
    refine ⟨Memory.wf_writeMem _ _ _ hwf, h.memory.inWf, fun i hi => ?_, h.memory.inBound⟩
    have hi : s.cfg.cOut ≤ i := hi
    rw [outRead_armed, if_neg (by omega), if_neg (by omega), if_neg (by omega)]
    exact h.memory.outBound i hi
  codec := by
    obtain ⟨p, hp, hsum⟩ := h.codec.sum
    refine ⟨h.codec.room, p, ?_, hsum⟩
    show readRange (writeMem (writeMem (writeMem s.outBuf 0 _) 1 _) (2 + s.outLen) _) 2 s.outLen = some p
    rw [readRange_writeMem_outside _ _ (by omega), readRange_writeMem_outside _ _ (by omega), readRange_writeMem_outside _ _ (by omega)]
    exact hp
  session := by
    refine ⟨h.ctrlLegal, nofun, fun _ => ⟨?_, ?_, ?_⟩, fun _ => rfl⟩
    · rw [outRead_armed, if_neg (by omega), if_neg (by omega), if_pos rfl]
      rfl
    · rw [outRead_armed, if_neg (by omega), if_pos rfl]
      rfl
    · rw [outRead_armed]
      exact if_pos rfl
  transport := .of_ready h.tstate nofun h.inLenBound
  line := h.line.congr rfl rfl rfl rfl
  table := h.table.congr rfl rfl

theorem ReadyGood.arm (h : ReadyGood s) : (arm s).ends GoodState := by
  rw [arm_ok s h.codec.room]
  exact h.armed

theorem GoodState.append (h : GoodState s) (hs : s.state = .ready) (b : Byte) : (appendByte b s).ends GoodState := by
  by_cases hf : fits [b] s
  · rw [appendByte_ok b s hf]
    exact ((h.ready hs).staged hf).good (h.session.readyCtrl hs)
  · rw [appendByte_full b s hf]
    exact (h.ready hs).raise (by decide)

/-! ## Session steps -/

/-- The poll: its payload is staged under the other control byte and armed, or does not fit and halts the block (41_session.md R111). -/
theorem pollStep_good (h : GoodState s) (hs : s.state = .ready) : (pollStep s).ends GoodState := by
  have hready := (h.ready hs).withCtrl (.inr rfl)
  unfold pollStep
  by_cases hf : fits s.cfg.pollPayload { s with ctrl := s.cfg.ctrlResp }
  · rw [appendAll_ok _ _ hf, andThen_ok]
    exact (hready.staged hf).arm
  · rw [appendAll_full _ _ hf hready.codec.fits_nil]
    have htake : fits (s.cfg.pollPayload.take (s.cfg.cOut - 3 - s.outLen)) { s with ctrl := s.cfg.ctrlResp } := by
      have hroom := h.codec.room
      simp only [fits, List.length_take]
      omega
    exact ends_andThen ((hready.staged htake).raise (by decide)) fun t ht _ => nomatch ht

/-- The session goes on from an armed frame: only its state, the transport and the outputs are written. -/
theorem GoodState.advance (h : GoodState s) (hs : s.state ≠ .ready) (hr : t.state ≠ .ready) (ht : t.state ≠ .transmit)
    (hw : t = { s with
      state := t.state, tstate := t.tstate, tRetries := t.tRetries, inLen := t.inLen, inOvf := t.inOvf, tickEn := t.tickEn, out := t.out })
    (htransport : TransportInv t) (hline : LineInv t) : GoodState t := by
  have hc : t.cfg = s.cfg := by rw [hw]
  have ho : t.outBuf = s.outBuf := by rw [hw]
  have hl : t.outLen = s.outLen := by rw [hw]
  have hsum : t.outSum = s.outSum := by rw [hw]
  exact ⟨h.memory.congr hc ho (by rw [hw]), h.codec.congr hc ho hl hsum, h.session.advance hs hr ht hc ho hl hsum (by rw [hw]), htransport, hline,
    h.table.congr hc (by rw [hw])⟩

theorem session_ne (x : NextState) : x.session ≠ .ready ∧ x.session ≠ .transmit ∧ x.session ≠ .event := by
  cases x <;> simp [NextState.session]

/-! ### In `Tick` -/

theorem transmitStep_tick_good (h : GoodState s) (hv : s.cfg.transport = .tick) (hs : s.state = .transmit) : (transmitStep s).ends GoodState := by
  obtain ⟨hr, ht, _⟩ := session_ne s.nextState
  rw [transmitStep_tick hv]
  refine h.advance (by simp [hs]) hr ht rfl (.of_sending rfl ?_ nofun h.transport.inLenBound) ⟨fun hb => ?_, fun _ _ => rfl⟩
  · simp [sendingSession, hv]
  · exact absurd (hv.symm.trans hb) (by decide)

theorem receiveStep_tick_good (h : GoodState s) (hv : s.cfg.transport = .tick) (hs : s.state = .receive) : (receiveStep s).ends GoodState := by
  rw [receiveStep_tick hv]
  refine h.advance (by simp [hs]) (by simp) (by simp) rfl (.of_receive rfl ?_ rfl rfl) ⟨fun hb => ?_, fun _ _ => rfl⟩
  · simp [receivingSession, hv]
  · exact absurd (hv.symm.trans hb) (by decide)

/-! ### In `Blocking` -/

/-- A blocking transfer starts from a ready transport in its own session state. -/
theorem GoodState.start_blocking (h : GoodState s) (hb : s.cfg.transport = .blocking) (hw : TransportWrites s t) (hf : t.fault = s.fault)
    (hi : t.inBuf = s.inBuf) (hcs : t.cs = s.cs) (he : t.tickEn = s.tickEn) (ht : TransportInv t) : GoodState t := by
  have hc : t.cfg = s.cfg := by rw [show t = _ from hw]
  refine TickKept.good h hw (.inl hf) ⟨hi ▸ h.memory.inWf, fun i hb => ?_, ht, ⟨fun _ => ?_, fun hv _ => ?_⟩⟩
  · rw [inRead, hi]
    exact h.memory.inBound i (hc ▸ hb)
  · rw [he, hcs]
    exact h.line.blocking hb
  · exact absurd (hb.symm.trans (hc ▸ hv)) (by decide)

/-- A blocking transmit keeps good states good, and the session in TRANSMIT (42_transport.md R142). -/
theorem transmit_good (h : GoodState s) (hb : s.cfg.transport = .blocking) (hs : s.state = .transmit) :
    (transmit s).ends fun t => GoodState t ∧ t.state = .transmit := by
  have hd := drawHandshakes_writes s
  have hgood : GoodState (drawHandshakes s) := h.unseen (by rw [hd])
  have hcfg : (drawHandshakes s).cfg = s.cfg := by rw [hd]
  have hstate : (drawHandshakes s).state = .transmit := by rw [hd]; exact hs
  have hstep : ∀ u, (GoodState u ∧ u.state = .transmit) → u.tstate ≠ .ready →
      (transportStep u).ends fun t => GoodState t ∧ t.state = .transmit := fun u ⟨hu, hst⟩ _ =>
    ends_and (transportStep_good hu) (ends_mono (fun t hw => by rw [show t = _ from hw]; exact hst) (transportStep_writes u))
  unfold transmit
  rw [hb]
  refine runTransfer_ends hstep _ _ ?_
  split
  · refine ⟨hgood.start_blocking (hcfg ▸ hb) rfl rfl rfl rfl rfl (.of_sending rfl ?_ nofun hgood.transport.inLenBound), hstate⟩
    rw [hstate, sendingSession]
    simp [hcfg, hb]
  · exact ⟨hgood, hstate⟩

theorem transmitStep_blocking_good (h : GoodState s) (hb : s.cfg.transport = .blocking) (hs : s.state = .transmit) :
    (transmitStep s).ends GoodState := by
  have hgood := transmit_good h hb hs
  unfold transmitStep
  refine ends_andThen (ends_mono (fun _ ht => ht.1) hgood) fun t ht hg => ?_
  obtain ⟨_, hst⟩ := ends_of_ok hgood ht
  have hts : t.tstate = .ready := (transmit_ok_keeps ht).2 hb
  obtain ⟨hr, hnt, hne⟩ := session_ne t.nextState
  exact hg.advance (by simp [hst]) hr hnt rfl (.of_ready hts (fun he => absurd he hne) hg.transport.inLenBound) (hg.line.congr rfl rfl rfl rfl)

/-- A blocking receive in progress: a good state in RECEIVE, with the whole frame stored once the transport is ready. -/
structure Receiving (s : State) : Prop where
  good : GoodState s
  blocking : s.cfg.transport = .blocking
  state : s.state = .receive
  frame : s.tstate = .ready → FrameStored s

theorem transportStep_receiving (h : Receiving s) (hn : s.tstate ≠ .ready) : (transportStep s).ends Receiving := by
  have hrecv : receivingState s.tstate = true := by
    have hsend : sendingState s.tstate ≠ true := fun hx => by
      have := h.good.transport.sending hx
      simp [sendingSession, h.blocking, h.state] at this
    revert hsend hn
    cases s.tstate <;> simp [sendingState, receivingState]
  refine ends_mono (fun t ⟨⟨hg, hw⟩, hf⟩ => ?_)
    (ends_and (ends_and (transportStep_good h.good) (transportStep_writes s)) (transportStep_frameStored h.good hrecv))
  have hw : t = _ := hw
  exact ⟨hg, by rw [hw]; exact h.blocking, by rw [hw]; exact h.state, hf⟩

theorem receive_receiving (h : GoodState s) (hb : s.cfg.transport = .blocking) (hs : s.state = .receive) : (receive s).ends Receiving := by
  unfold receive
  rw [hb]
  refine runTransfer_ends (fun _ => transportStep_receiving) _ _ ?_
  split
  · refine ⟨h.start_blocking hb rfl rfl rfl rfl rfl (.of_receive rfl ?_ rfl rfl), hb, hs, nofun⟩
    simp [receivingSession, hb, hs]
  next hn => exact ⟨h, hb, hs, fun ht => absurd ht hn⟩

theorem receiveStep_blocking_good (h : GoodState s) (hb : s.cfg.transport = .blocking) (hs : s.state = .receive) :
    (receiveStep s).ends GoodState := by
  have hrecv := receive_receiving h hb hs
  unfold receiveStep
  refine ends_andThen (ends_mono (fun _ ht => ht.good) hrecv) fun t ht hg => ?_
  obtain ⟨_, _, hst, hframe⟩ := ends_of_ok hrecv ht
  have hts : t.tstate = .ready := (receive_ok_keeps ht).2 hb
  exact hg.advance (by simp [hst]) (by simp) (by simp) rfl (.of_ready hts (fun _ => (hframe hts).congr rfl rfl) hg.transport.inLenBound)
    (hg.line.congr rfl rfl rfl rfl)

/-! ### In both variants -/

theorem eventStep_good (h : GoodState s) (hr : isReady s = true) (hs : s.state = .event) : (eventStep s).ends GoodState := by
  have hts := h.transport_done hr (by simp [hs]) (by simp [hs])
  rw [eventStep_eq_records]
  split
  · exact h.advance (by simp [hs]) (by simp) (by simp) rfl (.of_ready hts nofun h.transport.inLenBound) (h.line.congr rfl rfl rfl rfl)
  · trivial

theorem resetStep_good (h : GoodState s) (hr : isReady s = true) (hs : s.state = .reset) : (resetStep s).ends GoodState := by
  have hts := h.transport_done hr (by simp [hs]) (by simp [hs])
  have hready : ReadyGood (resetStepped s) := ⟨h.memory.congr rfl rfl rfl,
    ⟨Nat.le_trans (show 0 + 3 ≤ 4 by decide) (cfg_cOut s.cfg).1, [], rfl, rfl⟩, .inl rfl, rfl, hts, h.transport.inLenBound,
    h.line.congr rfl rfl rfl rfl, h.table.congr rfl rfl⟩
  exact hready.good fun _ => rfl

/-- Every session step keeps good states good (41_session.md R110). -/
theorem sessionArm_good (h : GoodState s) (hr : isReady s = true) : (sessionArm s).ends GoodState := by
  cases hst : s.state with
  | ready => rw [sessionArm_ready hst]; exact pollStep_good h hst
  | transmit =>
    rw [sessionArm_transmit hst]
    cases hv : s.cfg.transport with
    | tick => exact transmitStep_tick_good h hv hst
    | blocking => exact transmitStep_blocking_good h hv hst
  | receive =>
    rw [sessionArm_receive hst]
    cases hv : s.cfg.transport with
    | tick => exact receiveStep_tick_good h hv hst
    | blocking => exact receiveStep_blocking_good h hv hst
  | event => rw [sessionArm_event hst]; exact eventStep_good h hr hst
  | reset => rw [sessionArm_reset hst]; exact resetStep_good h hr hst

end

end Sys2Proof.Machine
end

section
/-! SUPPORT. Every instruction and every turn keeps good states good, and O59. -/

namespace Sys2Proof.Machine

/-- Every part of an operation keeps good states good. -/
theorem goodState_kept : Kept GoodState where
  ret _ _ h := h.unseen rfl
  place _ _ h := h.unseen rfl
  events _ _ h := h.unseen rfl
  bus _ _ h := h.unseen rfl
  handshake _ _ h := h.unseen rfl
  fault _ _ _ hc h := h.fault hc
  append _ b h hs := h.append hs b
  arm _ h hs := (h.ready hs).arm
  armUnder _ _ h hs hc := ((h.ready hs).withCtrl hc).arm
  tick _ h := transportStep_good h
  session _ h _ hr := sessionArm_good h hr

/-! ## The registry and RESET -/

/-- A slot written stays wholly empty if it has no callback (10_state.md R35). -/
theorem GoodState.setSlot {s : State} (h : GoodState s) (i : Nat) {v : Slot} (hv : v.cb = none → v = Slot.empty) :
    GoodState (setSlot i v s) := by
  refine h.of_table rfl ⟨(List.length_set ..).trans h.table.size, fun w hw => ?_⟩
  rcases List.mem_or_eq_of_mem_set hw with hw | rfl
  · exact h.table.emptySlots w hw
  · exact hv

theorem allocate_good {s : State} (h : GoodState s) (found : Option Nat) {v : Slot} (hv : v.cb.isSome = true) :
    (allocate found v s).ends GoodState := by
  unfold allocate
  split
  · exact h.setSlot _ fun hn => by rw [hn] at hv; cases hv
  · exact goodState_kept.raise (by decide) h

theorem setEnabledBody_good {s : State} (h : GoodState s) (i : Nat) (e : Bool) : (setEnabledBody i e s).ends GoodState := by
  unfold setEnabledBody
  split
  next hi => exact h.setSlot i fun hn => absurd hn ((slotInUse_iff i s).1 hi).2
  next => exact goodState_kept.raise (by decide) h

/-- Every field at its reset value is a good state, under any configuration (70_reset_and_hazards.md R189). -/
theorem resetOf_good (c : Cfg) : GoodState (State.resetOf c) where
  memory := ⟨rfl, rfl, fun _ _ => rfl, fun _ _ => rfl⟩
  codec := ⟨Nat.le_trans (show 0 + 3 ≤ 4 by decide) (cfg_cOut c).1, [], rfl, rfl⟩
  session := ⟨.inl rfl, fun _ _ => rfl, fun h => absurd rfl h, nofun⟩
  transport := .of_ready rfl nofun (Nat.zero_le _)
  line := ⟨fun _ => ⟨rfl, rfl⟩, fun _ h => absurd rfl h⟩
  table := ⟨List.length_replicate, fun _ hv _ => List.eq_of_mem_replicate hv⟩

/-! ## Every instruction, every turn -/

/-- Every instruction keeps good states good. -/
theorem exec_good {i : Instr} {s t : State} (h : GoodState s) (he : exec i s = .next t) : GoodState t := by
  have hk := goodState_kept
  cases i
  case setup =>
    obtain ⟨a, e, hb⟩ := setupBody_eq s
    exact hk.hostOp he h fun _ _ => by rw [hb]; exact h.unseen rfl
  case reset => cases he; exact (resetOf_good s.cfg).unseen rfl
  case allocCode cb user => exact hk.hostOp he h fun hok _ => allocate_good h _ hok
  case allocArea r cb user => exact hk.hostOp he h fun hok _ => allocate_good h _ (Bool.and_eq_true_iff.1 hok).2
  case free n => exact hk.execFree n (fun u hu => hu.setSlot n fun _ => rfl) h he
  case setEnabled n e => exact hk.hostOp he h fun _ _ => setEnabledBody_good h n _
  case setWindow r => exact hk.hostOp (show execSetWindow r s = .next t from he) h fun _ _ => h.unseen rfl
  case clearWindow => exact hk.hostOp (show execClearWindow s = .next t from he) h fun _ _ => h.unseen rfl
  case setHook k => exact hk.hostOp (show execSetHook k s = .next t from he) h fun _ _ => h.unseen rfl
  case clearHook => exact hk.hostOp (show execClearHook s = .next t from he) h fun _ _ => h.unseen rfl
  all_goals exact hk.exec rfl (by simp) h he

/-- Choosing who moves next draws from the environment only. -/
theorem nextTurn_good {s u : State} {x : Turn} (h : GoodState s) (hn : nextTurn s = (x, u)) : GoodState u := by
  unfold nextTurn at hn
  split at hn <;> cases hn <;> exact h.unseen rfl

theorem GoodState.retire {s : State} (h : GoodState s) : GoodState s.retire := by
  unfold State.retire
  split
  · exact h.unseen rfl
  · exact h

theorem GoodState.abandon {s : State} (h : GoodState s) : GoodState s.abandon := by
  unfold State.abandon
  split
  · exact h
  · exact h.unseen rfl

theorem hostTurn_good {s t : State} (h : GoodState s) (he : hostTurn s = .next t) : GoodState t := by
  unfold hostTurn at he
  split at he
  · cases he; exact h
  next r _ =>
    split at he
    next i _ =>
      cases hx : exec i s <;> rw [hx] at he <;> cases he
      exact (exec_good h hx).retire
    next => cases he

/-- Settles O59: every part of an operation keeps good states good (`goodState_kept`), so every instruction does, whoever's turn it is. -/
theorem everyStepKeepsGoodStates : Obligations.EveryStepKeepsGoodStates := by
  intro s t h he
  unfold step at he
  split at he
  next u hn => exact hostTurn_good (nextTurn_good h hn) he
  next u hn => exact exec_good (nextTurn_good h hn) he
  next u hn => exact exec_good (nextTurn_good h hn).abandon he

end Sys2Proof.Machine
end

section
/-! SUPPORT. The other turns: the tick source, the RESET input, an empty port and a record that spells no row (20_memory.md R56,
60_exceptions.md R181), and O7. -/

namespace Sys2Proof.Machine

theorem step_tick {s u : State} (h : nextTurn s = (.tick, u)) : step s = exec .tick u := by rw [step, h]

theorem step_reset {s u : State} (h : nextTurn s = (.reset, u)) : step s = exec .reset u.abandon := by rw [step, h]

theorem abandon_idle {s : State} (h : s.pos = .idle) : s.abandon = s := if_pos h

theorem abandon_busy {s : State} (h : s.pos ≠ .idle) : s.abandon = s.popPort := if_neg h

theorem hostTurn_empty {s : State} (h : s.env.port.head? = none) : hostTurn s = .next s := by rw [hostTurn, portRecord, h]

theorem hostTurn_undecoded {s : State} {r : Record} {e : DecodeError} (hr : s.env.port.head? = some r) (hd : decode s.cfg r = .error e) :
    hostTurn s = .refused (.badRecord e) := by
  rw [hostTurn, portRecord, hr]
  simp only [hd]

/-- Settles O7: each turn that runs no host operation, from what its agent does. -/
theorem stepTakesTheOtherTurns : Obligations.StepTakesTheOtherTurns := by
  refine fun s u => ⟨step_tick, fun h hp => ?_, fun h hp => ?_, fun h hr => ?_, fun r e h hr hd => ?_⟩
  · rw [step_reset h, abandon_idle hp]
  · rw [step_reset h, abandon_busy hp]
    rfl
  · rw [step_host h, hostTurn_empty hr]
  · rw [step_host h, hostTurn_undecoded hr hd]

end Sys2Proof.Machine
end

section
/-! SUPPORT. Parts of an operation that do not stop the model: how they compose, staging, and the dispatch of an event (00_scope.md R11,
20_memory.md R47). -/

namespace Sys2Proof.Machine

/-! ## Parts that run -/

/-- A part of an operation that does nothing the spec says no rule does. -/
def Res.Runs (r : Res) : Prop := ∀ f, r ≠ .stop f

/-- An outcome that is no stop with a fault of the model. -/
def NoFault (o : Host.Outcome State Fault Refusal) : Prop := ∀ f, o ≠ .fault f

theorem runs_ok (s : State) : (Res.ok s).Runs := nofun

theorem runs_wait (s : State) : (Res.wait s).Runs := nofun

theorem runs_raised (s : State) : (Res.raised s).Runs := nofun

theorem runs_raise (c : FaultCode) (s : State) : (raise c s).Runs := runs_raised _

/-- A part and what follows it, where the part ran to its end. -/
theorem runs_andThen {r : Res} {k : State → Res} (h : r.Runs) (hk : ∀ t, r = .ok t → (k t).Runs) : (r.andThen k).Runs := by
  cases r with
  | ok t => exact hk t rfl
  | wait t => exact runs_wait t
  | raised t => exact runs_raised t
  | stop f => exact absurd rfl (h f)

theorem runs_at {r : Res} (p : HostPos) (h : r.Runs) : (r.at p).Runs := by
  cases r with
  | ok t => exact runs_ok t
  | wait t => exact runs_wait _
  | raised t => exact runs_raised t
  | stop f => exact absurd rfl (h f)

theorem runs_logTick {r : Res} (h : r.Runs) : r.logTick.Runs := by
  cases r with
  | ok t => exact runs_ok _
  | wait t => exact runs_wait _
  | raised t => exact runs_raised _
  | stop f => exact absurd rfl (h f)

theorem next_noFault (s : State) : NoFault (.next s) := nofun

theorem toOutcome_noFault {r : Res} {g : State → Result} (h : r.Runs) : NoFault (r.toOutcome g) := by
  cases r with
  | ok t => exact next_noFault _
  | wait t => exact next_noFault t
  | raised t => exact next_noFault _
  | stop f => exact absurd rfl (h f)

theorem retireOutcome_noFault {o : Host.Outcome State Fault Refusal} (h : NoFault o) : NoFault (retireOutcome o) := by
  cases o with
  | next t => exact next_noFault _
  | fault f => exact absurd rfl (h f)
  | refused r => exact nofun

/-- A host operation stops only where its body does, and that runs only while the block is not halted (60_exceptions.md R168). -/
theorem hostOp_noFault {su ok : Bool} {s : State} {g : State → Result} {body : State → Res} (hb : s.fault = .none → (body s).Runs) :
    NoFault (hostOp su ok s g body) := by
  rcases hostOp_cases su ok s g body with ⟨_, e⟩ | ⟨_, _, _, e⟩ | ⟨_, _, _, e⟩ | ⟨hf, _, _, e⟩ <;> rw [e]
  case inr.inr.inr => exact toOutcome_noFault (hb hf)
  all_goals exact next_noFault _

theorem transition_noFault {e : Bool} {s : State} {body : State → Res} (hb : e = true → (body s).Runs) : NoFault (transition e s body) := by
  cases e with
  | false => exact next_noFault s
  | true =>
    rw [transition_enabled]
    have hr := hb rfl
    cases hx : body s with
    | ok t => exact next_noFault t
    | wait t => exact next_noFault t
    | raised t => exact next_noFault t
    | stop f => exact absurd hx (hr f)

/-! ## Staging and arming -/

/-- An append is inside the buffer, or it raises (40_codec.md R92). -/
theorem appendByte_runs (b : Byte) (s : State) : (appendByte b s).Runs := by
  by_cases h : fits [b] s
  · rw [appendByte_ok b s h]
    exact runs_ok _
  · rw [appendByte_full b s h]
    exact runs_raise _ _

theorem appendAll_runs (l : List Byte) : ∀ s : State, (appendAll l s).Runs := by
  induction l with
  | nil => exact runs_ok
  | cons b rest ih => exact fun s => runs_andThen (appendByte_runs b s) fun t _ => ih t

/-- Appends that run to their end leave room for header and trailer (10_state.md R21). -/
theorem appendAll_ok_room {l : List Byte} {s t : State} (hroom : fits [] s) (h : appendAll l s = .ok t) : fits [] t := by
  by_cases hf : fits l s
  · rw [appendAll_ok l s hf] at h
    cases h
    rw [fits_staged, List.append_nil]
    exact hf
  · rw [appendAll_full l s hf hroom] at h
    cases h

theorem arm_runs {s : State} (hroom : fits [] s) : (arm s).Runs := by
  rw [arm_ok s hroom]
  exact runs_ok _

theorem staging_runs {body : State → Res} {s : State} (h : (body s).Runs) : (staging body s).Runs := by
  unfold staging
  split
  · exact runs_raise _ _
  · exact h

theorem opToken_runs (t : Token) (arg : Option Arg) (s : State) : (opToken t arg s).Runs := by
  cases hb : tokenBytes t arg with
  | none =>
    rw [opToken_lacking t arg hb]
    exact runs_raise _ _
  | some b =>
    rw [opToken_found t arg b hb]
    exact runs_andThen (appendAll_runs b s) fun _ _ => runs_ok _

theorem encodeTokens_runs (ts : List Token) : ∀ (args : List Arg) (s : State), (encodeTokens ts args s).Runs := by
  induction ts with
  | nil => exact fun _ => runs_ok
  | cons t rest ih => exact fun args s => runs_andThen (opToken_runs t args.head? s) fun u _ => ih _ u

theorem encodeBody_runs (fmt : List Byte) (args : List Arg) (s : State) : (encodeBody fmt args s).Runs :=
  staging_runs (encodeTokens_runs _ args s)

theorem removeCommand_runs (i : Nat) (s : State) : (removeCommand i s).Runs := by
  unfold removeCommand
  simp only
  split <;> exact encodeBody_runs _ _ s

/-! ## The dispatch of an event -/

/-- A payload byte is read inside the payload only (20_memory.md R47). -/
theorem dispatch_runs {p : List Byte} (hp : p ≠ []) (s : State) : (dispatch p s).Runs := by
  rw [dispatch_eq p s hp]
  exact runs_ok _

theorem dispatch_button {s : State} {p : List Byte} (h : eventKind s.cfg p = .button) :
    dispatch p s = (buttonEvent p s).andThen fun t => .ok (hookCall t) := by
  rw [dispatch, h]

theorem dispatch_touch {s : State} {p : List Byte} (h : eventKind s.cfg p = .touch) :
    dispatch p s = (touchEvent p s).andThen fun t => .ok (hookCall t) := by
  rw [dispatch, h]

theorem decodeEvent_ok {c : Cfg} {p : List Byte} {i : Instr} (h : decodeEvent c p = .ok i) :
    p ≠ [] ∧ ((i = .evButton p ∧ eventKind c p = .button) ∨ (i = .evTouch p ∧ eventKind c p = .touch) ∨ i = .evUnknown p) := by
  unfold decodeEvent at h
  split at h
  next hwf =>
    refine ⟨by rintro rfl; simp [payloadWf] at hwf, ?_⟩
    split at h <;> cases h
    next hk => exact .inl ⟨rfl, hk⟩
    next hk => exact .inr (.inl ⟨rfl, hk⟩)
    next => exact .inr (.inr rfl)
  next => cases h

/-- The instructions that carry an inbound event's payload (30_encoding.md R75, R76). -/
def eventPayload : Instr → Option (List Byte)
  | .evButton p => some p
  | .evTouch p => some p
  | _ => none

theorem decodeHost_eventPayload (o : Byte) (ops : List Operand) : eventPayload (decodeHost o ops) = none := by
  unfold decodeHost
  split <;> rfl

theorem decodeDirective_eventPayload {bytes : List Byte} {ops : List Operand} {i : Instr} (h : decodeDirective bytes ops = .ok i) :
    eventPayload i = none := by
  unfold decodeDirective at h
  split at h
  next =>
    unfold decodeToken at h
    split at h <;> cases h <;> rfl
  next => cases h

theorem decodeSub_eventPayload {c : Cfg} {b : Byte} {ops : List Operand} {i : Instr} (h : decodeSub c b ops = .ok i) :
    eventPayload i = none := by
  unfold decodeSub at h
  repeat' split at h
  all_goals cases h <;> rfl

theorem decodeControl_eventPayload {c : Cfg} {b : Byte} {i : Instr} (h : decodeControl c b = .ok i) : eventPayload i = none := by
  unfold decodeControl at h
  repeat' split at h
  all_goals cases h <;> rfl

theorem decodeHandshake_eventPayload (c : Cfg) (b : Byte) : eventPayload (decodeHandshake c b) = none := by
  unfold decodeHandshake
  split <;> rfl

/-- Only a record of an inbound event spells an instruction that carries an event's payload. -/
theorem decode_eventPayload {c : Cfg} {r : Record} {i : Instr} {p : List Byte} (h : decode c r = .ok i) (hp : eventPayload i = some p) :
    decodeEvent c r.bytes = .ok i := by
  have other (hn : eventPayload i = none) : decodeEvent c r.bytes = .ok i := nomatch hn.symm.trans hp
  unfold decode at h
  split at h
  case h_1 => cases h; exact other (decodeHost_eventPayload _ _) -- a host operation
  case h_9 => exact other (decodeDirective_eventPayload h)
  case h_10 => exact h -- an inbound event
  case h_14 => exact other (decodeSub_eventPayload h)
  case h_16 => exact other (decodeControl_eventPayload h)
  case h_18 => cases h; exact other (decodeHandshake_eventPayload _ _)
  case h_20 => split at h <;> cases h; exact other rfl -- the lead byte of a command
  -- the inputs, the poll and the code byte have no payload, and the other records spell no row
  all_goals cases h
  all_goals exact other rfl

theorem decode_evButton {c : Cfg} {r : Record} {p : List Byte} (h : decode c r = .ok (.evButton p)) :
    p ≠ [] ∧ eventKind c p = .button := by
  obtain ⟨hne, ⟨hi, hk⟩ | ⟨hi, _⟩ | hi⟩ := decodeEvent_ok (decode_eventPayload h rfl) <;> cases hi
  exact ⟨hne, hk⟩

theorem decode_evTouch {c : Cfg} {r : Record} {p : List Byte} (h : decode c r = .ok (.evTouch p)) :
    p ≠ [] ∧ eventKind c p = .touch := by
  obtain ⟨hne, ⟨hi, _⟩ | ⟨hi, hk⟩ | hi⟩ := decodeEvent_ok (decode_eventPayload h rfl) <;> cases hi
  exact ⟨hne, hk⟩

end Sys2Proof.Machine
end

section
/-! SUPPORT. On a good state no tick, no session step and no loop stops: every buffer byte it reads was written in the same frame
(20_memory.md R55). -/

namespace Sys2Proof.Machine

section
variable {s : State}

/-! ## The ticks -/

/-- Outside READY every byte of the armed frame, from its control byte to its trailer, is in the buffer (20_memory.md R45). -/
theorem GoodState.frame_written (h : GoodState s) (hs : s.state ≠ .ready) {i : Nat} (hi : i < s.outLen + 3) : ∃ b, outRead s i = some b := by
  obtain ⟨hctrl, hlen, htrailer⟩ := h.session.header hs
  obtain ⟨p, hp, _⟩ := h.codec.sum
  obtain ⟨hl, hbytes⟩ := (readRange_eq_some_iff _ _ _ _).1 hp
  match i with
  | 0 => exact ⟨_, hctrl⟩
  | 1 => exact ⟨_, hlen⟩
  | j + 2 =>
    by_cases hj : j < s.outLen
    · refine ⟨p[j], ?_⟩
      rw [Nat.add_comm, outRead, hbytes j hj, List.getElem?_eq_getElem]
    · rw [show j + 2 = 2 + s.outLen by omega]
      exact ⟨_, htrailer⟩

theorem GoodState.sending_ne_ready (h : GoodState s) (hs : sendingState s.tstate = true) : s.state ≠ .ready := by
  rw [h.transport.sending hs]
  exact (sendingSession_ne s).1

theorem tickStart_runs (h : GoodState s) (hst : s.tstate = .start) : (tickStart s).Runs := by
  obtain ⟨n, hn⟩ := h.frame_written (i := 1) (h.sending_ne_ready (by rw [hst]; rfl)) (by omega)
  rw [tickStart, hn]
  exact runs_ok _

theorem tickSend_runs (h : GoodState s) (hst : s.tstate = .send) : (tickSend s).Runs := by
  have hcount := h.transport.sendCount hst
  unfold tickSend
  split
  next hpos =>
    obtain ⟨b, hb⟩ := h.frame_written (i := s.tIdx) (h.sending_ne_ready (by rw [hst]; rfl)) (by omega)
    rw [hb]
    exact runs_ok _
  next => exact runs_ok _

theorem tickWait_runs (s : State) : (tickWait s).Runs := by
  unfold tickWait
  split <;> exact runs_ok _

theorem tickReceiveAck_runs (s : State) : (tickReceiveAck s).Runs := by
  unfold tickReceiveAck
  split
  · exact runs_ok _
  · unfold handshakeNak
    simp only
    split
    · exact runs_raise _ _
    · exact runs_ok _

/-- The length byte is stored when the header's countdown ends (42_transport.md R135). -/
theorem tickReceiveHeader_runs (h : GoodState s) (hst : s.tstate = .receiveHeader) : (tickReceiveHeader s).Runs := by
  obtain ⟨hcount, hpos⟩ := h.transport.headerCount hst
  obtain ⟨_, _, _, _, hcap, _⟩ := configConstraints_cfg s.cfg
  have hstored := rxByte_inboundStored (h.transport.inboundStored (.inl hst))
  unfold tickReceiveHeader
  simp only
  split
  next hz =>
    rw [rxByte_tCnt] at hz
    obtain ⟨n, hn⟩ := Option.ne_none_iff_exists'.1 (hstored.bytes 1 (by rw [rxByte_tIdx, rxByte_cfg]; omega))
    rw [hn]
    exact runs_ok _
  next => exact runs_ok _

theorem tickReceivePayload_runs (s : State) : (tickReceivePayload s).Runs := by
  unfold tickReceivePayload
  simp only
  split <;> exact runs_ok _

theorem transportStep_runs (h : GoodState s) : (transportStep s).Runs := by
  cases hst : s.tstate <;> simp only [transportStep, hst]
  case start => exact tickStart_runs h hst
  case send => exact tickSend_runs h hst
  case wait => exact tickWait_runs s
  case receiveAck => exact tickReceiveAck_runs s
  case receive => exact runs_ok _
  case receiveHeader => exact tickReceiveHeader_runs h hst
  case receivePayload => exact tickReceivePayload_runs s
  case ready => exact runs_ok _

/-! ## Transfers -/

theorem runTransfer_runs (n : Nat) : ∀ {s : State}, GoodState s → (runTransfer n s).Runs := by
  induction n with
  | zero =>
    intro s _
    by_cases hr : s.tstate = .ready
    · rw [runTransfer_ready _ _ hr]; exact runs_ok s
    · rw [runTransfer_zero _ hr]; exact runs_wait s
  | succ n ih =>
    intro s h
    by_cases hr : s.tstate = .ready
    · rw [runTransfer_ready _ _ hr]; exact runs_ok s
    · rw [runTransfer_succ _ _ hr]
      exact runs_andThen (transportStep_runs h) fun t ht => ih (ends_of_ok (transportStep_good h) ht)

theorem transmit_runs (h : GoodState s) (hs : s.state = .transmit) : (transmit s).Runs := by
  unfold transmit
  split
  next => exact runs_ok _
  next hb =>
    have hd := drawHandshakes_writes s
    have hgood : GoodState (drawHandshakes s) := h.unseen (by rw [hd])
    have hb' : (drawHandshakes s).cfg.transport = .blocking := by rw [hd]; exact hb
    refine runTransfer_runs _ ?_
    split
    · refine hgood.start_blocking hb' rfl rfl rfl rfl rfl (.of_sending rfl ?_ nofun hgood.transport.inLenBound)
      show (drawHandshakes s).state = _
      rw [hd]
      simp [sendingSession, hb, hs]
    · exact hgood

theorem receive_runs (h : GoodState s) (hs : s.state = .receive) : (receive s).Runs := by
  unfold receive
  split
  next => exact runs_ok _
  next hb =>
    refine runTransfer_runs _ ?_
    split
    · exact h.start_blocking hb rfl rfl rfl rfl rfl (.of_receive rfl (by simp [receivingSession, hb, hs]) rfl rfl)
    · exact h

/-! ## Session steps -/

theorem pollStep_runs (h : GoodState s) : (pollStep s).Runs :=
  runs_andThen (appendAll_runs _ _) fun _ ht => arm_runs (appendAll_ok_room (by exact h.codec.fits_nil) ht)

/-- A stored frame has its records (41_session.md R115). -/
theorem FrameStored.eventRecords (h : FrameStored s) : ∃ l, (inRead s 1).bind (eventRecords s) = some l := by
  obtain ⟨n, hn, hbytes⟩ := h
  rw [hn, Option.bind_some, Machine.eventRecords]
  split
  · exact ⟨_, rfl⟩
  split
  · exact ⟨_, rfl⟩
  next ho =>
    have hbytes := hbytes (by simpa using ho)
    obtain ⟨p, hp⟩ := readRange_isSome (m := s.inBuf) (a := 2) (n := n.toNat) fun i hi => hbytes (2 + i) (by omega)
    obtain ⟨b, hb⟩ := Option.ne_none_iff_exists'.1 (hbytes (2 + n.toNat) (by omega))
    simp only [inFrame, hp, hb]
    exact ⟨_, rfl⟩

theorem eventStep_runs (h : GoodState s) (hr : isReady s = true) (hs : s.state = .event) : (eventStep s).Runs := by
  have hframe : FrameStored s := h.transport.frame hs (h.transport_done hr (by simp [hs]) (by simp [hs]))
  obtain ⟨l, hl⟩ := hframe.eventRecords
  rw [eventStep_eq_records, hl]
  exact runs_ok _

theorem sessionArm_runs (h : GoodState s) (hr : isReady s = true) : (sessionArm s).Runs := by
  cases hst : s.state with
  | ready => rw [sessionArm_ready hst]; exact pollStep_runs h
  | transmit => rw [sessionArm_transmit hst]; exact runs_andThen (transmit_runs h hst) fun _ _ => runs_ok _
  | receive => rw [sessionArm_receive hst]; exact runs_andThen (receive_runs h hst) fun _ _ => runs_ok _
  | event => rw [sessionArm_event hst]; exact eventStep_runs h hr hst
  | reset => rw [sessionArm_reset hst]; exact runs_ok _

theorem sessionStep_runs (h : GoodState s) : (sessionStep s).Runs := by
  unfold sessionStep
  split
  next hr => exact sessionArm_runs h hr
  next => exact runs_wait s

/-! ## Driving loops and the operations around them -/

theorem driveLoop_runs (n : Nat) : ∀ {s : State}, GoodState s → (driveLoop n s).Runs := by
  induction n with
  | zero =>
    intro s _
    unfold driveLoop
    split
    · exact runs_raised s
    · split
      · exact runs_ok s
      · exact runs_wait s
  | succ n ih =>
    intro s h
    unfold driveLoop
    split
    · exact runs_raised s
    next hf =>
      split
      · exact runs_ok s
      · exact runs_andThen (sessionStep_runs h) fun t ht => ih (ends_of_ok (goodState_kept.sessionStep h (not_not.1 hf)) ht)

theorem drive_runs (p : HostPos) (h : GoodState s) : (drive p s).Runs := runs_at p (driveLoop_runs _ h)

theorem flushBody_runs (p : HostPos) (h : GoodState s) : (flushBody p s).Runs := by
  refine runs_andThen (drive_runs p h) fun t ht => ?_
  have hgood : GoodState t := ends_of_ok (goodState_kept.drive p h) ht
  split
  · refine runs_andThen (arm_runs hgood.codec.fits_nil) fun u hu => drive_runs p ?_
    exact ends_of_ok (goodState_kept.arm t hgood (drive_ok p s t ht).1) hu
  · exact runs_ok t

theorem beginBody_runs (p : HostPos) (h : GoodState s) : (beginBody p s).Runs :=
  runs_andThen (drive_runs p h) fun t _ => appendByte_runs _ t

theorem freeFromFlush_runs (i : Nat) (h : GoodState s) : (freeFromFlush i s).Runs :=
  runs_andThen (flushBody_runs _ h) fun _ _ => runs_ok _

theorem freeFromBegin_runs (i : Nat) (h : GoodState s) : (freeFromBegin i s).Runs := by
  refine runs_andThen (beginBody_runs _ h) fun t ht => runs_andThen (removeCommand_runs i t) fun u hu => freeFromFlush_runs i ?_
  have hgood : GoodState t := ends_of_ok (goodState_kept.beginBody _ h) ht
  exact ends_of_ok (goodState_kept.removeCommand i hgood) hu

theorem freeBody_runs (i : Nat) (h : GoodState s) : (freeBody i s).Runs := by
  unfold freeBody
  split
  · exact freeFromBegin_runs i h
  · exact runs_raise _ _

end

end Sys2Proof.Machine
end

section
/-! SUPPORT. On a good state no instruction and no turn stops, and O60. -/

namespace Sys2Proof.Machine

section
variable {s : State}

/-! ## Host operations -/

theorem setupBody_runs (s : State) : (setupBody s).Runs := by
  obtain ⟨_, _, hb⟩ := setupBody_eq s
  rw [hb]
  exact runs_ok _

theorem allocate_runs (found : Option Nat) (v : Slot) (s : State) : (allocate found v s).Runs := by
  unfold allocate
  split
  · exact runs_ok _
  · exact runs_raise _ _

theorem setEnabledBody_runs (i : Nat) (e : Bool) (s : State) : (setEnabledBody i e s).Runs := by
  unfold setEnabledBody
  split
  · exact runs_ok _
  · exact runs_raise _ _

/-- A host operation that stages: its body raises, or it runs (40_codec.md R91). -/
theorem stagingOp_noFault {ok : Bool} {g : State → Result} {body : State → Res} (h : (body s).Runs) :
    NoFault (hostOp false ok s g (staging body)) :=
  hostOp_noFault fun _ => staging_runs h

theorem execBeginFrame_noFault (h : GoodState s) : NoFault (execBeginFrame s) := by
  unfold execBeginFrame
  split
  · exact toOutcome_noFault (beginBody_runs _ h)
  · exact hostOp_noFault fun _ => beginBody_runs _ h

theorem execFlush_noFault (h : GoodState s) : NoFault (execFlush s) := by
  unfold execFlush
  split
  · exact toOutcome_noFault (flushBody_runs _ h)
  · exact hostOp_noFault fun _ => flushBody_runs _ h

theorem execStep_noFault (h : GoodState s) : NoFault (execStep s) := by
  unfold execStep
  split
  · refine toOutcome_noFault ?_
    split
    · exact runs_at _ (sessionStep_runs h)
    · exact runs_raised s
  · split
    next hr => exact hostOp_noFault fun _ => runs_at _ (sessionArm_runs h hr)
    next => exact hostOp_noFault fun _ => runs_ok s

theorem execFree_noFault (i : Nat) (h : GoodState s) : NoFault (execFree i s) := by
  unfold execFree
  split
  · exact toOutcome_noFault (freeFromBegin_runs i h)
  · exact toOutcome_noFault (freeFromFlush_runs i h)
  · exact hostOp_noFault fun _ => freeBody_runs i h

/-! ## Every instruction, every turn -/

theorem execTick_noFault (h : GoodState s) : NoFault (execTick s) :=
  transition_noFault fun _ => runs_logTick (transportStep_runs h)

theorem execEvButton_noFault {p : List Byte} (hp : p ≠ []) (hk : eventKind s.cfg p = .button) : NoFault (execEvButton p s) :=
  transition_noFault fun _ => dispatch_button hk ▸ dispatch_runs hp s

theorem execEvTouch_noFault {p : List Byte} (hp : p ≠ []) (hk : eventKind s.cfg p = .touch) : NoFault (execEvTouch p s) :=
  transition_noFault fun _ => dispatch_touch hk ▸ dispatch_runs hp s

/-- No instruction that a record spells stops on a good state. An event's payload holds its command byte, as its record says (30_encoding.md
R85). -/
theorem exec_noFault {i : Instr} {r : Record} (h : GoodState s) (hd : decode s.cfg r = .ok i) : NoFault (exec i s) := by
  cases i
  case setup => exact hostOp_noFault fun _ => setupBody_runs s
  case beginFrame => exact execBeginFrame_noFault h
  case putU8 v => exact stagingOp_noFault (appendByte_runs _ s)
  case putU16le v => exact stagingOp_noFault (appendAll_runs _ s)
  case putCstr str => exact stagingOp_noFault (appendAll_runs _ s)
  case encode fmt args => exact hostOp_noFault fun _ => encodeBody_runs fmt args s
  case flush => exact execFlush_noFault h
  case step => exact execStep_noFault h
  case allocCode cb user => exact hostOp_noFault fun _ => allocate_runs _ _ s
  case allocArea q cb user => exact hostOp_noFault fun _ => allocate_runs _ _ s
  case free n => exact execFree_noFault n h
  case setEnabled n e => exact hostOp_noFault fun _ => setEnabledBody_runs n _ s
  case isReady => exact hostOp_noFault fun _ => runs_ok s
  case undefinedHostOpcode o ops => exact hostOp_noFault fun _ => runs_ok s
  case setWindow q => exact show NoFault (execSetWindow q s) from hostOp_noFault fun _ => runs_ok _
  case clearWindow => exact show NoFault (execClearWindow s) from hostOp_noFault fun _ => runs_ok _
  case setHook k => exact show NoFault (execSetHook k s) from hostOp_noFault fun _ => runs_ok _
  case clearHook => exact show NoFault (execClearHook s) from hostOp_noFault fun _ => runs_ok _
  case tick => exact execTick_noFault h
  case reset => exact next_noFault _
  case poll => exact transition_noFault fun _ => pollStep_runs h
  case lit b => exact stagingOp_noFault (opToken_runs (.lit b) none s)
  case dirChar arg => exact stagingOp_noFault (opToken_runs .char arg s)
  case dirWord arg => exact stagingOp_noFault (opToken_runs .word arg s)
  case dirStr arg => exact stagingOp_noFault (opToken_runs .str arg s)
  case dirPercent => exact stagingOp_noFault (opToken_runs .percent none s)
  case dirUnknown d => exact stagingOp_noFault (opToken_runs (.unknown d) none s)
  case trailingPct => exact stagingOp_noFault (opToken_runs .trailing none s)
  case evButton p =>
    obtain ⟨hp, hk⟩ := decode_evButton hd
    exact execEvButton_noFault hp hk
  case evTouch p =>
    obtain ⟨hp, hk⟩ := decode_evTouch hd
    exact execEvTouch_noFault hp hk
  case evUnknown p => exact show NoFault (execEvUnknown p s) from transition_noFault fun _ => runs_ok _
  case buttonCode press k => exact show NoFault (execButtonCode press k s) from transition_noFault fun _ => runs_ok _
  case subRelease x y => exact show NoFault (execSubRelease x y s) from transition_noFault fun _ => runs_ok _
  case subPress x y => exact show NoFault (execSubPress x y s) from transition_noFault fun _ => runs_ok _
  case subRepeat => exact show NoFault (execSubRepeat s) from transition_noFault fun _ => runs_ok _
  case subOther b => exact show NoFault (execSubOther b s) from transition_noFault fun _ => runs_ok _
  case ctrlNoresp => exact show NoFault (execCtrlNoresp s) from transition_noFault fun _ => arm_runs h.codec.fits_nil
  case ctrlResp => exact show NoFault (execCtrlResp s) from transition_noFault fun _ => arm_runs h.codec.fits_nil
  case ack => exact show NoFault (execAck s) from transition_noFault fun _ => tickReceiveAck_runs _
  case nak b => exact show NoFault (execNak b s) from transition_noFault fun _ => tickReceiveAck_runs _
  case esc => exact stagingOp_noFault (appendByte_runs _ s)

theorem hostTurn_noFault (h : GoodState s) : NoFault (hostTurn s) := by
  unfold hostTurn
  split
  · exact next_noFault s
  · split
    next i hd => exact retireOutcome_noFault (exec_noFault h hd)
    next => exact nofun

end

/-- Settles O60: every byte a tick or the EVENT step reads stands in the frame a good state holds, every write is checked, and every part of
an operation hands a good state on (`goodState_kept`), so no instruction stops, whoever's turn it is. -/
theorem goodStatesNeverStop : Obligations.GoodStatesNeverStop := by
  intro s h
  show NoFault (step s)
  unfold step
  split
  next u hn => exact hostTurn_noFault (nextTurn_good h hn)
  next u hn => exact exec_noFault (r := encode u.cfg .tick) (nextTurn_good h hn) rfl
  next u hn => exact next_noFault _

end Sys2Proof.Machine
end

section
/-! SUPPORT. Format strings token by token (30_encoding.md R67, R77, R78), and O4. -/

namespace Sys2Proof.Machine

/-- A byte other than `%` is a token of its own, whatever follows it. -/
theorem tokenise_lit {b : Byte} (rest : List Byte) (h : b ≠ percentByte) : tokenise (b :: rest) = .lit b :: tokenise rest := by
  cases rest <;> simp [tokenise, h]

theorem content_cons {b : Byte} (rest : List Byte) (h : b ≠ 0) : content (b :: rest) = b :: content rest := if_neg h

theorem percentByte_ne_zero : percentByte ≠ 0 := by decide

theorem formatTokens_zero (rest : List Byte) : formatTokens (0 :: rest) = [] := rfl

theorem formatTokens_lit {b : Byte} (rest : List Byte) (h0 : b ≠ 0) (h : b ≠ percentByte) :
    formatTokens (b :: rest) = .lit b :: formatTokens rest := by
  rw [formatTokens, content_cons rest h0, tokenise_lit _ h, formatTokens]

theorem formatTokens_directive {d : Byte} (rest : List Byte) (h0 : d ≠ 0) :
    formatTokens (percentByte :: d :: rest) = directiveOf d :: formatTokens rest := by
  rw [formatTokens, content_cons _ percentByte_ne_zero, content_cons rest h0, tokenise, if_pos rfl, formatTokens]

/-- A `%` that ends the content, at the end of the bytes or in front of a zero byte, trails. -/
theorem formatTokens_trailing {rest : List Byte} (h : content rest = []) : formatTokens (percentByte :: rest) = [.trailing] := by
  rw [formatTokens, content_cons _ percentByte_ne_zero, h, tokenise, if_pos rfl]

/-- Settles O4: a format string is read from its first byte on, and a zero byte ends it. -/
theorem formatTokensReadLeftToRight : Obligations.FormatTokensReadLeftToRight :=
  ⟨rfl, formatTokens_zero, fun _ rest => formatTokens_lit rest, formatTokens_trailing rfl, fun _ => formatTokens_trailing rfl,
    fun _ rest => formatTokens_directive rest⟩

end Sys2Proof.Machine
end

section
/-! SUPPORT. Host operation records (30_encoding.md R64, R65; log 18): what the decoder reads from one, and O2. -/

namespace Sys2Proof.Machine

theorem decode_hostRecord (c : Cfg) (o : Byte) (ops : List Operand) : decode c (hostRecord o ops) = .ok (decodeHost o ops) := rfl

theorem isHostOp_decodeHost (o : Byte) (ops : List Operand) : isHostOp (decodeHost o ops) = true := by
  unfold decodeHost
  split <;> rfl

theorem ofNat_opcode {o : Byte} {n : Nat} (h : o.toNat = n) : BitVec.ofNat 8 n = o := by
  rw [← h, BitVec.ofNat_toNat, BitVec.setWidth_eq]

/-- The encoder writes a row's opcode, which is the byte the decoder found there. -/
theorem encode_decodeHost (c : Cfg) (o : Byte) (ops : List Operand) : encode c (decodeHost o ops) = hostRecord o ops := by
  unfold decodeHost
  split
  case h_18 => rfl -- the undefined opcode
  all_goals exact congrArg (hostRecord · _) (ofNat_opcode ‹_›)

/-- A record that the decoder takes as a row's has operands that match the row. -/
theorem operandsMatch_of_decodeHost {o : Byte} {ops : List Operand} (h : decodeHost o ops ≠ .undefinedHostOpcode o ops) :
    operandsMatch o ops = true := by
  unfold decodeHost at h
  split at h
  case h_18 => exact absurd rfl h -- the undefined opcode
  all_goals
    obtain rfl := ofNat_opcode ‹_›
    rfl

/-- A record whose operands match a row is taken as that row's. -/
theorem decodeHost_of_operandsMatch {o : Byte} {ops : List Operand} (h : operandsMatch o ops = true) :
    decodeHost o ops ≠ .undefinedHostOpcode o ops := by
  unfold operandsMatch at h
  split at h
  case h_18 => cases h -- operands that match no row
  all_goals
    obtain rfl := ofNat_opcode ‹_›
    exact nofun

/-- The decoder takes exactly the records whose operands match no row as the undefined opcode. -/
theorem operandsMatch_eq_false_iff (o : Byte) (ops : List Operand) :
    operandsMatch o ops = false ↔ decodeHost o ops = .undefinedHostOpcode o ops := by
  rw [← Bool.not_eq_true, not_iff_comm]
  exact ⟨operandsMatch_of_decodeHost, decodeHost_of_operandsMatch⟩

/-- Settles O2: what a host record decodes to is a host operation, which the encoder writes back as that record. -/
theorem hostRecordsHaveOneMeaning : Obligations.HostRecordsHaveOneMeaning := fun c o ops =>
  ⟨decodeHost o ops, decode_hostRecord c o ops, isHostOp_decodeHost o ops, encode_decodeHost c o ops, operandsMatch_eq_false_iff o ops⟩

end Sys2Proof.Machine
end

section
/-! SUPPORT. What the decoder reads from the records of the other formats (30_encoding.md R71 to R78), O1 and O3. -/

namespace Sys2Proof.Machine

/-! ## Configuration bytes that differ -/

theorem cfg_ev_ne (c : Cfg) : c.evButton ≠ c.evTouch := by
  obtain ⟨_, _, _, _, _, _, _, _, _, hEv, _⟩ := configConstraints_cfg c
  exact hEv

theorem cfg_subPress_ne_subRelease (c : Cfg) : c.subPress ≠ c.subRelease := by
  obtain ⟨hRelease, hPress, _⟩ := cfg_subBytes c
  simp [hRelease, hPress]

theorem cfg_subRepeat_ne (c : Cfg) : c.subRepeat ≠ c.subRelease ∧ c.subRepeat ≠ c.subPress := by
  obtain ⟨hRelease, hPress, hRepeat⟩ := cfg_subBytes c
  simp [hRelease, hPress, hRepeat]

/-! ## Directives -/

/-- The record of bytes that are one token is read as that token. -/
theorem decode_tokenRecord (c : Cfg) {l : List Byte} {t : Token} (arg : Option Arg) (h : formatTokens l = [t]) :
    decode c (tokenRecord l arg) = decodeToken t arg := by
  have hd : decodeDirective l (tokenRecord l arg).operands = decodeToken t arg := by
    cases arg <;> simp [decodeDirective, h, tokenRecord, tokenArg]
  exact hd

/-- The record of `%d` is read as the directive `d` spells. -/
theorem decode_directiveRecord (c : Cfg) {d : Byte} (arg : Option Arg) (h : d ≠ 0) :
    decode c (tokenRecord [percentByte, d] arg) = decodeToken (directiveOf d) arg :=
  decode_tokenRecord c arg (formatTokens_directive [] h)

/-! ## Inbound events -/

theorem eventKind_button {c : Cfg} {p : List Byte} (h : p[c.offCmd]? = some c.evButton) : eventKind c p = .button := by
  simp [eventKind, h]

theorem eventKind_touch {c : Cfg} {p : List Byte} (h : p[c.offCmd]? = some c.evTouch) : eventKind c p = .touch := by
  simp [eventKind, h, (cfg_ev_ne c).symm]

theorem eventKind_unknown {c : Cfg} {p : List Byte} (hb : p[c.offCmd]? ≠ some c.evButton) (ht : p[c.offCmd]? ≠ some c.evTouch) :
    eventKind c p = .unknown := by
  unfold eventKind
  cases hp : p[c.offCmd]? with
  | none => rfl
  | some t =>
    rw [hp] at hb ht
    simp only [ne_eq, Option.some.injEq] at hb ht
    simp only [if_neg hb, if_neg ht]

/-- The record of an event's payload is read by the payload's kind. -/
theorem decode_eventRecord (c : Cfg) {p : List Byte} (h : payloadWf p = true) :
    decode c { format := .inboundEvent, bytes := p, operands := [] } =
      match eventKind c p with
      | .button => .ok (.evButton p)
      | .touch => .ok (.evTouch p)
      | .unknown => .ok (.evUnknown p) :=
  (if_pos h : decodeEvent c p = _)

/-! ## Code bytes and sub-bytes -/

theorem codePress_codeByte (press : Bool) (k : BitVec 7) : codePress (codeByte press k) = press := by
  rw [codePress, codeByte, BitVec.getLsbD_append]
  simp

theorem codeNumber_codeByte (press : Bool) (k : BitVec 7) : codeNumber (codeByte press k) = k :=
  BitVec.setWidth_append_eq_right

theorem decodeSub_release (c : Cfg) (x y : U16) : decodeSub c c.subRelease [.nat x.toNat, .nat y.toNat] = .ok (.subRelease x y) := by
  simp [decodeSub, x.isLt, y.isLt]

theorem decodeSub_press (c : Cfg) (x y : U16) : decodeSub c c.subPress [.nat x.toNat, .nat y.toNat] = .ok (.subPress x y) := by
  simp [decodeSub, x.isLt, y.isLt, cfg_subPress_ne_subRelease c]

theorem decodeSub_repeat (c : Cfg) : decodeSub c c.subRepeat [] = .ok .subRepeat := by
  simp [decodeSub, cfg_subRepeat_ne c]

theorem decodeSub_other {c : Cfg} {b : Byte} (h : b ≠ c.subRelease ∧ b ≠ c.subPress ∧ b ≠ c.subRepeat) :
    decodeSub c b [] = .ok (.subOther b) := by
  simp [decodeSub, h]

/-! ## Wire bytes -/

theorem decodeControl_noresp (c : Cfg) : decodeControl c c.ctrlNoresp = .ok .ctrlNoresp := if_pos rfl

theorem decodeControl_resp (c : Cfg) : decodeControl c c.ctrlResp = .ok .ctrlResp := by
  rw [decodeControl, if_neg (cfg_ctrl_ne c).symm, if_pos rfl]

theorem decodeHandshake_ack (c : Cfg) : decodeHandshake c c.ack = .ack := if_pos rfl

theorem decodeHandshake_nak {c : Cfg} {b : Byte} (h : b ≠ c.ack) : decodeHandshake c b = .nak b := if_neg h

theorem decode_lead (c : Cfg) : decode c { format := .commandLead, bytes := [c.esc], operands := [] } = .ok .esc := if_pos rfl

/-! ## Every row -/

/-- Settles O1: row by row, the decoder of the row's format reads back what the encoder wrote there. -/
theorem decodeReadsWhatEncodeWrites : Obligations.DecodeReadsWhatEncodeWrites := by
  intro c i hw
  cases i with
  | setup | beginFrame | putU8 | putU16le | putCstr | encode | flush | step | isReady | allocCode | allocArea | free | setEnabled
  | setWindow | clearWindow | setHook | clearHook => rfl
  | undefinedHostOpcode o ops =>
    exact congrArg Except.ok ((operandsMatch_eq_false_iff o ops).1 (by simpa [Instr.wf] using hw))
  | tick | reset | poll => rfl
  | lit b =>
    obtain ⟨h0, hp⟩ : b ≠ 0 ∧ b ≠ percentByte := by simpa [Instr.wf] using hw
    exact decode_tokenRecord c none (formatTokens_lit [] h0 hp)
  | dirChar arg => exact decode_directiveRecord c arg (by decide)
  | dirWord arg => exact decode_directiveRecord c arg (by decide)
  | dirStr arg => exact decode_directiveRecord c arg (by decide)
  | dirPercent => exact decode_directiveRecord c none (by decide)
  | dirUnknown d =>
    obtain ⟨h0, hd⟩ : d ≠ 0 ∧ directiveOf d = .unknown d := by simpa [Instr.wf] using hw
    exact (decode_directiveRecord c none h0).trans (by rw [hd, decodeToken])
  | trailingPct => exact decode_tokenRecord c none (formatTokens_trailing rfl)
  | evButton p =>
    obtain ⟨hp, hk⟩ : payloadWf p = true ∧ p[c.offCmd]? = some c.evButton := by simpa [Instr.wf] using hw
    exact (decode_eventRecord c hp).trans (by rw [eventKind_button hk])
  | evTouch p =>
    obtain ⟨hp, hk⟩ : payloadWf p = true ∧ p[c.offCmd]? = some c.evTouch := by simpa [Instr.wf] using hw
    exact (decode_eventRecord c hp).trans (by rw [eventKind_touch hk])
  | evUnknown p =>
    obtain ⟨hp, hb, ht⟩ : payloadWf p = true ∧ p[c.offCmd]? ≠ some c.evButton ∧ p[c.offCmd]? ≠ some c.evTouch := by
      simpa [Instr.wf] using hw
    exact (decode_eventRecord c hp).trans (by rw [eventKind_unknown hb ht])
  | buttonCode press k => exact congrArg Except.ok (congrArg₂ Instr.buttonCode (codePress_codeByte press k) (codeNumber_codeByte press k))
  | subRelease x y => exact decodeSub_release c x y
  | subPress x y => exact decodeSub_press c x y
  | subRepeat => exact decodeSub_repeat c
  | subOther b => exact decodeSub_other (by simpa [Instr.wf] using hw)
  | ctrlNoresp => exact decodeControl_noresp c
  | ctrlResp => exact decodeControl_resp c
  | ack => exact congrArg Except.ok (decodeHandshake_ack c)
  | nak b => exact congrArg Except.ok (decodeHandshake_nak (by simpa [Instr.wf] using hw))
  | esc => exact decode_lead c

/-- Settles O3: the decoder evaluated on each word, of which only the bytes of this hardware's fixed fields matter (R7). -/
theorem tableWordsDecode : Obligations.TableWordsDecode :=
  ⟨rfl, rfl, rfl, rfl, rfl, rfl, rfl, rfl, rfl, rfl, rfl, rfl, rfl⟩

end Sys2Proof.Machine
end

section
/-! SUPPORT. The control byte a frame is armed under (30_encoding.md R71, 41_session.md R112), and O25. -/

namespace Sys2Proof.Machine

/-- A transition that is enabled and runs to its end. -/
theorem transition_ok {e : Bool} {s t : State} {body : State → Res} (he : e = true) (h : body s = .ok t) :
    transition e s body = .next t := by rw [he, transition_enabled, h]

/-- A transition that is enabled and takes a fault. -/
theorem transition_raised {e : Bool} {s t : State} {body : State → Res} (he : e = true) (h : body s = .raised t) :
    transition e s body = .next t := by rw [he, transition_enabled, h]

theorem exec_ctrlNoresp (s : State) :
    exec .ctrlNoresp s = transition (armable s) s fun s => arm { s with ctrl := s.cfg.ctrlNoresp } := rfl

theorem exec_ctrlResp (s : State) : exec .ctrlResp s = transition (armable s) s fun s => arm { s with ctrl := s.cfg.ctrlResp } := rfl

/-- Between transfers, READY and past the common checks, a frame can be armed. -/
theorem armable_of_staging {s : State} (h : Staging s) (ht : s.cfg.transport = .tick → s.tstate = .ready) : armable s = true := by
  obtain ⟨⟨hf, ha⟩, hs⟩ := h
  have hr : isReady s = true := by
    cases hv : s.cfg.transport with
    | blocking => exact isReady_blocking hv
    | tick => simpa [isReady_tick hv] using ht hv
  exact (armable_iff s).2 ⟨hs, hr, ha, hf⟩

/-- Arming what is staged under control byte `b` finalizes the frame and goes to TRANSMIT; `b` chooses what comes after. -/
theorem exists_armedUnder (b : Byte) {nx : NextState} {s : State} (hl : s.outLen + 3 ≤ s.cfg.cOut)
    (hn : nextStateOf { s with ctrl := b } = nx) : ∃ t, arm { s with ctrl := b } = .ok t ∧ ArmedUnder b [] nx s t := by
  subst hn
  refine ⟨_, arm_ok { s with ctrl := b } hl, armedFrame_of_outBuf (s := { s with ctrl := b }) (by rw [staged_nil]), ?_⟩
  simp [State.armed, nextStateOf]

theorem nextStateOf_noresp (s : State) : nextStateOf { s with ctrl := s.cfg.ctrlNoresp } = .reset := if_neg (cfg_ctrl_ne s.cfg)

theorem nextStateOf_resp (s : State) : nextStateOf { s with ctrl := s.cfg.ctrlResp } = .receive := if_pos rfl

/-- Settles O25: both control bytes arm the staged frame, and R112's test on the byte chooses the next state. -/
theorem controlBytesChooseTheNextState : Obligations.ControlBytesChooseTheNextState := by
  intro s hs ht hl
  have he := armable_of_staging hs ht
  obtain ⟨t, hArm, hUnder⟩ := exists_armedUnder s.cfg.ctrlNoresp hl (nextStateOf_noresp s)
  obtain ⟨u, hArm', hUnder'⟩ := exists_armedUnder s.cfg.ctrlResp hl (nextStateOf_resp s)
  rw [exec_ctrlNoresp, exec_ctrlResp]
  exact ⟨⟨t, transition_ok he hArm, hUnder⟩, u, transition_ok he hArm', hUnder'⟩

end Sys2Proof.Machine
end

section
/-! SUPPORT. The decision of a transmit's handshake byte (30_encoding.md R72, 42_transport.md R133, R140), and O40. -/

namespace Sys2Proof.Machine

/-- Where the line is driven its value is the only change; in `Blocking` nothing changes. -/
theorem setCs_eq (v : Bool) (s : State) : s.setCs v = { s with cs := if s.cfg.transport = .tick then v else s.cs } := by
  cases h : s.cfg.transport with
  | blocking => simp [setCs_blocking v h]
  | tick => simp [setCs_tick v h]

/-- The state in which R133's arm for a byte other than ACK looks at the ceiling: the byte is stored, the line released, the refusal counted. -/
def refusalCounted (b : Byte) (s : State) : State :=
  { s with tAck := b, cs := if s.cfg.transport = .tick then false else s.cs, tRetries := s.tRetries + 1 }

theorem exec_ack (s : State) :
    exec .ack s = transition (handshakePending s) s fun s => tickReceiveAck { s with tAck := s.cfg.ack } := rfl

theorem exec_nak (b : Byte) (s : State) :
    exec (.nak b) s = transition (handshakePending s) s fun s => tickReceiveAck { s with tAck := b } := rfl

theorem tickReceiveAck_ack (s : State) : tickReceiveAck { s with tAck := s.cfg.ack } = .ok { s with tAck := s.cfg.ack, tstate := .ready } :=
  if_pos rfl

/-- A byte other than ACK: the ceiling decides between the fault and the same frame again. -/
theorem tickReceiveAck_refused {b : Byte} {s : State} (h : b ≠ s.cfg.ack) :
    tickReceiveAck { s with tAck := b } =
      if overLimit s.cfg.retryLimit (s.tRetries + 1) then raise .retryLimit (refusalCounted b s)
      else .ok { refusalCounted b s with tstate := .start } := by
  rw [tickReceiveAck, if_neg (by exact h), handshakeNak, setCs_eq]
  rfl

/-- Settles O40: in `T_RECEIVE_ACK` a handshake byte is R133's comparison, and under a ceiling R140's. -/
theorem handshakeBytesDecide : Obligations.HandshakeBytesDecide := by
  intro s hst hf
  have he : handshakePending s = true := by simp [handshakePending, running, hst, hf]
  rw [exec_ack]
  refine ⟨transition_ok he (tickReceiveAck_ack s), fun b hb => ?_⟩
  rw [exec_nak]
  refine ⟨fun hk => ?_, fun k hk hlt => ?_⟩
  · have hAgain : tickReceiveAck { s with tAck := b } = .ok { refusalCounted b s with tstate := .start } := by
      rw [tickReceiveAck_refused hb, (overLimit_eq_false_iff _ _).2 hk, if_neg Bool.false_ne_true]
    exact transition_ok he hAgain
  · have hCeiling : tickReceiveAck { s with tAck := b } = .raised { refusalCounted b s with fault := .retryLimit } := by
      rw [tickReceiveAck_refused hb, hk, overLimit_some_of_lt hlt, if_pos rfl, raise_running _ _ (by exact hf)]
    exact transition_raised he hCeiling

end Sys2Proof.Machine
end

section
/-! SUPPORT. The operations that stage bytes in READY (40_codec.md R91 to R96), and O13 to O15. -/

namespace Sys2Proof.Machine

/-! ## The sequencing guard and the common checks -/

theorem staging_outside_ready {s : State} (hs : s.state ≠ .ready) (body : State → Res) : staging body s = raise .sequence s := if_pos hs

/-- Past the common checks, a staging operation outside READY ends with SEQUENCE and writes nothing (40_codec.md R91). -/
theorem hostOp_staging_outside_ready {s : State} (g : State → Result) (body : State → Res) (ha : Accepting s) (hs : s.state ≠ .ready) :
    hostOp false true s g (staging body) = .next ({ s with fault := .sequence }.ret (.fault .sequence)) := by
  obtain ⟨hf, hatt⟩ := ha
  rw [hostOp_run s _ _ hf hatt, staging_outside_ready hs, raise_running _ _ hf, toOutcome_raised]

/-- Past the common checks and in READY, a staging operation does what its body does. -/
theorem hostOp_staging {s : State} (g : State → Result) (body : State → Res) (hs : Staging s) :
    hostOp false true s g (staging body) = (body s).toOutcome g := by
  obtain ⟨⟨hf, hatt⟩, hst⟩ := hs
  rw [hostOp_run s _ _ hf hatt, staging_ready hst]

/-! ## The typed calls -/

/-- A typed call on operands of its types appends its bytes behind the common checks and the sequencing guard (40_codec.md R94 to R96). -/
theorem exec_put {i : Instr} {l : List Byte} (s : State) (hi : putBytes i = some l) (hw : i.wf s.cfg = true) :
    exec i s = hostOp false true s unitResult (staging (appendAll l)) := by
  cases i <;> simp only [putBytes, Option.some.injEq, reduceCtorEq] at hi <;> subst hi
  case putU8 v =>
    have hu : isU8 v = true := hw
    have hbytes : appendAll [BitVec.ofNat 8 v] = appendByte (byteOf v) := funext (appendAll_singleton _)
    rw [hbytes, ← hu]
    rfl
  case putU16le v =>
    have hu : isU16 v = true := hw
    rw [← lowByte_u16Of, ← highByte_u16Of, ← hu]
    rfl
  case putCstr str =>
    rw [← content_eq_takeWhile]
    rfl

/-- Where bytes do not all fit, those that do fill the room left of the buffer (40_codec.md R92). -/
theorem outLen_staged_full {l : List Byte} {s : State} (h0 : fits [] s) (hl : ¬ fits l s) :
    s.outLen + (l.take (s.cfg.cOut - 3 - s.outLen)).length = s.cfg.cOut - 3 := by
  simp only [fits, List.length_nil, List.length_take] at *
  omega

/-- Settles O13: each of the four is a staging operation, and the guard stands before its body. -/
theorem sequenceGuardFaults : Obligations.SequenceGuardFaults := by
  rintro i s (hput | ⟨fmt, args, rfl⟩) hw ha hs
  · obtain ⟨l, hl⟩ := Option.isSome_iff_exists.1 hput
    rw [exec_put s hl hw]
    exact hostOp_staging_outside_ready _ _ ha hs
  · exact hostOp_staging_outside_ready lengthResult _ ha hs

/-- Settles O14: a typed call in READY is the append of its bytes, which fit. -/
theorem putCallsStageTheirBytes : Obligations.PutCallsStageTheirBytes := by
  intro i l s hi hw hs hl
  have hexec : exec i s = .next ((s.staged l).ret .unit) := by
    rw [exec_put s hi hw, hostOp_staging _ _ hs, appendAll_ok l s hl, toOutcome_ok, unitResult]
  exact ⟨_, hexec, storedAt_of_writeBytes rfl, rfl⟩

/-- Settles O15: a typed call in READY is the append of its bytes, which stops at the first one without room. -/
theorem putCallsStageWhatFitsThenFault : Obligations.PutCallsStageWhatFitsThenFault := by
  intro i l s hi hw hs h0 hl
  have hexec : exec i s
      = .next ({ s.staged (l.take (s.cfg.cOut - 3 - s.outLen)) with fault := .frameTooLarge }.ret (.fault .frameTooLarge)) := by
    obtain ⟨⟨hf, _⟩, _⟩ := id hs
    rw [exec_put s hi hw, hostOp_staging _ _ hs, appendAll_full l s hl h0, raise_running _ _ (by exact hf), toOutcome_raised]
  refine ⟨_, hexec, storedAt_of_writeBytes rfl, ?_⟩
  rw [State.staged, outLen_staged_full h0 hl]
  rfl

end Sys2Proof.Machine
end

section
/-! SUPPORT. ENCODE and the directive tokens (40_codec.md R97 to R104), and O16 to O19. -/

namespace Sys2Proof.Machine

/-! ## ENCODE -/

/-- ENCODE in READY runs its tokens (40_codec.md R97). -/
theorem exec_encode {s : State} (fmt : List Byte) (args : List Arg) (hs : Staging s) :
    exec (.encode fmt args) s = (encodeTokens (formatTokens fmt) args s).toOutcome lengthResult :=
  hostOp_staging lengthResult _ hs

/-- A token that faults ends the run of tokens it stands in front of. -/
theorem encodeTokens_raised {tok : Token} {args : List Arg} {s t : State} (after : List Token) (h : opToken tok args.head? s = .raised t) :
    encodeTokens (tok :: after) args s = .raised t := by
  rw [encodeTokens, h, andThen_raised]

/-- ENCODE whose tokens up to `tok` find their arguments and fit, and whose token `tok` faults. -/
theorem exec_encode_raised {fmt : List Byte} {args : List Arg} {before after : List Token} {tok : Token} {l : List Byte} {k : Nat}
    {s t : State} (hfmt : formatTokens fmt = before ++ tok :: after) (he : tokensEffect before args = some (l, k)) (hs : Staging s)
    (hl : fits l s) (ht : opToken tok (argsLeft before args).head? ((s.staged l).withUnknown k) = .raised t) :
    exec (.encode fmt args) s = .next (t.ret (.fault t.fault)) := by
  rw [exec_encode _ _ hs, hfmt, encodeTokens_append _ _ _ _ _ _ he hl, encodeTokens_raised _ ht, toOutcome_raised]

/-- A token whose bytes do not all fit stages those that do and faults (40_codec.md R92). -/
theorem opToken_full {tok : Token} {arg : Option Arg} {b : List Byte} {s : State} (hb : tokenBytes tok arg = some b) (hf : s.fault = .none)
    (h0 : fits [] s) (hl : ¬ fits b s) :
    opToken tok arg s = .raised { s.staged (b.take (s.cfg.cOut - 3 - s.outLen)) with fault := .frameTooLarge } := by
  rw [opToken_found _ _ _ hb, appendAll_full _ _ hl h0, raise_running _ _ (by exact hf), andThen_raised]

/-- The diagnostics of earlier tokens and the bytes of a later one are written in different places. -/
theorem staged_withUnknown (l : List Byte) (k : Nat) (s : State) : (s.withUnknown k).staged l = (s.staged l).withUnknown k := rfl

/-- Where `l` fits and `l ++ b` does not, what fits of `l ++ b` is `l` and what fits of `b` behind it. -/
theorem take_append_of_fits {l : List Byte} {s : State} (b : List Byte) (hl : fits l s) :
    (l ++ b).take (s.cfg.cOut - 3 - s.outLen) = l ++ b.take (s.cfg.cOut - 3 - (s.outLen + l.length)) := by
  have hroom : l.length ≤ s.cfg.cOut - 3 - s.outLen := by unfold fits at hl; omega
  rw [List.take_append, List.take_of_length_le hroom, Nat.sub_sub]

/-- Settles O16: every token finds its argument and fits (`encodeTokens_append`), and no token is left. -/
theorem encodeStagesItsTokens : Obligations.EncodeStagesItsTokens := by
  intro fmt args l k s he hs hl
  have hrun : encodeTokens (formatTokens fmt) args s = .ok ((s.staged l).withUnknown k) := by
    simpa only [List.append_nil, encodeTokens] using encodeTokens_append (formatTokens fmt) [] args l k s he hl
  have hexec : exec (.encode fmt args) s = .next (((s.staged l).withUnknown k).ret (.number (s.outLen + l.length))) := by
    rw [exec_encode _ _ hs, hrun, toOutcome_ok]
    rfl
  exact ⟨_, hexec, storedAt_of_writeBytes rfl, rfl⟩

/-- Settles O17: the tokens before the lacking one are staged, and it raises without writing. -/
theorem encodeFaultsAtALackingArgument : Obligations.EncodeFaultsAtALackingArgument := by
  intro fmt args before after tok l k s hfmt he hb hs hl
  have hraise : opToken tok (argsLeft before args).head? ((s.staged l).withUnknown k)
      = .raised { (s.staged l).withUnknown k with fault := .badArgument } := by
    obtain ⟨⟨hf, _⟩, _⟩ := id hs
    rw [opToken_lacking _ _ hb, raise_running _ _ (by exact hf)]
  exact ⟨_, exec_encode_raised hfmt he hs hl hraise, storedAt_of_writeBytes rfl, rfl⟩

/-- Settles O18: the tokens before the one that does not fit are staged, and of its bytes those that fit behind them. -/
theorem encodeFaultsAtTheFirstByteThatDoesNotFit : Obligations.EncodeFaultsAtTheFirstByteThatDoesNotFit := by
  intro fmt args before after tok l b k s hfmt he hb hs hl hlb
  have h0 : fits [] s := by simp only [fits, List.length_nil] at hl ⊢; omega
  have hroom : fits [] ((s.staged l).withUnknown k) := (fits_staged l [] s).2 (by rwa [List.append_nil])
  have hfull : ¬ fits b ((s.staged l).withUnknown k) := fun h => hlb ((fits_staged l b s).1 h)
  have hraise : opToken tok (argsLeft before args).head? ((s.staged l).withUnknown k)
      = .raised { (s.staged ((l ++ b).take (s.cfg.cOut - 3 - s.outLen))).withUnknown k with fault := .frameTooLarge } := by
    obtain ⟨⟨hf, _⟩, _⟩ := id hs
    rw [opToken_full hb (by exact hf) hroom hfull, staged_withUnknown, staged_staged, take_append_of_fits b hl]
    rfl
  refine ⟨_, exec_encode_raised hfmt he hs hl hraise, storedAt_of_writeBytes rfl, ?_⟩
  rw [State.staged, outLen_staged_full h0 hlb]
  rfl

/-! ## Directive tokens by themselves -/

/-- A directive row runs its token behind ENCODE's checks (log 12). -/
theorem exec_directive {i : Instr} {tok : Token} {arg : Option Arg} (s : State) (hi : tokenOf i = some (tok, arg)) :
    exec i s = oneToken (opToken tok arg) s := by
  cases i <;> simp only [tokenOf, Option.some.injEq, Prod.mk.injEq, reduceCtorEq] at hi <;> obtain ⟨rfl, rfl⟩ := hi <;> rfl

theorem encodeTokens_singleton (tok : Token) (args : List Arg) (s : State) : encodeTokens [tok] args s = opToken tok args.head? s := by
  unfold encodeTokens
  cases opToken tok args.head? s <;> rfl

/-- A directive row is the ENCODE of a format string that spells its token, with that one argument (40_codec.md R97). -/
theorem exec_directive_eq_encode {i : Instr} {tok : Token} {arg : Option Arg} {fmt : List Byte} (s : State) (hi : tokenOf i = some (tok, arg))
    (hfmt : formatTokens fmt = [tok]) : exec i s = exec (.encode fmt arg.toList) s := by
  have hrun : opToken tok arg = encodeTokens (formatTokens fmt) arg.toList := by
    funext u
    rw [hfmt, encodeTokens_singleton]
    cases arg <;> rfl
  rw [exec_directive s hi, hrun]
  rfl

/-- Settles O19: a directive row runs one token, and so does the ENCODE of the format string that spells it. -/
theorem loneTokensAreOneTokenEncodes : Obligations.LoneTokensAreOneTokenEncodes := by
  refine ⟨fun i tok arg l s hi hb hs hl => ?_,
    fun s => ⟨fun b h0 hp => ?_, fun arg => ?_, fun arg => ?_, fun arg => ?_, ?_, fun d h0 hd => ?_, ?_⟩⟩
  · have hexec : exec i s = .next (((s.staged l).withUnknown (tokenDiags tok)).ret (.number (s.outLen + l.length))) := by
      rw [exec_directive s hi, oneToken, hostOp_staging _ _ hs, opToken_found _ _ _ hb, appendAll_ok l s hl, andThen_ok, toOutcome_ok]
      rfl
    exact ⟨_, hexec, storedAt_of_writeBytes rfl, rfl⟩
  · exact exec_directive_eq_encode (arg := none) s rfl (formatTokens_lit [] h0 hp)
  · exact exec_directive_eq_encode s rfl rfl
  · exact exec_directive_eq_encode s rfl rfl
  · exact exec_directive_eq_encode s rfl rfl
  · exact exec_directive_eq_encode (arg := none) s rfl rfl
  · exact exec_directive_eq_encode (arg := none) s rfl ((formatTokens_directive [] h0).trans (by rw [hd]; rfl))
  · exact exec_directive_eq_encode (arg := none) s rfl rfl

end Sys2Proof.Machine
end

section
/-! SUPPORT. BEGIN_FRAME and the lead byte (40_codec.md R93), and O20. -/

namespace Sys2Proof.Machine

/-- The lead byte is ESC under every configuration (00_scope.md R7), and it is staged where it fits. -/
theorem beginRest_ok {s : State} (h : fits [0x1B] s) : beginRest s = .ok (s.staged [0x1B]) := by
  rw [beginRest, cfg_esc, appendByte_ok _ _ h]

theorem beginRest_full {s : State} (hf : s.fault = .none) (h : ¬ fits [0x1B] s) :
    beginRest s = .raised { s with fault := .frameTooLarge } := by
  rw [beginRest, cfg_esc, appendByte_full _ _ h, raise_running _ _ hf]

/-- In READY both BEGIN_FRAME and the lead byte by itself are the append of ESC (log 12). -/
theorem exec_leadByte {i : Instr} {s : State} (hi : i = .beginFrame ∨ i = .esc) (hp : s.pos = .idle) (hs : Staging s) :
    exec i s = (beginRest s).toOutcome unitResult := by
  obtain ⟨ha, hst⟩ := id hs
  rcases hi with rfl | rfl
  · rw [exec_beginFrame_idle ha hp, driving_ok _ (drive_ready _ _ ha.1 hst)]
  · exact hostOp_staging unitResult _ hs

/-- Room for one byte, as R92's check tests it, is room for the lead byte. -/
theorem fits_leadByte_iff (s : State) : fits [0x1B] s ↔ s.outLen + 1 ≤ s.cfg.cOut - 3 := by
  obtain ⟨hOut, _⟩ := cfg_cOut s.cfg
  simp only [fits, List.length_singleton]
  omega

/-- Behind the session's RESET step nothing is staged, so the lead byte fits. -/
theorem fits_leadByte_resetStepped (s : State) : fits [0x1B] (resetStepped s) := by
  obtain ⟨hOut, _⟩ := cfg_cOut s.cfg
  exact hOut

/-- Where FLUSH from outside READY returns, BEGIN_FRAME appends the lead byte to the state FLUSH returns in (40_codec.md R93). -/
theorem beginFrame_after_flush {s u : State} (ha : Accepting s) (hp : s.pos = .idle) (hs : s.state ≠ .ready)
    (hflush : exec .flush s = .next ((resetStepped u).ret .unit)) (hau : Accepting u) (hpu : u.pos = .idle) :
    exec .beginFrame s = .next (((resetStepped u).staged [0x1B]).ret .unit) := by
  obtain ⟨hbegin, _⟩ := operations_after_flush ha hp hs hflush hpu
  rw [hbegin, exec_leadByte (s := resetStepped u) (.inl rfl) hpu ⟨hau, rfl⟩, beginRest_ok (fits_leadByte_resetStepped u), toOutcome_ok,
    unitResult]

/-- In RESET with the transport ready, BEGIN_FRAME takes the RESET step and appends. -/
theorem beginFrame_in_reset {s : State} (ha : Accepting s) (hr : isReady s = true) (hs : s.state = .reset)
    (hp : s.pos = .idle ∨ s.pos = .beginning) : exec .beginFrame s = .next (((resetStepped s).staged [0x1B]).ret .unit) := by
  rw [exec_beginFrame_drives ha hp, driving_ok _ (drive_reset _ ha.1 hr hs), beginRest_ok (fits_leadByte_resetStepped s), toOutcome_ok,
    unitResult]

/-- Settles O20: BEGIN_FRAME is its loop and then the append of ESC; outside READY its loop does what FLUSH does first. -/
theorem beginFrameStagesTheLeadByte : Obligations.BeginFrameStagesTheLeadByte := by
  refine ⟨?ready, ?armed, ?reset⟩
  case ready =>
    intro i s hi hp hs
    refine ⟨fun hroom => ?_, fun hfull => ?_⟩
    · have hexec : exec i s = .next ((s.staged [0x1B]).ret .unit) := by
        rw [exec_leadByte hi hp hs, beginRest_ok ((fits_leadByte_iff s).2 hroom), toOutcome_ok, unitResult]
      exact ⟨_, hexec, storedAt_of_writeBytes rfl, rfl⟩
    · have hno : ¬ fits [0x1B] s := fun h => absurd ((fits_leadByte_iff s).1 h) (Nat.not_le.2 hfull)
      obtain ⟨⟨hf, _⟩, _⟩ := id hs
      rw [exec_leadByte hi hp hs, beginRest_full hf hno, toOutcome_raised]
  case armed =>
    intro s len frame refusals rest ha hp hs hx hne hk
    obtain ⟨-, hst, ht, -⟩ := id hs
    have hnr : s.state ≠ .ready := by simp [hst]
    refine ⟨fun hn => ?_, ?_⟩
    · exact ⟨_, beginFrame_after_flush ha hp hnr (flush_finishes_frame ha hp hs hx hne hk hn) ha hp, storedAt_of_writeBytes rfl, rfl⟩
    · rintro c n trailer p rest' hn hl rfl
      have hlen := length_inboundFrame c trailer hl
      refine ⟨_, beginFrame_after_flush ha hp hnr (flush_finishes_poll ha hp hs hx hne hk hn hl) ha hp, storedAt_of_writeBytes rfl,
        fun i hi hc => ?_, fun i hi => ?_, ?_⟩
      · exact (inRead_receiveStarted rest' hl i).trans (if_pos ⟨hi, hc⟩)
      · exact (inRead_receiveStarted rest' hl i).trans (if_neg (by show ¬ (i < n.toNat + 3 ∧ i < s.cfg.cIn); omega))
      · simp only [resetStepped, frameDispatched, State.readIn, receiveStarted, hlen, Nat.zero_add, ← ht]
        rfl
  case reset =>
    intro s ha hp hv ht hs
    have hr : isReady s = true := by simp [isReady_tick hv, ht]
    exact ⟨_, beginFrame_in_reset ha hr hs hp, storedAt_of_writeBytes rfl, rfl⟩

end Sys2Proof.Machine
end

section
/-! SUPPORT. The checksums of both directions (40_codec.md R105 to R108), O26 and O56. -/

namespace Sys2Proof.Machine

/-! ## The outbound trailer -/

/-- Header and trailer are written around the payload (20_memory.md R45). -/
theorem readRange_armed (s : State) : readRange s.armed.outBuf 2 s.outLen = readRange s.outBuf 2 s.outLen := by
  simp only [State.armed]
  rw [readRange_writeMem_outside _ _ (by omega), readRange_writeMem_outside _ _ (by omega), readRange_writeMem_outside _ _ (by omega)]

/-- The outbound length fits its length byte (00_scope.md R7, 10_state.md R21). -/
theorem CodecInv.toNat_lengthByte {s : State} (h : CodecInv s) : (byteOf s.outLen).toNat = s.outLen := by
  have hroom := h.room
  obtain ⟨_, hOut⟩ := cfg_cOut s.cfg
  rw [byteOf, BitVec.toNat_ofNat]
  exact Nat.mod_eq_of_lt (by omega)

/-- Settles O26: the running sum is the sum of the payload (R22), and the finalize adds the two header bytes. -/
theorem armedFramesCarryTheirChecksum : Obligations.ArmedFramesCarryTheirChecksum := by
  intro s t h harm
  obtain ⟨p, hp, hsum⟩ := h.sum
  rw [arm_ok s h.room] at harm
  obtain rfl := Res.ok.inj harm
  have htrailer : s.outSum + s.ctrl + byteOf s.outLen = sum8 (s.ctrl :: byteOf s.outLen :: p) := by
    rw [sum8_cons, sum8_cons, hsum, BitVec.add_assoc, BitVec.add_comm s.outSum, BitVec.add_assoc]
  refine ⟨s.ctrl, byteOf s.outLen, p, ?_, ?_, h.toNat_lengthByte, (readRange_armed s).trans hp, ?_⟩
  · rw [outRead_armed, if_neg (by omega), if_neg (by omega), if_pos rfl]
  · rw [outRead_armed, if_neg (by omega), if_pos rfl]
  · rw [← htrailer, outRead_armed]
    exact if_pos rfl

/-! ## The inbound sum test -/

theorem inboundSumOk_iff (n : Byte) (p : List Byte) (trailer : Byte) : inboundSumOk n p trailer = true ↔ sum8 (n :: p) = trailer :=
  decide_eq_true_iff

/-- Replacing one byte by another one changes the sum: the difference of the two is not 0 modulo 256. -/
theorem sum8_set_ne {p : List Byte} {b b' : Byte} (hne : b' ≠ b) : ∀ {i : Nat}, p[i]? = some b → sum8 (p.set i b') ≠ sum8 p := by
  induction p with
  | nil => exact nofun
  | cons a rest ih =>
    intro i hb
    cases i with
    | zero =>
      obtain rfl : a = b := Option.some.inj hb
      exact fun he => hne ((BitVec.add_left_inj (sum8 rest)).1 he)
    | succ i => exact fun he => ih hb ((BitVec.add_right_inj a).1 he)

/-- Settles O56: either corruption leaves a sum and a trailer that differ. -/
theorem singleCorruptionsAreDetected : Obligations.SingleCorruptionsAreDetected := by
  intro n p trailer hok
  have hsum := (inboundSumOk_iff n p trailer).1 hok
  refine ⟨fun i b b' hb hne => ?_, fun trailer' hne => ?_⟩
  · refine Bool.eq_false_iff.2 fun h => sum8_set_ne hne hb ?_
    have hset : n + sum8 (p.set i b') = n + sum8 p := ((inboundSumOk_iff ..).1 h).trans hsum.symm
    exact (BitVec.add_right_inj n).1 hset
  · exact Bool.eq_false_iff.2 fun h => hne (((inboundSumOk_iff ..).1 h).symm.trans hsum)

end Sys2Proof.Machine
end

section
/-! SUPPORT. SETUP and IS_READY (41_session.md R109, R123, R124), O21 and O22. -/

namespace Sys2Proof.Machine

/-! ## SETUP -/

theorem exec_setup {s : State} (hf : s.fault = .none) : exec .setup s = (setupBody s).toOutcome setupResult := by
  show hostOp true true s setupResult setupBody = _
  simp [hostOp, hf]

theorem openChannel_given {s : State} {r : Bool} {rest : List Bool} (h : s.env.opens = r :: rest) :
    openChannel s = (r, { s with env := { s.env with opens := rest } }) := by
  unfold openChannel
  rw [h]

theorem openChannel_free {s : State} (h : s.env.opens = []) :
    openChannel s = (Config.openOutcome s.env.openCount, { s with env := { s.env with openCount := s.env.openCount + 1 } }) := by
  unfold openChannel
  rw [h]

theorem setupBody_attached {s : State} (h : s.attached = true) : setupBody s = .ok s := if_pos h

theorem detached_eq {s : State} (h : s.attached = false) : { s with attached := false } = s := by rw [← h]

/-- Before the channel is open, SETUP attaches exactly where its opening succeeds (41_session.md R124). -/
theorem setupBody_detached {s t : State} {r : Bool} (h : s.attached = false) (ho : openChannel s = (r, t)) (ht : t.attached = false) :
    setupBody s = .ok { t with attached := r } := by
  unfold setupBody
  rw [if_neg (by simp [h]), ho]
  cases r with
  | true => rfl
  | false => exact congrArg Res.ok (detached_eq ht).symm

/-- SETUP before the channel is open, by the outcome of its opening. -/
theorem exec_setup_detached {s t : State} {r : Bool} (hf : s.fault = .none) (h : s.attached = false)
    (ho : openChannel s = (r, t)) (ht : t.attached = false) :
    exec .setup s = .next ({ t with attached := r }.ret (if r then .ok else .setupFailed)) := by
  rw [exec_setup hf, setupBody_detached h ho ht, toOutcome_ok]
  rfl

/-- Settles O21: SETUP on an attached block, and before that by the outcome drawn for its opening. -/
theorem setupOpensTheChannel : Obligations.SetupOpensTheChannel := by
  intro s hf
  refine ⟨fun h => ?attached, fun rest h ho => ?opened, fun rest h ho => ?failed, fun h ho => ?free⟩
  case attached => rw [exec_setup hf, setupBody_attached h, toOutcome_ok, setupResult, if_pos h]
  case opened => exact exec_setup_detached hf h (openChannel_given ho) h
  case failed =>
    rw [exec_setup_detached hf h (openChannel_given ho) h]
    exact congrArg (fun t => Host.Outcome.next (State.ret .setupFailed t))
      (detached_eq (s := { s with env := { s.env with opens := rest } }) h)
  case free => exact exec_setup_detached hf h (openChannel_free ho) h

/-! ## IS_READY -/

theorem exec_isReady {s : State} (ha : Accepting s) : exec .isReady s = .next (s.ret (.bool (isReady s))) :=
  hostOp_run s readyResult .ok ha.1 ha.2

/-- Settles O22: IS_READY delivers the readiness R109 defines for each variant. -/
theorem isReadyReadsTheTransport : Obligations.IsReadyReadsTheTransport := by
  intro s ha
  refine ⟨fun hb => ?_, fun hv => ?_⟩
  · rw [exec_isReady ha, isReady_blocking hb]
  · rw [exec_isReady ha, isReady_tick hv]

end Sys2Proof.Machine
end

section
/-! SUPPORT. STEP, by the arm of the session table it takes (41_session.md R110 to R116, R121), O23, O24 and O27. -/

namespace Sys2Proof.Machine

/-! ## How STEP ends -/

/-- Between transfers the transport is ready in both variants (41_session.md R109). -/
theorem isReady_between_transfers {s : State} (ht : s.cfg.transport = .tick → s.tstate = .ready) : isReady s = true := by
  cases hv : s.cfg.transport with
  | blocking => exact isReady_blocking hv
  | tick => simpa [isReady_tick hv] using ht hv

/-- A step that is not ready is deferred (41_session.md R110). -/
theorem exec_step_deferred {s : State} (ha : Accepting s) (hp : s.pos = .idle) (hr : isReady s = false) :
    exec .step s = .next (s.ret .deferred) := by
  show execStep s = _
  rw [execStep, hp]
  simp only [hr]
  exact hostOp_run s _ _ ha.1 ha.2

theorem exec_step_ok {s t : State} (ha : Accepting s) (hp : s.pos = .idle) (hr : isReady s = true) (h : sessionArm s = .ok t) :
    exec .step s = .next (t.ret .stepped) := by
  rw [exec_step_ready ha hp hr, h, at_ok, toOutcome_ok, steppedResult]

theorem exec_step_raised {s t : State} (ha : Accepting s) (hp : s.pos = .idle) (hr : isReady s = true) (h : sessionArm s = .raised t) :
    exec .step s = .next (t.ret (.fault t.fault)) := by
  rw [exec_step_ready ha hp hr, h, at_raised, toOutcome_raised]

/-! ## The session table outside READY -/

theorem sessionArm_resetStepped {s : State} (h : s.state = .reset) : sessionArm s = .ok (resetStepped s) := sessionArm_reset h

/-- A blocking transmit at the retry ceiling: STEP's arm raises where the last refusal is counted (42_transport.md R140). -/
theorem sessionArm_refused {s : State} {len last : Byte} {frame refusals rest : List Byte} {k : Nat} (hf : s.fault = .none)
    (hs : Sending s len frame) (hx : s.env.rx = refusals ++ last :: rest) (hne : ∀ b ∈ refusals, b ≠ s.cfg.ack)
    (hl : last ≠ s.cfg.ack) (hk : s.cfg.retryLimit = some k) (hlen : refusals.length = k) :
    sessionArm s = .raised { s with
      fault := .retryLimit
      tstate := .receiveAck
      tIdx := len.toNat + 3
      tCnt := 0
      tWait := 0
      tAck := last
      tRetries := k + 1
      env := { s.env with rx := rest }
      out := { s.out with bus := s.out.bus ++ (refusals ++ [last]).flatMap (attemptBus frame s.cfg.dummyTx) } } := by
  obtain ⟨hb, hst, ht, h1, hframe⟩ := hs
  rw [sessionArm_transmit hst, transmitStep, transmit_refused hf hb ht h1 hframe hx hne hl hk hlen, andThen_raised]

/-- Settles O23: STEP is deferred, or does what the arm of its session state does. -/
theorem stepFollowsTheSessionTable : Obligations.StepFollowsTheSessionTable := by
  intro s ha hp
  have ready : ∀ {t}, s.tstate = .ready → sessionArm s = .ok t → exec .step s = .next (t.ret .stepped) := fun ht h =>
    exec_step_ok ha hp (isReady_between_transfers fun _ => ht) h
  refine ⟨?deferred, ?transmit, ?receive, ?reset, ?resetBlocking, ?acknowledged, ?ceiling⟩
  case deferred => exact fun hv ht => exec_step_deferred ha hp (by simp [isReady_tick hv, ht])
  case transmit => exact fun hv ht hst => ready ht ((sessionArm_transmit hst).trans (transmitStep_tick hv))
  case receive => exact fun hv ht hst => ready ht ((sessionArm_receive hst).trans (receiveStep_tick hv))
  case reset => exact fun _ ht hst => ready ht (sessionArm_resetStepped hst)
  case resetBlocking => exact fun hb hst => exec_step_ok ha hp (isReady_blocking hb) (sessionArm_resetStepped hst)
  case acknowledged =>
    intro len frame refusals rest hs hx hne hk
    exact exec_step_ok ha hp (isReady_blocking hs.1) (sessionArm_transmitted hs hx hne hk)
  case ceiling =>
    intro len last frame refusals rest k hs hx hne hl hk hlen
    exact exec_step_raised ha hp (isReady_blocking hs.1) (sessionArm_refused ha.1 hs hx hne hl hk hlen)

/-! ## The poll -/

/-- The poll writes its control byte before it appends its payload (41_session.md R111). -/
def underResp (s : State) : State := { s with ctrl := s.cfg.ctrlResp }

theorem exec_poll (s : State) : exec .poll s = transition (armable s) s pollStep := rfl

theorem pollStep_eq (s : State) : pollStep s = (appendAll s.cfg.pollPayload (underResp s)).andThen arm := rfl

theorem pollStep_ok {s : State} (h : fits s.cfg.pollPayload s) : pollStep s = .ok ((underResp s).staged s.cfg.pollPayload).armed := by
  have hroom : fits [] ((underResp s).staged s.cfg.pollPayload) := (fits_staged _ [] _).2 (by rw [List.append_nil]; exact h)
  rw [pollStep_eq, appendAll_ok s.cfg.pollPayload (underResp s) h, andThen_ok, arm_ok _ hroom]

theorem pollStep_full {s : State} (hf : s.fault = .none) (h0 : fits [] s) (h : ¬ fits s.cfg.pollPayload s) :
    pollStep s = .raised
      { (underResp s).staged (s.cfg.pollPayload.take (s.cfg.cOut - 3 - s.outLen)) with fault := .frameTooLarge } := by
  rw [pollStep_eq, appendAll_full s.cfg.pollPayload (underResp s) h h0, raise_running _ _ (by exact hf), andThen_raised]
  rfl

/-- A poll's frame is armed under `CTRL_RESP`, behind what was staged. -/
theorem armedUnder_poll (l : List Byte) (s : State) : ArmedUnder s.cfg.ctrlResp l .receive s ((underResp s).staged l).armed := by
  refine ⟨armedFrame_of_outBuf (s := underResp s) rfl, ?_⟩
  simp [State.armed, State.staged, underResp]

/-- Settles O24: in READY both are the poll step, which arms where its payload fits and faults where it does not. -/
theorem pollArmsAFrameThatExpectsAReply : Obligations.PollArmsAFrameThatExpectsAReply := by
  intro s hs hp ht
  obtain ⟨ha, hst⟩ := id hs
  have hr := isReady_between_transfers ht
  have he := armable_of_staging hs ht
  rw [exec_poll]
  refine ⟨fun hfit => ?_, fun h0 hfull => ?_⟩
  · have hpoll := pollStep_ok hfit
    exact ⟨_, armedUnder_poll _ s, exec_step_ok ha hp hr ((sessionArm_ready hst).trans hpoll), transition_ok he hpoll⟩
  · have hpoll := pollStep_full ha.1 h0 hfull
    refine ⟨_, storedAt_of_writeBytes rfl, ?_, exec_step_raised ha hp hr ((sessionArm_ready hst).trans hpoll),
      transition_raised he hpoll⟩
    rw [State.staged, show (underResp s).outLen + _ = _ from outLen_staged_full (s := s) h0 hfull]
    rfl

/-! ## The EVENT step -/

theorem eventRecords_empty (s : State) : eventRecords s 0 = some [] := if_pos rfl

theorem eventRecords_overflow {s : State} {n : Byte} (hn : n ≠ 0) (ho : s.inOvf = true) :
    eventRecords s n = some [.diag .inboundOverflow] := by
  rw [eventRecords, if_neg hn, if_pos ho]

theorem eventRecords_stored {s : State} {n trailer : Byte} {p : List Byte} (hn : n ≠ 0) (ho : s.inOvf = false)
    (hp : readRange s.inBuf 2 n.toNat = some p) (ht : inRead s (2 + n.toNat) = some trailer) :
    eventRecords s n = some (if sum8 (n :: p) = trailer then payloadEvents s p else [.diag .checksumMismatch]) := by
  rw [eventRecords, if_neg hn, if_neg (by simp [ho])]
  simp only [inFrame, hp, ht, Option.map_some]

theorem sessionArm_event_records {s : State} {l : List Event} (hst : s.state = .event) (h : (inRead s 1).bind (eventRecords s) = some l) :
    sessionArm s = .ok { s.withEvents l with state := .reset } := by
  rw [sessionArm_event hst, eventStep_eq_records, h]

/-- Settles O27: the EVENT step appends the records of the stored frame, which are R115's in each of its cases. -/
theorem eventStepChecksTheFrame : Obligations.EventStepChecksTheFrame := by
  intro s n ha hp hst ht h1
  have hstep : ∀ {l}, eventRecords s n = some l → exec .step s = .next ((State.withEvents l { s with state := .reset }).ret .stepped) :=
    fun h => exec_step_ok ha hp (isReady_between_transfers ht) (sessionArm_event_records hst (by rw [h1, Option.bind_some, h]))
  refine ⟨?empty, ?overflow, ?stored⟩
  case empty =>
    rintro rfl
    rw [hstep (eventRecords_empty s), withEvents_nil]
  case overflow => exact fun hn ho => hstep (eventRecords_overflow hn ho)
  case stored =>
    intro p trailer hn ho hpay htr
    have hrec := eventRecords_stored hn ho hpay htr
    refine ⟨fun hsum => hstep ?_, fun hsum => hstep ?_⟩
    · rw [hrec, if_neg hsum]
    · rw [hrec, if_pos hsum]

end Sys2Proof.Machine
end

section
/-! SUPPORT. Whole transfers in `Blocking`: a frame sent until it is acknowledged, a frame received, and a poll (41_session.md R119, R122,
42_transport.md R142), O30, O32 and O33. -/

namespace Sys2Proof.Machine

/-! ## The armed frame on the wire -/

/-- Consecutive ranges make one range. -/
theorem readRange_add {m : Memory} {n k : Nat} {l' : List Byte} : ∀ {a : Nat} {l : List Byte}, readRange m a n = some l →
    readRange m (a + n) k = some l' → readRange m a (n + k) = some (l ++ l') := by
  induction n with
  | zero =>
    intro a l h h'
    cases h
    rwa [Nat.zero_add]
  | succ n ih =>
    intro a l h h'
    rw [show n + 1 + k = n + k + 1 by omega]
    simp only [readRange] at h ⊢
    split at h
    next b rest hb hrest =>
      cases h
      rw [ih hrest (by rwa [show a + 1 + n = a + (n + 1) by omega]), hb]
      rfl
    next => cases h

/-- What arming leaves in the outbound buffer, read in wire order (30_encoding.md R68, 40_codec.md R105). -/
theorem readRange_armed_frame {s : State} {p : List Byte} (hp : readRange s.outBuf 2 s.outLen = some p) (hsum : sum8 p = s.outSum) :
    readRange s.armed.outBuf 0 (s.outLen + 3) = some (frameBytes s.ctrl p) := by
  have hHeader : readRange s.armed.outBuf 0 2 = some [s.ctrl, byteOf s.outLen] := by
    have h0 : readMem s.armed.outBuf 0 = _ := outRead_armed s 0
    have h1 : readMem s.armed.outBuf (0 + 1) = _ := outRead_armed s 1
    rw [if_neg (by omega), if_neg (by omega), if_pos rfl] at h0
    rw [if_neg (by omega), if_pos rfl] at h1
    simp only [readRange, h0, h1]
  have hTrailer : readRange s.armed.outBuf (0 + (2 + s.outLen)) 1 = some [s.outSum + s.ctrl + byteOf s.outLen] := by
    have ht : readMem s.armed.outBuf (0 + (2 + s.outLen)) = _ := outRead_armed s (0 + (2 + s.outLen))
    rw [if_pos (Nat.zero_add _)] at ht
    simp only [readRange, ht]
  have hSum : s.outSum + s.ctrl + byteOf s.outLen = s.ctrl + byteOf s.outLen + sum8 p := by
    rw [hsum, BitVec.add_assoc, BitVec.add_comm]
  rw [show s.outLen + 3 = 2 + s.outLen + 1 by omega, readRange_add (readRange_add hHeader ((readRange_armed s).trans hp)) hTrailer, hSum,
    frameBytes, readRange_length hp]
  rfl

/-- In `Blocking`, between transfers, an armed frame stands ready to be sent. -/
theorem sending_armed {s : State} {p : List Byte} (hc : CodecInv s) (hb : s.cfg.transport = .blocking) (ht : s.tstate = .ready)
    (hp : readRange s.outBuf 2 s.outLen = some p) (hsum : sum8 p = s.outSum) :
    Sending s.armed (byteOf s.outLen) (frameBytes s.ctrl p) := by
  refine ⟨hb, rfl, ht, ?_, ?_⟩
  · rw [outRead_armed, if_neg (by omega), if_pos rfl]
  · rw [hc.toNat_lengthByte]
    exact readRange_armed_frame hp hsum

/-! ## A blocking FLUSH -/

/-- FLUSH of staged bytes in READY arms them, and then does what FLUSH does with an armed frame. -/
theorem exec_flush_staged {s u : State} (ha : Accepting s) (hp : s.pos = .idle) (hst : s.state = .ready) (h0 : 0 < s.outLen)
    (hl : s.outLen + 3 ≤ s.cfg.cOut) (h : exec .flush s.armed = .next (u.ret .unit)) (hu : u.pos = .idle) :
    exec .flush s = .next (u.ret .unit) := by
  have hd : drive .flushing s.armed = .ok u := drive_of_flush_returned ha hp (by simp [State.armed]) h hu
  rw [exec_flush_idle ha hp, driving_ok _ (drive_ready _ _ ha.1 hst), flushRest, if_pos h0, arm_ok s hl, andThen_ok, hd, toOutcome_ok,
    unitResult]

/-- Settles O30: FLUSH arms the staged bytes, whose frame its loop sends once per answer, and the RESET step ends the loop. -/
theorem blockingFlushResendsUntilAcknowledged : Obligations.BlockingFlushResendsUntilAcknowledged := by
  intro s p refusals rest ha hpos hb hst ht hctrl h0 hl hp hsum hx hne hk
  have hc : CodecInv s := ⟨hl, p, hp, hsum⟩
  have hnext : s.armed.nextState = .reset := if_neg (by rw [hctrl]; exact cfg_ctrl_ne s.cfg)
  have hsend := sending_armed hc hb ht hp hsum
  have hflush := flush_finishes_frame (s := s.armed) ha hpos hsend hx hne hk hnext
  refine ⟨_, exec_flush_staged ha hpos hst h0 hl hflush hpos, ?_, ?_⟩
  · rw [← hctrl]
    exact armedFrame_of_outBuf (by rw [staged_nil]; rfl)
  · simp [resetStepped, transmitted, State.armed, State.ret, hc.toNat_lengthByte, hctrl, cfg_ctrl_ne, hst, hpos]

/-! ## A blocking receive -/

/-- The session step in RECEIVE, in `Blocking` (41_session.md R114). -/
def frameReceived (l rest : List Byte) (s : State) : State :=
  { (receiveStarted s).readIn l rest with tCnt := 0, tstate := .ready, state := .event }

theorem sessionArm_received {s : State} {c n trailer : Byte} {p rest : List Byte} (hb : s.cfg.transport = .blocking)
    (ht : s.tstate = .ready) (hst : s.state = .receive) (hp : p.length = n.toNat) (hx : s.env.rx = c :: n :: p ++ trailer :: rest) :
    sessionArm s = .ok (frameReceived (c :: n :: p ++ [trailer]) rest s) := by
  rw [sessionArm_receive hst, receiveStep, receive_blocking hb ht hp hx]
  rfl

/-- Settles O32: the step reads header, payload and trailer in one transition, each byte stored where it fits. -/
theorem blockingReceiveStoresTheFrame : Obligations.BlockingReceiveStoresTheFrame := by
  intro s c n body rest ha hpos hb hst ht hx hlen
  obtain ⟨p, trailer, rfl⟩ : ∃ p trailer, body = p ++ [trailer] :=
    (List.eq_nil_or_concat' body).resolve_left (by rintro rfl; simp at hlen)
  have hp : p.length = n.toNat := by simpa using hlen
  have harm := sessionArm_received (rest := rest) hb ht hst hp (by simpa using hx)
  have hTotal := length_inboundFrame c trailer hp
  refine ⟨_, exec_step_ok ha hpos (isReady_blocking hb) harm, fun i hi hc => ?_, fun i hi => ?_, ?_⟩
  · exact (inRead_receiveStarted rest hp i).trans (if_pos ⟨hi, hc⟩)
  · exact (inRead_receiveStarted rest hp i).trans (if_neg (by omega))
  · simp only [frameReceived, State.readIn, receiveStarted, State.ret, hTotal, Nat.zero_add, ht, hpos]
    rfl

/-! ## A poll in five steps -/

/-- One blocking STEP at the head of a run, by the arm of the session table it takes. -/
theorem execAll_step {s t : State} {l : List Instr} (ha : Accepting s) (hp : s.pos = .idle) (hb : s.cfg.transport = .blocking)
    (h : sessionArm s = .ok t) : execAll (.step :: l) s = execAll l (t.ret .stepped) := by
  rw [execAll, exec_step_ok ha hp (isReady_blocking hb) h]

theorem readRange_nothing_staged {s : State} (h : s.outLen = 0) : readRange s.outBuf 2 s.outLen = some [] := by rw [h]; rfl

/-- With nothing staged the outbound fields agree (10_state.md R21, R22). -/
theorem codecInv_of_nothing_staged {s : State} (h : s.outLen = 0) (hsum : s.outSum = 0) : CodecInv s where
  room := by
    obtain ⟨hOut, _⟩ := cfg_cOut s.cfg
    omega
  sum := ⟨[], readRange_nothing_staged h, hsum.symm⟩

/-- Several operations returned, the last one leaving the host idle (10_state.md R18, R39(c)). -/
def delivered (l : List Result) (s : State) : State := { s with pos := .idle, out := { s.out with results := s.out.results ++ l } }

theorem delivered_delivered (l l' : List Result) (s : State) : delivered l' (delivered l s) = delivered (l ++ l') s := by
  simp [delivered]

/-- The poll's step where `POLL_PAYLOAD` is empty. -/
theorem sessionArm_polled {s : State} (hst : s.state = .ready) (hpay : s.cfg.pollPayload = []) (h : fits [] s) :
    sessionArm s = .ok (underResp s).armed := by
  rw [sessionArm_ready hst, pollStep_ok (by rw [hpay]; exact h), hpay, staged_nil]

/-- The EVENT step on the frame a blocking receive stored. -/
theorem sessionArm_received_event {s : State} {c n trailer : Byte} {p : List Byte} (rest : List Byte) (hp : p.length = n.toNat) :
    sessionArm (frameReceived (c :: n :: p ++ [trailer]) rest s) = .ok (frameDispatched c n p trailer rest s) := by
  have hOvf : (frameReceived (c :: n :: p ++ [trailer]) rest s).inOvf = decide (s.cfg.cIn < n.toNat + 3) := by
    simp only [frameReceived, State.readIn, length_inboundFrame c trailer hp, receiveStarted, Nat.zero_add]
  exact sessionArm_event_records rfl
    (eventRecords_received hp (fun i hi hc => (inRead_receiveStarted rest hp i).trans (if_pos ⟨hi, hc⟩)) hOvf)

/-- From RECEIVE, three blocking steps take in the reply, dispatch it and come to READY (41_session.md R114 to R116). -/
theorem execAll_receives_reply {s : State} {c n trailer : Byte} {p rest : List Byte} (ha : Accepting s) (hpos : s.pos = .idle)
    (hb : s.cfg.transport = .blocking) (ht : s.tstate = .ready) (hst : s.state = .receive) (hp : p.length = n.toNat)
    (hx : s.env.rx = c :: n :: p ++ trailer :: rest) :
    execAll [.step, .step, .step] s
      = .next (delivered [.stepped, .stepped, .stepped] (resetStepped (frameDispatched c n p trailer rest s))) := by
  have hEvent : sessionArm ((frameReceived (c :: n :: p ++ [trailer]) rest s).ret .stepped)
      = .ok ((frameDispatched c n p trailer rest s).ret .stepped) :=
    sessionArm_received_event (s := s.ret .stepped) rest hp
  rw [execAll_step ha hpos hb (sessionArm_received hb ht hst hp hx), execAll_step (by exact ha) rfl (by exact hb) hEvent,
    execAll_step (by exact ha) rfl (by exact hb) (sessionArm_resetStepped rfl)]
  show Host.Outcome.next (delivered [.stepped] (delivered [.stepped] (delivered [.stepped]
    (resetStepped (frameDispatched c n p trailer rest s))))) = _
  rw [delivered_delivered, delivered_delivered]
  rfl

/-- The state after a poll with nothing staged was acknowledged at once, the display's further answers being `rest` (41_session.md R113). -/
def pollSent (rest : List Byte) (s : State) : State :=
  transmitted (byteOf s.outLen) (frameBytes s.cfg.ctrlResp []) [] rest (underResp s).armed

theorem frameBytes_nil (c : Byte) : frameBytes c [] = [c, 0, c] := by simp [frameBytes]

/-- Settles O33: READY arms the poll, TRANSMIT sends it, RECEIVE stores the reply, EVENT emits its records, and RESET clears the frame. -/
theorem fiveStepsPollTheDisplay : Obligations.FiveStepsPollTheDisplay := by
  intro s c n trailer p rest ha hpos hb hpay hst ht hlen hsum hp hx
  have hc : CodecInv (underResp s) := codecInv_of_nothing_staged hlen hsum
  have hSend : Sending ((underResp s).armed.ret .stepped) (byteOf s.outLen) (frameBytes s.cfg.ctrlResp []) :=
    sending_armed hc hb ht (readRange_nothing_staged hlen) hsum.symm
  have hSent : sessionArm ((underResp s).armed.ret .stepped) = .ok ((pollSent (c :: n :: p ++ trailer :: rest) s).ret .stepped) :=
    sessionArm_transmitted (refusals := []) hSend hx (by simp) (by simp)
  have hNext : (underResp s).armed.nextState = .receive := if_pos rfl
  refine ⟨delivered [.stepped, .stepped, .stepped, .stepped, .stepped] (resetStepped (frameDispatched c n p trailer rest
    (pollSent (c :: n :: p ++ trailer :: rest) s))),
    ?run, rfl, rfl, ha.1, rfl, rfl, rfl, ⟨rfl, rfl, rfl⟩, rfl, rfl, ?bus, rfl⟩
  case run =>
    show execAll [.step, .step, .step, .step, .step] s = _
    rw [execAll_step ha hpos hb (sessionArm_polled hst hpay hc.room), execAll_step (by exact ha) rfl (by exact hb) hSent,
      execAll_receives_reply (c := c) (n := n) (p := p) (trailer := trailer) (rest := rest) (by exact ha) rfl (by exact hb) (by exact ht)
      (by exact congrArg NextState.session hNext) hp rfl]
    show Host.Outcome.next (delivered [.stepped, .stepped, .stepped] (delivered [.stepped] (delivered [.stepped]
      (resetStepped (frameDispatched c n p trailer rest (pollSent (c :: n :: p ++ trailer :: rest) s)))))) = _
    rw [delivered_delivered, delivered_delivered]
    rfl
  case bus =>
    rw [← frameBytes_nil, ← List.flatMap_singleton (attemptBus _ _) s.cfg.ack]
    rfl

end Sys2Proof.Machine
end

section
/-! SUPPORT. The state FLUSH returns in (41_session.md R119, R120), and O28. -/

namespace Sys2Proof.Machine

/-! ## No part of a driving loop delivers a result -/

/-- The results delivered so far are the same (10_state.md R39(c)). -/
def SameResults (s t : State) : Prop := t.out.results = s.out.results

theorem SameResults.trans {s t u : State} (h : SameResults s t) (g : SameResults t u) : SameResults s u := Eq.trans g h

theorem ends_sameResults_of {s t : State} {r : Res} (h : SameResults s t) (hr : r.ends (SameResults t)) : r.ends (SameResults s) :=
  ends_mono (fun _ => h.trans) hr

theorem TransportWrites.sameResults {s t : State} (h : TransportWrites s t) : SameResults s t := by
  unfold TransportWrites at h
  rw [SameResults, h]

theorem runTransfer_sameResults (n : Nat) (s : State) : (runTransfer n s).ends (SameResults s) :=
  have hstep (u : State) : (transportStep u).ends (SameResults u) := ends_mono (fun _ => TransportWrites.sameResults) (transportStep_writes u)
  runTransfer_ends (fun u hu _ => ends_sameResults_of hu (hstep u)) n s rfl

theorem transmit_sameResults (s : State) : (transmit s).ends (SameResults s) := by
  have hdraw : SameResults s (drawHandshakes s) := by rw [SameResults, drawHandshakes_writes s]
  unfold transmit
  split
  · exact rfl
  · refine ends_sameResults_of ?_ (runTransfer_sameResults _ _)
    split <;> exact hdraw

theorem receive_sameResults (s : State) : (receive s).ends (SameResults s) := by
  unfold receive
  split
  · exact rfl
  · refine ends_sameResults_of ?_ (runTransfer_sameResults _ _)
    split <;> exact rfl

theorem sessionArm_sameResults {s : State} (hs : s.state ≠ .ready) : (sessionArm s).ends (SameResults s) := by
  cases hst : s.state with
  | ready => exact absurd hst hs
  | transmit =>
    rw [sessionArm_transmit hst]
    exact ends_andThen (transmit_sameResults s) fun _ _ h => h
  | receive =>
    rw [sessionArm_receive hst]
    exact ends_andThen (receive_sameResults s) fun _ _ h => h
  | event =>
    rw [sessionArm_event hst, eventStep_eq_records]
    split
    · exact rfl
    · trivial
  | reset =>
    rw [sessionArm_reset hst]
    exact rfl

theorem sessionStep_sameResults {s : State} (hs : s.state ≠ .ready) : (sessionStep s).ends (SameResults s) := by
  unfold sessionStep
  split
  · exact sessionArm_sameResults hs
  · exact rfl

theorem driveLoop_sameResults (n : Nat) : ∀ s : State, (driveLoop n s).ends (SameResults s) := by
  induction n with
  | zero =>
    intro s
    unfold driveLoop
    split
    · exact rfl
    · split <;> exact rfl
  | succ n ih =>
    intro s
    unfold driveLoop
    split
    · exact rfl
    · split
      · exact rfl
      next hs => exact ends_andThen (sessionStep_sameResults hs) fun t _ ht => ends_sameResults_of ht (ih t)

theorem drive_sameResults (p : HostPos) (s : State) : (drive p s).ends (SameResults s) := by
  have h := driveLoop_sameResults (driveFuel s) s
  unfold drive
  cases hx : driveLoop (driveFuel s) s <;> rw [hx] at h <;> exact h

theorem outWrite_sameResults (i : Nat) (v : Byte) (s : State) : (outWrite i v s).ends (SameResults s) := by
  unfold outWrite
  split
  · exact rfl
  · trivial

theorem arm_sameResults (s : State) : (arm s).ends (SameResults s) := by
  have hfin : (finalize s).ends (SameResults s) :=
    ends_andThen (outWrite_sameResults _ _ s) fun t _ ht => ends_andThen (ends_sameResults_of ht (outWrite_sameResults _ _ t))
      fun u _ hu => ends_sameResults_of hu (outWrite_sameResults _ _ u)
  exact ends_andThen hfin fun _ _ h => h

/-! ## FLUSH -/

/-- A part and what follows it run to their end together. -/
theorem andThen_eq_ok_iff {r : Res} {k : State → Res} {t : State} : r.andThen k = .ok t ↔ ∃ u, r = .ok u ∧ k u = .ok t := by
  cases r <;> simp

theorem arm_ok_state {s t : State} (h : arm s = .ok t) : t.state = .transmit := by
  obtain ⟨u, _, hu⟩ := andThen_eq_ok_iff.1 h
  rw [← Res.ok.inj hu]

theorem flushBody_eq (p : HostPos) (s : State) : flushBody p s = (drive p s).andThen (flushRest p) := rfl

theorem flushBody_sameResults (p : HostPos) (s : State) : (flushBody p s).ends (SameResults s) := by
  refine ends_andThen (drive_sameResults p s) fun t _ ht => ends_sameResults_of ht ?_
  split
  · exact ends_andThen (arm_sameResults t) fun u _ hu => ends_sameResults_of hu (drive_sameResults p u)
  · exact rfl

/-- FLUSH's pseudocode ends in READY with nothing staged: it armed nothing, or the loop behind its arming ended in the RESET step
(41_session.md R116, R119). -/
theorem flushBody_ok {p : HostPos} {s t : State} (h : flushBody p s = .ok t) : t.state = .ready ∧ t.outLen = 0 := by
  obtain ⟨u, hdrive, hrest⟩ := andThen_eq_ok_iff.1 (flushBody_eq p s ▸ h)
  rw [flushRest] at hrest
  split at hrest
  next =>
    obtain ⟨v, harm, hloop⟩ := andThen_eq_ok_iff.1 hrest
    obtain ⟨hready, _⟩ := drive_ok _ _ _ hloop
    exact ⟨hready, (drive_ok_keeps hloop).2 (by simp [arm_ok_state harm])⟩
  next h0 =>
    obtain rfl := Res.ok.inj hrest
    exact ⟨(drive_ok _ _ _ hdrive).1, Nat.eq_zero_of_not_pos h0⟩

/-- Where `Unit` is the one result delivered, the body ran to its end. -/
theorem body_ok_of_unit {r : Res} {s t : State} (hr : r.ends (SameResults s)) (h : r.toOutcome unitResult = .next t)
    (hu : t.out.results = s.out.results ++ [.unit]) : ∃ u, r = .ok u ∧ t = u.ret .unit := by
  cases r with
  | ok u =>
    cases h
    exact ⟨u, rfl, rfl⟩
  | wait u =>
    cases h
    have hsame : t.out.results = s.out.results := hr
    simp [hsame] at hu
  | raised u =>
    cases h
    simp [show u.out.results = s.out.results from hr] at hu
  | stop f => cases h

/-- FLUSH returned `Unit`: its pseudocode ran to its end. -/
theorem flushBody_of_unit {s t : State} (h : exec .flush s = .next t) (hu : t.out.results = s.out.results ++ [.unit]) :
    ∃ u, flushBody .flushing s = .ok u ∧ t = u.ret .unit := by
  have h : execFlush s = .next t := h
  unfold execFlush at h
  split at h
  · exact body_ok_of_unit (flushBody_sameResults _ s) h hu
  · rcases hostOp_cases false true s unitResult (flushBody .flushing) with ⟨_, e⟩ | ⟨_, _, _, e⟩ | ⟨_, _, hno, _⟩ | ⟨_, _, _, e⟩
    · rw [e] at h
      cases h
      simp at hu
    · rw [e] at h
      cases h
      simp at hu
    · cases hno
    · exact body_ok_of_unit (flushBody_sameResults _ s) (e ▸ h) hu

/-- Settles O28: with nothing to drive and nothing to arm FLUSH only delivers its result; where it delivers `Unit` its body ran to its end. -/
theorem flushWithNothingStagedDoesNothing : Obligations.FlushWithNothingStagedDoesNothing := by
  refine ⟨fun s ha hp hst h0 => ?_, fun s t h hu => ?_⟩
  · rw [exec_flush_idle ha hp, driving_ok _ (drive_ready _ _ ha.1 hst), flushRest_nothing _ h0, toOutcome_ok, unitResult]
  · obtain ⟨u, hbody, rfl⟩ := flushBody_of_unit h hu
    exact flushBody_ok (t := u) hbody

end Sys2Proof.Machine
end

section
/-! SUPPORT. A blocking FLUSH refused up to the retry ceiling (42_transport.md R140, R142), and O31. -/

namespace Sys2Proof.Machine

/-- In `Blocking` a session step that raises ends the loop around it. -/
theorem drive_blocking_raised {s t : State} (p : HostPos) (hb : s.cfg.transport = .blocking) (hf : s.fault = .none) (hs : s.state ≠ .ready)
    (h : sessionArm s = .raised t) : drive p s = .raised t := by
  rw [drive_blocking p hb hf hs, h, at_raised, andThen_raised]

/-- Settles O31: FLUSH arms the staged bytes, and the transmit of its loop counts one refusal more than the ceiling allows. -/
theorem blockingFlushFaultsAtTheRetryCeiling : Obligations.BlockingFlushFaultsAtTheRetryCeiling := by
  intro s p refusals rest k ha hpos hb hst ht h0 hl hp hsum hx hne hk hlen
  obtain ⟨earlier, last, rfl⟩ : ∃ earlier last, refusals = earlier ++ [last] :=
    (List.eq_nil_or_concat' refusals).resolve_left (by rintro rfl; simp at hlen)
  have hsend := sending_armed ⟨hl, p, hp, hsum⟩ hb ht hp hsum
  have harm := sessionArm_refused (s := s.armed) ha.1 hsend (by simpa [State.armed] using hx)
    (fun b hmem => hne b (by simp [hmem])) (hne last (by simp)) hk (by simpa using hlen)
  have hloop := drive_blocking_raised .flushing (s := s.armed) hb ha.1 (by simp [State.armed]) harm
  have hflush := exec_flush_idle ha hpos
  rw [driving_ok _ (drive_ready _ _ ha.1 hst), flushRest, if_pos h0, arm_ok s hl, andThen_ok, hloop, toOutcome_raised] at hflush
  exact ⟨_, hflush, rfl, rfl, rfl, rfl, rfl, rfl⟩

end Sys2Proof.Machine
end

section
/-! SUPPORT. One delivered tick, by the transport state it is taken in (42_transport.md R129 to R138), O34 and O35. -/

namespace Sys2Proof.Machine

/-! ## Delivered and masked ticks -/

theorem tickDelivered_iff (s : State) : tickDelivered s = true ↔ s.cfg.transport = .tick ∧ s.tickEn = true ∧ s.fault = .none := by
  simp [tickDelivered, running, and_assoc]

theorem exec_tick_ok {s t : State} (hd : tickDelivered s = true) (h : transportStep s = .ok t) :
    exec .tick s = .next (t.logBus (.cs t.cs)) := execTick_delivered hd h

theorem exec_tick_raised {s t : State} (hd : tickDelivered s = true) (h : transportStep s = .raised t) :
    exec .tick s = .next (t.logBus (.cs t.cs)) := by
  show execTick s = _
  rw [execTick, hd, transition_enabled, h]
  rfl

theorem exec_tick_masked {s : State} (hd : tickDelivered s = false) : exec .tick s = .next s := by
  show execTick s = _
  rw [execTick, hd, transition_disabled]

/-! ## The ticks of a transmit -/

section
variable {s : State}

theorem transportStep_start {n : Byte} (hv : s.cfg.transport = .tick) (hst : s.tstate = .start) (hn : outRead s 1 = some n) :
    transportStep s = .ok { s with cs := true, tIdx := 0, tCnt := n.toNat + 3, tstate := .send } := by
  simp only [transportStep, hst, tickStart, hn, setCs_tick true hv]

theorem transportStep_send {b : Byte} (hst : s.tstate = .send) (hc : 0 < s.tCnt) (hb : outRead s s.tIdx = some b) :
    transportStep s = .ok ({ s with tIdx := s.tIdx + 1, tCnt := s.tCnt - 1 }.logBus (.tx b)) := by
  simp only [transportStep, hst, tickSend, if_pos hc, hb, busTx_eq, State.logBus]

theorem transportStep_settle (hv : s.cfg.transport = .tick) (hst : s.tstate = .send) (hc : s.tCnt = 0) :
    transportStep s = .ok { s with cs := false, tWait := s.cfg.waitTicks, tstate := .wait } := by
  simp only [transportStep, hst, tickSend, hc, Nat.lt_irrefl, if_false, setCs_tick false hv]

theorem transportStep_wait (hst : s.tstate = .wait) (hw : 0 < s.tWait) : transportStep s = .ok { s with tWait := s.tWait - 1 } := by
  simp only [transportStep, hst, tickWait, if_pos hw]

theorem transportStep_answer {b : Byte} {e : Env} (hv : s.cfg.transport = .tick) (hst : s.tstate = .wait) (hw : s.tWait = 0)
    (hd : drawByte s.env = (b, e)) :
    transportStep s = .ok ({ s with cs := true, tAck := b, tstate := .receiveAck, env := e }.logBus (.rx s.cfg.dummyTx b)) := by
  simp only [transportStep, hst, tickWait, hw, Nat.lt_irrefl, if_false, setCs_tick true hv, busRx, hd]
  rfl

theorem transportStep_acknowledged (hst : s.tstate = .receiveAck) (ha : s.tAck = s.cfg.ack) :
    transportStep s = .ok { s with tstate := .ready } := by
  simp only [transportStep, hst, tickReceiveAck, if_pos ha, handshakeAck]

theorem transportStep_resend (hv : s.cfg.transport = .tick) (hst : s.tstate = .receiveAck) (ha : s.tAck ≠ s.cfg.ack)
    (hk : ∀ k, s.cfg.retryLimit = some k → s.tRetries + 1 ≤ k) :
    transportStep s = .ok { s with cs := false, tRetries := s.tRetries + 1, tstate := .start } := by
  simp only [transportStep, hst, tickReceiveAck, if_neg ha, handshakeNak, setCs_tick false hv, (overLimit_eq_false_iff _ _).2 hk,
    Bool.false_eq_true, if_false]

theorem transportStep_ceiling {k : Nat} (hv : s.cfg.transport = .tick) (hf : s.fault = .none) (hst : s.tstate = .receiveAck)
    (ha : s.tAck ≠ s.cfg.ack) (hk : s.cfg.retryLimit = some k) (hlt : k < s.tRetries + 1) :
    transportStep s = .raised { s with cs := false, tRetries := s.tRetries + 1, fault := .retryLimit } := by
  simp only [transportStep, hst, tickReceiveAck, if_neg ha, handshakeNak, setCs_tick false hv, hk, overLimit_some_of_lt hlt, if_true]
  exact raise_running _ _ hf

end

/-- Settles O34: each tick is delivered, and is the transport step of its state. -/
theorem transmitTicksFollowTheSchedule : Obligations.TransmitTicksFollowTheSchedule := by
  intro s hv he hf
  have hd : tickDelivered s = true := (tickDelivered_iff s).2 ⟨hv, he, hf⟩
  refine ⟨?start, ?send, ?settle, ?wait, ?answer, ?acknowledged, ?resend, ?ceiling⟩
  case start => exact fun n hst hn => exec_tick_ok hd (transportStep_start hv hst hn)
  case send => exact fun b hst hc hb => exec_tick_ok hd (transportStep_send hst hc hb)
  case settle => exact fun hst hc => exec_tick_ok hd (transportStep_settle hv hst hc)
  case wait => exact fun hst hw => exec_tick_ok hd (transportStep_wait hst hw)
  case answer => exact fun b e hst hw hb => exec_tick_ok hd (transportStep_answer hv hst hw hb)
  case acknowledged => exact fun hst ha => exec_tick_ok hd (transportStep_acknowledged hst ha)
  case resend => exact fun hst ha hk => exec_tick_ok hd (transportStep_resend hv hst ha hk)
  case ceiling => exact fun k hst ha hk hlt => exec_tick_raised hd (transportStep_ceiling hv hf hst ha hk hlt)

/-! ## The ticks of a receive -/

section
variable {s : State}

theorem transportStep_receive (hv : s.cfg.transport = .tick) (hst : s.tstate = .receive) :
    transportStep s = .ok { s with cs := true, tIdx := 0, tCnt := 2, tstate := .receiveHeader } := by
  simp only [transportStep, hst, tickReceive, setCs_tick true hv]

theorem transportStep_ready (hv : s.cfg.transport = .tick) (hst : s.tstate = .ready) :
    transportStep s = .ok { s with tickEn := false, cs := false } := by
  simp only [transportStep, hst, tickReady, setCs_tick false hv]

/-- A byte of a receive, the countdown and the next transport state chosen behind it (42_transport.md R135, R136). -/
def received (cnt : Nat) (ts : TransportState) (s : State) : State := { rxByte s with tCnt := cnt, tstate := ts }

theorem rxByte_eq_received (s : State) : rxByte s = received (s.tCnt - 1) s.tstate s := by
  rw [received, ← rxByte_tCnt, ← rxByte_tstate]

theorem transportStep_header_more (hst : s.tstate = .receiveHeader) (hc : 1 < s.tCnt) :
    transportStep s = .ok (received (s.tCnt - 1) .receiveHeader s) := by
  simp only [transportStep, hst, tickReceiveHeader, rxByte_tCnt]
  rw [if_neg (by omega), rxByte_eq_received, hst]

/-- The length byte is found where the header's last tick stored it, since every buffer holds the header (00_scope.md R7). -/
theorem transportStep_header_end {b : Byte} {e : Env} (hst : s.tstate = .receiveHeader) (hc : s.tCnt = 1) (hi : s.tIdx = 1)
    (hd : drawByte s.env = (b, e)) : transportStep s = .ok (received (b.toNat + 1) .receivePayload s) := by
  have hcap := cfg_cIn s.cfg
  have hlen : inRead (rxByte s) 1 = some b := by rw [inRead_rxByte, if_pos (by omega), hd]
  simp only [transportStep, hst, tickReceiveHeader, rxByte_tCnt, hc, Nat.sub_self, if_true, hlen]
  rfl

theorem transportStep_payload_more (hst : s.tstate = .receivePayload) (hc : 1 < s.tCnt) :
    transportStep s = .ok (received (s.tCnt - 1) .receivePayload s) := by
  simp only [transportStep, hst, tickReceivePayload, rxByte_tCnt]
  rw [if_neg (by omega), rxByte_eq_received, hst]

theorem transportStep_payload_end (hst : s.tstate = .receivePayload) (hc : s.tCnt = 1) :
    transportStep s = .ok (received 0 .ready s) := by
  have h0 : (rxByte s).tCnt = 0 := by rw [rxByte_tCnt, hc]
  simp only [transportStep, hst, tickReceivePayload, if_pos h0]
  rw [received, ← h0]

/-- The tick that takes in a byte leaves the state R135 to R137 say. -/
theorem receivedByte_received {b : Byte} {e : Env} (cnt : Nat) (ts : TransportState) (hd : drawByte s.env = (b, e)) :
    ReceivedByte b e cnt ts s ((received cnt ts s).logBus (.cs (received cnt ts s).cs)) := by
  have hbuf : ∀ i, inRead ((received cnt ts s).logBus (.cs (received cnt ts s).cs)) i
      = if i = s.tIdx ∧ s.tIdx < s.cfg.cIn then some b else inRead s i := fun i => by
    have h := inRead_rxByte s i
    rw [hd] at h
    rw [inRead, logBus_inBuf, show (received cnt ts s).inBuf = (rxByte s).inBuf from rfl]
    exact h
  refine ⟨fun hc => (hbuf _).trans (if_pos ⟨rfl, hc⟩), fun i hi => (hbuf i).trans (if_neg (by omega)), ?_⟩
  rw [received, rxByte_eq s b e hd, State.logBus]
  simp

/-- A delivered tick that takes in a byte. -/
theorem exec_tick_received {b : Byte} {e : Env} {cnt : Nat} {ts : TransportState} (hd : tickDelivered s = true)
    (hb : drawByte s.env = (b, e)) (h : transportStep s = .ok (received cnt ts s)) :
    ∃ t, exec .tick s = .next t ∧ ReceivedByte b e cnt ts s t :=
  ⟨_, exec_tick_ok hd h, receivedByte_received cnt ts hb⟩

end

/-- Settles O35: each tick is delivered, and is the transport step of its state. -/
theorem receiveTicksFollowTheSchedule : Obligations.ReceiveTicksFollowTheSchedule := by
  intro s hv he hf
  have hd : tickDelivered s = true := (tickDelivered_iff s).2 ⟨hv, he, hf⟩
  refine ⟨?receive, ?ready, ?headerMore, ?headerEnd, ?payloadMore, ?payloadEnd⟩
  case receive => exact fun hst => exec_tick_ok hd (transportStep_receive hv hst)
  case ready => exact fun hst => exec_tick_ok hd (transportStep_ready hv hst)
  case headerMore => exact fun b e hst hc hb => exec_tick_received hd hb (transportStep_header_more hst hc)
  case headerEnd => exact fun b e hst hc hi hb => exec_tick_received hd hb (transportStep_header_end hst hc hi hb)
  case payloadMore => exact fun b e hst hc hb => exec_tick_received hd hb (transportStep_payload_more hst hc)
  case payloadEnd => exact fun b e hst hc hb => exec_tick_received hd hb (transportStep_payload_end hst hc)

end Sys2Proof.Machine
end

section
/-! SUPPORT. Runs of ticks: how they split, what they write, and that ticks still delivered were not taken in `T_READY` (42_transport.md R129,
R138, R141), and O39. -/

namespace Sys2Proof.Machine

/-! ## Runs of ticks -/

theorem ticks_succ {s t : State} (k : Nat) (h : exec .tick s = .next t) : ticks (k + 1) s = ticks k t := by
  simp only [ticks, h]

theorem ticks_one (s : State) : ticks 1 s = exec .tick s := by
  unfold ticks
  split <;> next h => exact h.symm

/-- The first of several ticks, and the others. -/
theorem ticks_succ_next {k : Nat} {s t : State} (h : ticks (k + 1) s = .next t) : ∃ u, exec .tick s = .next u ∧ ticks k u = .next t := by
  cases hu : exec .tick s with
  | next u => exact ⟨u, rfl, (ticks_succ k hu).symm.trans h⟩
  | fault f => simp [ticks, hu] at h
  | refused r => simp [ticks, hu] at h

theorem ticks_add_next {k : Nat} (j : Nat) : ∀ {s t : State}, ticks (j + k) s = .next t → ∃ u, ticks j s = .next u ∧ ticks k u = .next t := by
  induction j with
  | zero => exact fun {s t} h => ⟨s, rfl, by rwa [Nat.zero_add] at h⟩
  | succ j ih =>
    intro s t h
    rw [Nat.succ_add] at h
    obtain ⟨v, hv, hrest⟩ := ticks_succ_next h
    obtain ⟨u, hu, ht⟩ := ih hrest
    exact ⟨u, (ticks_succ j hv).trans hu, ht⟩

/-- A delivered tick that neither raises nor stops. -/
theorem ticks_transportStep {s t : State} (k : Nat) (hd : tickDelivered s = true) (h : transportStep s = .ok t) :
    ticks (k + 1) s = ticks k (t.logBus (.cs t.cs)) :=
  ticks_succ k (exec_tick_ok hd h)

theorem ticks_masked (k : Nat) {s : State} (hd : tickDelivered s = false) : ticks k s = .next s := by
  induction k with
  | zero => rfl
  | succ k ih => rw [ticks_succ k (exec_tick_masked hd), ih]

/-- A tick in `T_READY` leaves the tick source masked (42_transport.md R138). -/
theorem ticks_after_ready {k : Nat} {s t : State} (hs : s.tstate = .ready) (h : ticks (k + 1) s = .next t) : tickDelivered t = false := by
  cases hd : tickDelivered s with
  | true =>
    obtain ⟨hv, -, -⟩ := (tickDelivered_iff s).1 hd
    rw [ticks_transportStep k hd (transportStep_ready hv hs), ticks_masked k (by simp [tickDelivered])] at h
    cases h
    simp [tickDelivered]
  | false =>
    rw [ticks_masked _ hd] at h
    cases h
    exact hd

/-- Where ticks are still delivered, no tick before was taken in `T_READY`. -/
theorem ticks_busy_before {n k : Nat} {s t : State} (h : ticks n s = .next t) (hd : tickDelivered t = true) (hk : k < n) :
    ∃ u, ticks k s = .next u ∧ u.tstate ≠ .ready := by
  obtain ⟨j, rfl⟩ : ∃ j, n = k + (j + 1) := ⟨n - k - 1, by omega⟩
  obtain ⟨u, hu, ht⟩ := ticks_add_next k h
  exact ⟨u, hu, fun hr => by simp [ticks_after_ready hr ht] at hd⟩

/-! ## What ticks write -/

theorem exec_tick_writes {s t : State} (h : exec .tick s = .next t) : TransportWrites s t := by
  cases hd : tickDelivered s with
  | true =>
    have hw := transportStep_writes s
    have h : execTick s = .next t := h
    rw [execTick, hd, transition_enabled] at h
    cases hx : transportStep s <;> rw [hx] at h hw <;> cases h <;> exact TransportWrites.trans hw rfl
  | false =>
    rw [exec_tick_masked hd] at h
    cases h
    rfl

theorem ticks_writes (k : Nat) : ∀ {s t : State}, ticks k s = .next t → TransportWrites s t := by
  induction k with
  | zero =>
    intro s t h
    cases h
    rfl
  | succ k ih =>
    intro s t h
    obtain ⟨u, hu, ht⟩ := ticks_succ_next h
    exact (exec_tick_writes hu).trans (ih ht)

/-- Settles O39: every tick keeps within what the transport writes, and so does a run of them. -/
theorem ticksLeaveTheFrameAndTheSession : Obligations.TicksLeaveTheFrameAndTheSession :=
  fun k _ _ h => ticks_writes k h

end Sys2Proof.Machine
end

section
/-! SUPPORT. The ticks of one attempt of a transmit (42_transport.md R130 to R133, R139), and O37. -/

namespace Sys2Proof.Machine

/-! ## The wire -/

@[simp] theorem wireLog_nil : wireLog [] = [] := rfl
@[simp] theorem wireLog_cs (v : Bool) (l : List BusRecord) : wireLog (.cs v :: l) = wireLog l := rfl
@[simp] theorem wireLog_tx (b : Byte) (l : List BusRecord) : wireLog (.tx b :: l) = .tx b :: wireLog l := rfl
@[simp] theorem wireLog_rx (d b : Byte) (l : List BusRecord) : wireLog (.rx d b :: l) = .rx d b :: wireLog l := rfl
@[simp] theorem wireLog_append (l l' : List BusRecord) : wireLog (l ++ l') = wireLog l ++ wireLog l' := List.filter_append _ _

/-- The bytes sent, and the line behind each (42_transport.md R131, 10_state.md R39). -/
def sentLog (v : Bool) (l : List Byte) : List BusRecord := l.flatMap fun b => [.tx b, .cs v]

@[simp] theorem wireLog_sentLog (v : Bool) (l : List Byte) : wireLog (sentLog v l) = l.map .tx := by
  induction l with
  | nil => rfl
  | cons b r ih => simpa [sentLog] using ih

@[simp] theorem wireLog_replicate_cs (v : Bool) (w : Nat) : wireLog (List.replicate w (.cs v)) = [] := by
  induction w with
  | zero => rfl
  | succ w ih => simpa [List.replicate_succ] using ih

/-! ## One attempt -/

/-- The bytes `l` sent in `T_SEND` (42_transport.md R131). -/
def State.sent (l : List Byte) (s : State) : State :=
  { s with tIdx := s.tIdx + l.length, tCnt := s.tCnt - l.length, out := { s.out with bus := s.out.bus ++ sentLog s.cs l } }

@[simp] theorem sent_nil (s : State) : s.sent [] = s := by simp [State.sent, sentLog]

theorem sent_cons (b : Byte) (l : List Byte) (s : State) :
    (({ s with tIdx := s.tIdx + 1, tCnt := s.tCnt - 1 }.logBus (.tx b)).logBus (.cs s.cs)).sent l = s.sent (b :: l) := by
  simp [State.sent, State.logBus, sentLog, Nat.add_assoc, Nat.add_comm 1, Nat.sub_sub]

theorem ticks_send (m : Nat) (l : List Byte) : ∀ {s : State}, tickDelivered s = true → s.tstate = .send → s.tCnt = l.length →
    readRange s.outBuf s.tIdx l.length = some l → ticks (l.length + m) s = ticks m (s.sent l) := by
  induction l with
  | nil => exact fun {s} _ _ _ _ => by rw [sent_nil, List.length_nil, Nat.zero_add]
  | cons b r ih =>
    intro s hd hst hc hl
    rw [List.length_cons] at hc hl
    obtain ⟨hb, hr⟩ := readRange_cons hl
    rw [List.length_cons, Nat.add_right_comm, ticks_transportStep _ hd (transportStep_send hst (by omega) hb), ← sent_cons]
    exact ih hd hst (by simp [hc]) hr

/-- `w` settle ticks taken in `T_WAIT` (42_transport.md R132). -/
def State.settled (w : Nat) (s : State) : State :=
  { s with tWait := s.tWait - w, out := { s.out with bus := s.out.bus ++ List.replicate w (.cs s.cs) } }

@[simp] theorem settled_zero (s : State) : s.settled 0 = s := by simp [State.settled]

theorem settled_succ (w : Nat) (s : State) : ({ s with tWait := s.tWait - 1 }.logBus (.cs s.cs)).settled w = s.settled (w + 1) := by
  simp [State.settled, State.logBus, List.replicate_succ, Nat.sub_sub, Nat.add_comm 1]

theorem ticks_wait (m w : Nat) : ∀ {s : State}, tickDelivered s = true → s.tstate = .wait → s.tWait = w →
    ticks (w + m) s = ticks m (s.settled w) := by
  induction w with
  | zero => exact fun {s} _ _ _ => by rw [settled_zero, Nat.zero_add]
  | succ w ih =>
    intro s hd hst hw
    rw [Nat.add_right_comm, ticks_transportStep _ hd (transportStep_wait hst (by omega)), ← settled_succ]
    exact ih hd hst (by simp [hw])

/-- Where `T_START` leaves a transmit (42_transport.md R130). -/
def sendStarted (n : Byte) (s : State) : State :=
  { s with cs := true, tIdx := 0, tCnt := n.toNat + 3, tstate := .send }.logBus (.cs true)

/-- A whole frame sent, and the settle count loaded (42_transport.md R130, R131). -/
def frameSent (frame : List Byte) (s : State) : State :=
  { s with
    cs := false
    tIdx := frame.length
    tCnt := 0
    tWait := s.cfg.waitTicks
    tstate := .wait
    out := { s.out with bus := s.out.bus ++ .cs true :: sentLog true frame ++ [.cs false] } }

theorem ticks_frameSent {s : State} {n : Byte} {frame : List Byte} (m : Nat) (hd : tickDelivered s = true) (hst : s.tstate = .start)
    (hn : outRead s 1 = some n) (hf : readRange s.outBuf 0 (n.toNat + 3) = some frame) :
    ticks (n.toNat + 5 + m) s = ticks m (frameSent frame s) := by
  obtain ⟨hv, -, -⟩ := (tickDelivered_iff s).1 hd
  have hl : frame.length = n.toNat + 3 := readRange_length hf
  have hcount : ((sendStarted n s).sent frame).tCnt = 0 := by simp [State.sent, sendStarted, hl]
  calc ticks (n.toNat + 5 + m) s
      = ticks (frame.length + (m + 1) + 1) s := by congr 1; omega
    _ = ticks (frame.length + (m + 1)) (sendStarted n s) := ticks_transportStep _ hd (transportStep_start hv hst hn)
    _ = ticks (m + 1) ((sendStarted n s).sent frame) := ticks_send _ frame hd rfl hl.symm (by rw [hl]; exact hf)
    _ = ticks m (frameSent frame s) := by
      rw [ticks_transportStep _ (by exact hd) (transportStep_settle (by exact hv) rfl hcount)]
      simp [State.logBus, State.sent, sendStarted, frameSent, hl]

/-- The settle ticks run down, and the handshake byte read into `s.t_ack` (42_transport.md R132). -/
def answered (b : Byte) (e : Env) (s : State) : State :=
  { s with
    cs := true
    tWait := 0
    tAck := b
    tstate := .receiveAck
    env := e
    out := { s.out with bus := s.out.bus ++ List.replicate s.tWait (.cs s.cs) ++ [.rx s.cfg.dummyTx b, .cs true] } }

theorem ticks_answered {s : State} {b : Byte} {e : Env} (m : Nat) (hd : tickDelivered s = true) (hst : s.tstate = .wait)
    (hb : drawByte s.env = (b, e)) : ticks (s.tWait + 1 + m) s = ticks m (answered b e s) := by
  obtain ⟨hv, -, -⟩ := (tickDelivered_iff s).1 hd
  calc ticks (s.tWait + 1 + m) s
      = ticks (s.tWait + (m + 1)) s := by congr 1; omega
    _ = ticks (m + 1) (s.settled s.tWait) := ticks_wait _ _ hd hst rfl
    _ = ticks m (answered b e s) := by
      rw [ticks_transportStep _ (by exact hd) (transportStep_answer (by exact hv) (by exact hst) (Nat.sub_self s.tWait) (by exact hb))]
      simp [State.logBus, State.settled, answered]

/-- One attempt up to the decision of its handshake byte, which `T_RECEIVE_ACK` holds. -/
def handshakeRead (frame : List Byte) (b : Byte) (e : Env) (s : State) : State := answered b e (frameSent frame s)

theorem ticks_attempt {s : State} {n b : Byte} {frame : List Byte} {e : Env} (m : Nat) (hd : tickDelivered s = true) (hst : s.tstate = .start)
    (hn : outRead s 1 = some n) (hf : readRange s.outBuf 0 (n.toNat + 3) = some frame) (hb : drawByte s.env = (b, e)) :
    ticks (n.toNat + 6 + s.cfg.waitTicks + m) s = ticks m (handshakeRead frame b e s) :=
  calc ticks (n.toNat + 6 + s.cfg.waitTicks + m) s
      = ticks (n.toNat + 5 + (s.cfg.waitTicks + 1 + m)) s := by congr 1; omega
    _ = ticks (s.cfg.waitTicks + 1 + m) (frameSent frame s) := ticks_frameSent _ hd hst hn hf
    _ = ticks m (handshakeRead frame b e s) := ticks_answered (s := frameSent frame s) m hd rfl hb

theorem wireLog_handshakeRead (frame : List Byte) (b : Byte) (e : Env) (s : State) :
    wireLog (handshakeRead frame b e s).out.bus = wireLog s.out.bus ++ attemptBus frame s.cfg.dummyTx b := by
  simp [handshakeRead, answered, frameSent, attemptBus]

/-- Settles O37: `L + 6 + WAIT_TICKS` ticks lead to `T_RECEIVE_ACK`, and one more decides. -/
theorem transmitTakesItsTicks : Obligations.TransmitTakesItsTicks := by
  intro s n frame b e hv he hf hst hn hframe hb
  have hd : tickDelivered s = true := (tickDelivered_iff s).2 ⟨hv, he, hf⟩
  have hattempt := fun m => ticks_attempt m hd hst hn hframe hb
  have hdecide : ticks (n.toNat + 7 + s.cfg.waitTicks) s = ticks 1 (handshakeRead frame b e s) := by
    rw [← hattempt 1]
    congr 1
    omega
  refine ⟨fun k hk => ?_, fun hack => ?_, fun hnak hlimit => ?_⟩
  · by_cases hlast : k = n.toNat + 6 + s.cfg.waitTicks
    · exact ⟨_, hlast ▸ hattempt 0, by simp [handshakeRead, answered]⟩
    · exact ticks_busy_before (hattempt 0) (by exact hd) (by omega)
  · have hready := exec_tick_ok (s := handshakeRead frame b e s) hd (transportStep_acknowledged rfl hack)
    refine ⟨_, _, (hdecide.trans (ticks_one _)).trans hready, rfl, rfl, he, rfl, rfl, ?_,
      exec_tick_ok (by exact hd) (transportStep_ready (by exact hv) rfl), rfl, rfl, rfl⟩
    simp [wireLog_handshakeRead]
  · have hagain := exec_tick_ok (s := handshakeRead frame b e s) hd (transportStep_resend hv rfl hnak hlimit)
    refine ⟨_, (hdecide.trans (ticks_one _)).trans hagain, rfl, rfl, he, rfl, rfl, rfl, hf, ?_⟩
    simp [wireLog_handshakeRead]

end Sys2Proof.Machine
end

section
/-! SUPPORT. The ticks of a receive (42_transport.md R134 to R137, R139), and O38. -/

namespace Sys2Proof.Machine

/-- The bytes read, and the line behind each (42_transport.md R135, 10_state.md R39). -/
def readLog (dummy : Byte) (v : Bool) (l : List Byte) : List BusRecord := l.flatMap fun b => [.rx dummy b, .cs v]

@[simp] theorem wireLog_readLog (d : Byte) (v : Bool) (l : List Byte) : wireLog (readLog d v l) = l.map (.rx d) := by
  induction l with
  | nil => rfl
  | cons b r ih => simpa [readLog] using ih

/-- The bytes `l` read in by ticks: as in one transition (`State.readIn`), with the line behind every byte in the bus log. -/
def State.tickedIn (l rest : List Byte) (s : State) : State :=
  { s.readIn l rest with out := { s.out with bus := s.out.bus ++ readLog s.cfg.dummyTx s.cs l } }

theorem tickedIn_one (b : Byte) (rest : List Byte) (s : State) : (s.readIn [b] rest).logBus (.cs s.cs) = s.tickedIn [b] rest := by
  simp [State.tickedIn, State.logBus, State.readIn, readLog]

theorem inboundCounted_tickedIn (l rest : List Byte) (s : State) : InboundCounted (s.tickedIn l rest) := ⟨rfl, rfl⟩

theorem inRead_tickedIn (l rest : List Byte) (s : State) (i : Nat) : inRead (s.tickedIn l rest) i
    = if s.tIdx ≤ i ∧ i < s.tIdx + l.length ∧ i < s.cfg.cIn then l[i - s.tIdx]? else inRead s i :=
  inRead_readIn l rest s i

theorem tickedIn_tickedIn (l l' r rest : List Byte) (s : State) : (s.tickedIn l r).tickedIn l' rest = s.tickedIn (l ++ l') rest := by
  have hlog : s.out.bus ++ readLog s.cfg.dummyTx s.cs l ++ readLog s.cfg.dummyTx s.cs l'
      = s.out.bus ++ readLog s.cfg.dummyTx s.cs (l ++ l') := by simp [readLog]
  calc (s.tickedIn l r).tickedIn l' rest
      = { (s.readIn l r).readIn l' rest with
          out := { s.out with bus := s.out.bus ++ readLog s.cfg.dummyTx s.cs l ++ readLog s.cfg.dummyTx s.cs l' } } := rfl
    _ = s.tickedIn (l ++ l') rest := by rw [readIn_readIn, hlog, State.tickedIn]

/-- The ticks of `T_RECEIVE_PAYLOAD` up to the trailer, behind which the transport is ready (42_transport.md R136). -/
theorem ticks_payload (l : List Byte) : ∀ {s : State} {rest : List Byte}, l ≠ [] → tickDelivered s = true → s.tstate = .receivePayload →
    s.tCnt = l.length → InboundCounted s → s.env.rx = l ++ rest → ticks l.length s = .next { s.tickedIn l rest with tstate := .ready } := by
  induction l with
  | nil => exact fun h => absurd rfl h
  | cons b r ih =>
    intro s rest _ hd hst hc hi hx
    have hstep := transportStep_payload (rest := r ++ rest) hst hi hx
    rw [List.length_cons] at hc ⊢
    by_cases hr : r = []
    · subst hr
      rw [if_pos (by simp [hc])] at hstep
      rw [ticks_transportStep _ hd hstep, ← tickedIn_one]
      rfl
    · rw [if_neg (by simpa [hc] using hr)] at hstep
      have hrest := ih (s := s.tickedIn [b] (r ++ rest)) (rest := rest) hr hd hst (by simp [State.tickedIn, State.readIn, hc])
        (inboundCounted_tickedIn _ _ _) rfl
      rw [tickedIn_tickedIn, List.singleton_append, ← tickedIn_one] at hrest
      exact (ticks_transportStep _ hd hstep).trans hrest

/-- Where `T_RECEIVE` leaves a receive in `Tick` (42_transport.md R134). -/
def headerStarted (s : State) : State := { s with cs := true, tIdx := 0, tCnt := 2, tstate := .receiveHeader }.logBus (.cs true)

/-- Where the length byte of the header leaves a receive: the payload and the trailer are still to come (42_transport.md R135). -/
def payloadStarted (n : Byte) (s : State) : State := { s with tCnt := n.toNat + 1, tstate := .receivePayload }

/-- The ticks of a whole receive. -/
theorem ticks_receive {s : State} {c n : Byte} {body rest : List Byte} (hd : tickDelivered s = true) (hst : s.tstate = .receive)
    (hl : s.inLen = 0) (ho : s.inOvf = false) (hx : s.env.rx = c :: n :: body ++ rest) (hlen : body.length = n.toNat + 1) :
    ticks (n.toNat + 4) s = .next { (headerStarted s).tickedIn (c :: n :: body) rest with tCnt := 0, tstate := .ready } := by
  obtain ⟨hv, -, -⟩ := (tickDelivered_iff s).1 hd
  have hcounted : InboundCounted (headerStarted s) := ⟨by simp [headerStarted, hl], by simp [headerStarted, ho]⟩
  have hfirst := transportStep_header_first (s := headerStarted s) (rest := n :: (body ++ rest)) rfl rfl hcounted hx
  have hlast := transportStep_header_last (s := (headerStarted s).tickedIn [c] (n :: (body ++ rest))) (rest := body ++ rest) rfl rfl rfl
    (inboundCounted_tickedIn _ _ _) rfl
  have hbody : body ≠ [] := by rintro rfl; simp at hlen
  calc ticks (n.toNat + 4) s
      = ticks (body.length + 2) (headerStarted s) := by
        rw [hlen]
        exact ticks_transportStep _ hd (transportStep_receive hv hst)
    _ = ticks (body.length + 1) ((headerStarted s).tickedIn [c] (n :: (body ++ rest))) := by
      rw [← tickedIn_one]
      exact ticks_transportStep _ hd hfirst
    _ = ticks body.length (payloadStarted n ((headerStarted s).tickedIn [c, n] (body ++ rest))) := by
      rw [← List.singleton_append (x := c) (l := [n]), ← tickedIn_tickedIn [c] [n] (n :: (body ++ rest)), ← tickedIn_one n]
      exact ticks_transportStep _ (by exact hd) hlast
    _ = .next { (payloadStarted n ((headerStarted s).tickedIn [c, n] (body ++ rest))).tickedIn body rest with tstate := .ready } :=
      ticks_payload body hbody hd rfl hlen.symm ⟨rfl, rfl⟩ rfl
    _ = .next { ((headerStarted s).tickedIn [c, n] (body ++ rest)).tickedIn body rest with
          tCnt := n.toNat + 1 - body.length, tstate := .ready } := rfl
    _ = _ := by
      rw [tickedIn_tickedIn, hlen, Nat.sub_self]
      rfl

/-- Settles O38: `n + 4` ticks read the whole frame in, and as ticks are delivered behind them none before was taken in `T_READY`. -/
theorem receiveTakesItsTicks : Obligations.ReceiveTakesItsTicks := by
  intro s c n body rest hv he hf hst hl ho hx hlen
  have hd : tickDelivered s = true := (tickDelivered_iff s).2 ⟨hv, he, hf⟩
  have hrun := ticks_receive hd hst hl ho hx hlen
  have htotal : (c :: n :: body).length = n.toNat + 3 := by simp [hlen]
  have hbuf : ∀ i, inRead ((headerStarted s).tickedIn (c :: n :: body) rest) i
      = if i < n.toNat + 3 ∧ i < s.cfg.cIn then (c :: n :: body)[i]? else inRead s i := fun i => by
    rw [inRead_tickedIn, htotal]
    simp [headerStarted, inRead]
  refine ⟨fun k hk => ticks_busy_before hrun hd hk, _, hrun, rfl, ?_, ?_, ?_, ?_, rfl, ?_⟩
  · exact fun i hi hc => (hbuf i).trans (if_pos ⟨hi, hc⟩)
  · exact fun i hi => (hbuf i).trans (if_neg (by omega))
  · simp [State.tickedIn, State.readIn, htotal, headerStarted]
  · simp [State.tickedIn, State.readIn, htotal, headerStarted]
  · simp [State.tickedIn, headerStarted]

end Sys2Proof.Machine
end

section
/-! SUPPORT. One slot written, the scans for an empty slot, and the two allocations (43_registry.md R145, R146), O41 and O42. -/

namespace Sys2Proof.Machine

/-! ## One slot -/

/-- Slots are read off the table only. -/
theorem slotAt_congr {s t : State} (h : t.slots = s.slots) (j : Nat) : slotAt t j = slotAt s j := by rw [slotAt, slotAt, h]

theorem slotAt_setSlot_ne {i j : Nat} (v : Slot) (s : State) (h : j ≠ i) : slotAt (setSlot i v s) j = slotAt s j := by
  simp [slotAt, List.getD_eq_getElem?_getD, List.getElem?_set_ne h.symm]

/-- An index outside the table reads as empty, so an occupied slot is inside it. -/
theorem lt_length_of_cb_ne {s : State} {i : Nat} (h : (slotAt s i).cb ≠ none) : i < s.slots.length := by
  by_contra hi
  exact h (by simp [slotAt, List.getD_eq_getElem?_getD, List.getElem?_eq_none (Nat.le_of_not_lt hi), Slot.empty])

theorem occupied_eq_false_iff (s : State) (i : Nat) : occupied s i = false ↔ (slotAt s i).cb = none := by
  simp [occupied]

theorem occupied_iff (s : State) (i : Nat) : occupied s i = true ↔ (slotAt s i).cb ≠ none := by
  simp [occupied, Option.isSome_iff_ne_none]

/-- One slot written and a result delivered: every other slot and every other field is as before. -/
theorem slot_written {s : State} {i : Nat} (v : Slot) (r : Result) (hi : i < s.slots.length) :
    slotAt ((setSlot i v s).ret r) i = v
      ∧ (∀ j, j ≠ i → slotAt ((setSlot i v s).ret r) j = slotAt s j)
      ∧ (setSlot i v s).ret r = State.ret r { s with slots := ((setSlot i v s).ret r).slots } :=
  ⟨(slotAt_setSlot s i i v hi).trans (if_pos rfl), fun _ hj => slotAt_setSlot_ne v s hj, rfl⟩

/-! ## The scans -/

theorem firstEmpty_eq_some_iff (s : State) (i : Nat) :
    firstEmpty s = some i ↔ i < s.cfg.nSlots ∧ (slotAt s i).cb = none ∧ ∀ j, j < i → (slotAt s j).cb ≠ none := by
  simp only [firstEmpty, find?_range_some, Bool.not_eq_true', Bool.not_eq_false', occupied_eq_false_iff, occupied_iff]

theorem firstEmpty_eq_none_iff (s : State) : firstEmpty s = none ↔ ∀ i, i < s.cfg.nSlots → (slotAt s i).cb ≠ none := by
  simp only [firstEmpty, find?_range_none, Bool.not_eq_false', occupied_iff]

theorem lastEmpty_eq_some_iff (s : State) (i : Nat) :
    lastEmpty s = some i
      ↔ i < s.cfg.nSlots ∧ (slotAt s i).cb = none ∧ ∀ j, i < j → j < s.cfg.nSlots → (slotAt s j).cb ≠ none := by
  simp only [lastEmpty, find?_range_reverse_some, Bool.not_eq_true', Bool.not_eq_false', occupied_eq_false_iff, occupied_iff]

theorem lastEmpty_eq_none_iff (s : State) : lastEmpty s = none ↔ ∀ i, i < s.cfg.nSlots → (slotAt s i).cb ≠ none := by
  simp only [lastEmpty, find?_range_reverse_none, Bool.not_eq_false', occupied_iff]

/-! ## Allocating -/

theorem isRect_eq_wf (r : RawRect) : isRect r = r.wf := by
  simp [isRect, isU16, RawRect.wf, Bool.decide_and, Bool.and_assoc]

/-- The window's origin is added modulo 65536 (43_registry.md R146). -/
theorem placed_rectOf (w : Window) (r : RawRect) : placed w (rectOf r) = {
    x := BitVec.ofNat 16 (r.x + if w.valid then w.rect.x.toNat else 0)
    y := BitVec.ofNat 16 (r.y + if w.valid then w.rect.y.toNat else 0)
    w := BitVec.ofNat 16 r.w
    h := BitVec.ofNat 16 r.h } := by
  unfold placed rectOf
  split <;> simp [BitVec.ofNat_add, *]

theorem areaWidget_allocArea (w : Window) (r : RawRect) (cb : Option Handle) (user : Opaque) :
    areaWidget w (.allocArea r cb user) = some (newSlot cb user (placed w (rectOf r))) := by
  rw [placed_rectOf]
  rfl

theorem exec_allocCode {s : State} (ha : Accepting s) (cb : Handle) (user : Opaque) :
    exec (.allocCode (some cb) user) s
      = (allocate (firstEmpty s) (newSlot (some cb) user Rect.zero) s).toOutcome (slotResult (firstEmpty s)) :=
  hostOp_run s _ _ ha.1 ha.2

theorem exec_allocArea {s : State} {r : RawRect} (ha : Accepting s) (hr : r.wf = true) (cb : Handle) (user : Opaque) :
    exec (.allocArea r (some cb) user) s
      = (allocate (lastEmpty s) (newSlot (some cb) user (placed s.window (rectOf r))) s).toOutcome (slotResult (lastEmpty s)) := by
  show hostOp false (isRect r && true) s _ _ = _
  rw [isRect_eq_wf, hr]
  exact hostOp_run s _ _ ha.1 ha.2

theorem allocate_found (i : Nat) (v : Slot) (s : State) :
    (allocate (some i) v s).toOutcome (slotResult (some i)) = .next ((setSlot i v s).ret (.slot i)) := rfl

theorem raise_toOutcome {s : State} (hf : s.fault = .none) (c : FaultCode) (g : State → Result) :
    (raise c s).toOutcome g = .next ({ s with fault := c }.ret (.fault c)) := by
  rw [raise_running _ _ hf, toOutcome_raised]

theorem allocate_full {s : State} (hf : s.fault = .none) (v : Slot) (g : State → Result) :
    (allocate none v s).toOutcome g = .next ({ s with fault := .registryFull }.ret (.fault .registryFull)) := by
  rw [allocate, raise_toOutcome hf]

theorem isAlloc_cases {i : Instr} (h : isAlloc i = true) :
    (∃ cb user, i = .allocCode (some cb) user) ∨ ∃ r cb user, r.wf = true ∧ i = .allocArea r (some cb) user := by
  cases i <;> simp only [isAlloc, reduceCtorEq, Bool.and_eq_true, Option.isSome_iff_exists] at h
  case allocCode cb user =>
    obtain ⟨cb, rfl⟩ := h
    exact .inl ⟨cb, user, rfl⟩
  case allocArea r cb user =>
    obtain ⟨hr, cb, rfl⟩ := h
    exact .inr ⟨r, cb, user, hr, rfl⟩

/-- On a full table every allocation faults. -/
theorem exec_alloc_full {s : State} (ha : Accepting s) (hfull : ∀ i, i < s.cfg.nSlots → (slotAt s i).cb ≠ none) {i : Instr}
    (hi : isAlloc i = true) : exec i s = .next ({ s with fault := .registryFull }.ret (.fault .registryFull)) := by
  rcases isAlloc_cases hi with ⟨cb, user, rfl⟩ | ⟨r, cb, user, hr, rfl⟩
  · rw [exec_allocCode ha, (firstEmpty_eq_none_iff s).2 hfull, allocate_full ha.1]
  · rw [exec_allocArea ha hr, (lastEmpty_eq_none_iff s).2 hfull, allocate_full ha.1]

/-- Settles O41: the scan from the front finds the lowest empty slot, or none where every slot is occupied. -/
theorem codeWidgetsTakeTheLowestEmptySlot : Obligations.CodeWidgetsTakeTheLowestEmptySlot := by
  intro s cb user ha hsize
  refine ⟨fun i hi he hlow => ?_, fun hfull => ?_⟩
  · have hexec := exec_allocCode ha cb user
    rw [(firstEmpty_eq_some_iff s i).2 ⟨hi, he, hlow⟩, allocate_found] at hexec
    exact ⟨_, hexec, slot_written _ _ (hsize ▸ hi)⟩
  · exact exec_alloc_full ha hfull rfl

/-- Settles O42: the scan from the back finds the highest empty slot, or none where every slot is occupied. -/
theorem areasTakeTheHighestEmptySlot : Obligations.AreasTakeTheHighestEmptySlot := by
  intro s r cb user ha hsize hr
  refine ⟨fun i v hi he hhigh hv => ?_, fun hfull => ?_⟩
  · rw [areaWidget_allocArea] at hv
    obtain rfl := Option.some.inj hv
    have hexec := exec_allocArea ha hr cb user
    rw [(lastEmpty_eq_some_iff s i).2 ⟨hi, he, hhigh⟩, allocate_found] at hexec
    exact ⟨_, hexec, slot_written _ _ (hsize ▸ hi)⟩
  · exact exec_alloc_full ha hfull (by simp [isAlloc, hr])

end Sys2Proof.Machine
end

section
/-! SUPPORT. Allocations in any interleaving (43_registry.md R147), and O43. -/

namespace Sys2Proof.Machine

/-! ## The table while it fills from both ends -/

/-- Allocations may go on, with the window at `w`: the table holds the code widgets `codes` from the front, the areas `areas` up to its end and
`m` empty slots between them. -/
structure Filling (w : Window) (codes : List Slot) (m : Nat) (areas : List Slot) (s : State) : Prop where
  accepting : Accepting s
  window : s.window = w
  table : s.slots = codes ++ (List.replicate m Slot.empty ++ areas)
  size : codes.length + m + areas.length = s.cfg.nSlots
  codesInUse : ∀ v ∈ codes, v.cb ≠ none
  areasInUse : ∀ v ∈ areas, v.cb ≠ none

theorem Filling.of_empty {s : State} (ha : Accepting s) (h : s.slots = List.replicate s.cfg.nSlots Slot.empty) :
    Filling s.window [] s.cfg.nSlots [] s where
  accepting := ha
  window := rfl
  table := by simp [h]
  size := by simp
  codesInUse := nofun
  areasInUse := nofun

section
variable {w : Window} {codes areas : List Slot} {m : Nat} {s : State}

theorem Filling.slotAt_code (h : Filling w codes m areas s) {k : Nat} {v : Slot} (hk : codes[k]? = some v) : slotAt s k = v := by
  have hlt : k < codes.length := (List.getElem?_eq_some_iff.1 hk).1
  rw [slotAt, h.table, List.getD_eq_getElem?_getD, List.getElem?_append_left hlt, hk, Option.getD_some]

theorem Filling.slotAt_empty (h : Filling w codes m areas s) {k : Nat} (hk : k < m) : slotAt s (codes.length + k) = Slot.empty := by
  rw [slotAt, h.table, List.getD_eq_getElem?_getD, List.getElem?_append_right (Nat.le_add_right _ _), Nat.add_sub_cancel_left,
    List.getElem?_append_left (by simpa using hk), List.getElem?_replicate_of_lt hk, Option.getD_some]

theorem Filling.slotAt_area (h : Filling w codes m areas s) {k : Nat} {v : Slot} (hk : areas[k]? = some v) :
    slotAt s (codes.length + m + k) = v := by
  have hge : (List.replicate m Slot.empty).length ≤ m + k := by simp
  rw [slotAt, h.table, List.getD_eq_getElem?_getD, Nat.add_assoc, List.getElem?_append_right (Nat.le_add_right _ _),
    Nat.add_sub_cancel_left, List.getElem?_append_right hge, List.length_replicate, Nat.add_sub_cancel_left, hk, Option.getD_some]

theorem Filling.code_inUse (h : Filling w codes m areas s) {k : Nat} (hk : k < codes.length) : (slotAt s k).cb ≠ none := by
  rw [h.slotAt_code (List.getElem?_eq_getElem hk)]
  exact h.codesInUse _ (List.getElem_mem hk)

theorem Filling.area_inUse (h : Filling w codes m areas s) {k : Nat} (hk : codes.length + m ≤ k) (hs : k < s.cfg.nSlots) :
    (slotAt s k).cb ≠ none := by
  have hlt : k - (codes.length + m) < areas.length := by have := h.size; omega
  have hslot := h.slotAt_area (List.getElem?_eq_getElem hlt)
  rw [Nat.add_sub_cancel' hk] at hslot
  rw [hslot]
  exact h.areasInUse _ (List.getElem_mem hlt)

/-! ## The scans find the two ends of the gap -/

theorem Filling.firstEmpty (h : Filling w codes (m + 1) areas s) : firstEmpty s = some codes.length := by
  have hsize := h.size
  refine (firstEmpty_eq_some_iff s _).2 ⟨by omega, ?_, fun j => h.code_inUse⟩
  exact congrArg Slot.cb (h.slotAt_empty (k := 0) (Nat.succ_pos m))

theorem Filling.lastEmpty (h : Filling w codes (m + 1) areas s) : lastEmpty s = some (codes.length + m) := by
  have hsize := h.size
  refine (lastEmpty_eq_some_iff s _).2 ⟨by omega, ?_, fun j hj => h.area_inUse (by omega)⟩
  exact congrArg Slot.cb (h.slotAt_empty (Nat.lt_succ_self m))

theorem Filling.full (h : Filling w codes 0 areas s) : ∀ i, i < s.cfg.nSlots → (slotAt s i).cb ≠ none := by
  intro i hi
  by_cases hc : i < codes.length
  · exact h.code_inUse hc
  · exact h.area_inUse (by omega) hi

/-! ## One allocation, and a run of them -/

theorem Filling.setFirst (h : Filling w codes (m + 1) areas s) {v : Slot} (hv : v.cb ≠ none) (r : Result) :
    Filling w (codes ++ [v]) m areas ((setSlot codes.length v s).ret r) where
  accepting := h.accepting
  window := h.window
  table := by
    rw [ret_slots, setSlot_slots, h.table, List.replicate_succ]
    simp
  size := by
    have hsize := h.size
    simp only [List.length_append, List.length_singleton, ret_cfg, setSlot_cfg]
    omega
  codesInUse u hu := (List.mem_append.1 hu).elim (h.codesInUse u) fun hu => by rwa [List.mem_singleton.1 hu]
  areasInUse := h.areasInUse

theorem Filling.setLast (h : Filling w codes (m + 1) areas s) {v : Slot} (hv : v.cb ≠ none) (r : Result) :
    Filling w codes m (v :: areas) ((setSlot (codes.length + m) v s).ret r) where
  accepting := h.accepting
  window := h.window
  table := by
    rw [ret_slots, setSlot_slots, h.table, List.replicate_succ']
    simp
  size := by
    have hsize := h.size
    simp only [List.length_cons, ret_cfg, setSlot_cfg]
    omega
  codesInUse := h.codesInUse
  areasInUse u hu := (List.mem_cons.1 hu).elim (fun hu => by rwa [hu]) (h.areasInUse u)

end

/-- One allocation closes the gap by one slot, from its own end (43_registry.md R145, R146). -/
theorem Filling.exec_alloc {w : Window} {codes areas : List Slot} {m : Nat} {s : State} (h : Filling w codes (m + 1) areas s) {i : Instr}
    (hi : isAlloc i = true) : ∃ t, exec i s = .next t ∧ t.cfg = s.cfg
      ∧ Filling w (codes ++ (codeWidget i).toList) m ((areaWidget w i).toList ++ areas) t := by
  rcases isAlloc_cases hi with ⟨cb, user, rfl⟩ | ⟨r, cb, user, hr, rfl⟩
  · have hexec := exec_allocCode h.accepting cb user
    rw [h.firstEmpty, allocate_found] at hexec
    exact ⟨_, hexec, rfl, h.setFirst (by simp) _⟩
  · have hexec := exec_allocArea h.accepting hr cb user
    rw [h.lastEmpty, allocate_found, h.window] at hexec
    refine ⟨_, hexec, rfl, ?_⟩
    rw [areaWidget_allocArea, show codeWidget (.allocArea r (some cb) user) = none from rfl, Option.toList_none, List.append_nil]
    exact h.setLast (by simp [newSlot]) _

/-- A run of allocations closes the gap from both ends, each end in allocation order (43_registry.md R147). -/
theorem Filling.execAll_allocs {w : Window} {m : Nat} (is : List Instr) : ∀ {codes areas : List Slot} {s : State},
    Filling w codes (is.length + m) areas s → (∀ i ∈ is, isAlloc i = true) → ∃ t, execAll is s = .next t ∧ t.cfg = s.cfg
      ∧ Filling w (codes ++ is.filterMap codeWidget) m ((is.filterMap (areaWidget w)).reverse ++ areas) t := by
  induction is with
  | nil =>
    intro codes areas s h _
    refine ⟨s, rfl, rfl, ?_⟩
    simpa using h
  | cons i rest ih =>
    intro codes areas s h hall
    rw [List.length_cons, Nat.add_right_comm] at h
    obtain ⟨u, hu, hcu, hfu⟩ := h.exec_alloc (hall i List.mem_cons_self)
    obtain ⟨t, ht, hct, hft⟩ := ih hfu fun j hj => hall j (List.mem_cons_of_mem i hj)
    refine ⟨t, by rw [execAll, hu]; exact ht, hct.trans hcu, ?_⟩
    have hcodes : (i :: rest).filterMap codeWidget = (codeWidget i).toList ++ rest.filterMap codeWidget := by
      cases hw : codeWidget i <;> simp [hw]
    have hareas : (i :: rest).filterMap (areaWidget w) = (areaWidget w i).toList ++ rest.filterMap (areaWidget w) := by
      cases hw : areaWidget w i <;> simp [hw]
    have hrev : ((areaWidget w i).toList).reverse = (areaWidget w i).toList := by cases areaWidget w i <;> rfl
    rw [hcodes, hareas, List.reverse_append, hrev, List.append_assoc, ← List.append_assoc codes]
    exact hft

/-- Settles O43: the run leaves the code widgets, the gap and the areas in this order (`Filling.execAll_allocs`), and no gap where it fills the
table. -/
theorem allocationsNeverCollide : Obligations.AllocationsNeverCollide := by
  intro s is ha hslots hall hlen
  have h0 := Filling.of_empty ha hslots
  rw [← Nat.add_sub_cancel' hlen] at h0
  obtain ⟨t, hexec, hcfg, ht⟩ := h0.execAll_allocs is hall
  rw [List.nil_append, List.append_nil] at ht
  have hsize := ht.size
  rw [List.length_reverse, hcfg] at hsize
  refine ⟨t, hexec, ht.accepting.1, fun k v hk => ht.slotAt_code hk, fun k v hk => ?area, fun k hlo hhi => ?gap, fun i hi hn => ?full⟩
  case area =>
    have hlt := (List.getElem?_eq_some_iff.1 hk).1
    rw [← ht.slotAt_area ((List.getElem?_reverse' (i := (is.filterMap (areaWidget s.window)).length - 1 - k) (j := k) (by omega)).trans hk)]
    congr 1
    omega
  case gap =>
    rw [← ht.slotAt_empty (k := k - (is.filterMap codeWidget).length) (by omega), Nat.add_sub_cancel' hlo]
  case full =>
    rw [hn, Nat.sub_self] at ht
    exact exec_alloc_full ht.accepting ht.full hi

end Sys2Proof.Machine
end

section
/-! SUPPORT. SET_ENABLED, the slot check, the window and the hook (43_registry.md R148, R151 to R155), O45, O48 and O49. -/

namespace Sys2Proof.Machine

/-! ## The slot check -/

theorem slotInUse_eq_false {i : Nat} {s : State} (h : s.cfg.nSlots ≤ i ∨ (slotAt s i).cb = none) : slotInUse i s = false :=
  Bool.eq_false_iff.2 fun hu =>
    have ⟨hi, hc⟩ := (slotInUse_iff i s).1 hu
    h.elim (Nat.not_le.2 hi) hc

/-- FREE of an idle host behind the common checks. -/
theorem exec_free_checked {s : State} (ha : Accepting s) (hp : s.pos = .idle) (i : Nat) :
    exec (.free i) s = (freeBody i s).toOutcome unitResult := by
  show execFree i s = _
  rw [execFree, hp]
  exact hostOp_run s _ _ ha.1 ha.2

/-- SET_ENABLED behind the common checks. -/
theorem exec_setEnabled {s : State} {e : Nat} (ha : Accepting s) (he : e < 2) (i : Nat) :
    exec (.setEnabled i e) s = (setEnabledBody i (decide (e = 1)) s).toOutcome unitResult := by
  show hostOp false (isBit e) s _ _ = _
  rw [show isBit e = true from decide_eq_true he]
  exact hostOp_run s _ _ ha.1 ha.2

theorem setEnabledBody_inUse {i : Nat} {s : State} (h : slotInUse i s = true) (e : Bool) :
    setEnabledBody i e s = .ok (setSlot i { slotAt s i with enabled := e } s) := if_pos h

theorem setEnabledBody_badSlot {i : Nat} {s : State} (h : slotInUse i s = false) (e : Bool) :
    setEnabledBody i e s = raise .badSlot s := if_neg (by simp [h])

theorem freeBody_badSlot {i : Nat} {s : State} (h : slotInUse i s = false) : freeBody i s = raise .badSlot s := if_neg (by simp [h])

/-- Settles O45: both operations make the same check before they write anything. -/
theorem badSlotsFault : Obligations.BadSlotsFault := by
  intro s i ha hp h
  have hno := slotInUse_eq_false h
  refine ⟨?_, fun e he => ?_⟩
  · rw [exec_free_checked ha hp, freeBody_badSlot hno, raise_toOutcome ha.1]
  · rw [exec_setEnabled ha he, setEnabledBody_badSlot hno, raise_toOutcome ha.1]

/-- Settles O48: on a slot in use SET_ENABLED is one slot written, with its other fields as they were. -/
theorem setEnabledWritesOneBit : Obligations.SetEnabledWritesOneBit := by
  intro s i e ha hsize hi hc he
  have hexec := exec_setEnabled ha he i
  rw [setEnabledBody_inUse ((slotInUse_iff i s).2 ⟨hi, hc⟩), toOutcome_ok] at hexec
  exact ⟨_, hexec, slot_written _ _ (hsize ▸ hi)⟩

/-! ## The window and the hook -/

/-- SET_WINDOW behind the common checks (43_registry.md R152). -/
theorem exec_setWindow {s : State} {r : RawRect} (ha : Accepting s) (hr : r.wf = true) :
    exec (.setWindow r) s = .next ({ s with window := { valid := true, rect := rectOf r } }.ret .unit) := by
  show hostOp false (isRect r) s unitResult (fun s => .ok { s with window := { valid := true, rect := rectOf r } }) = _
  rw [isRect_eq_wf, hr, hostOp_run s _ _ ha.1 ha.2]
  rfl

/-- Settles O49: past the common checks each of the four is its one write. -/
theorem windowAndHookAreWrittenWhole : Obligations.WindowAndHookAreWrittenWhole := by
  intro s ha
  refine ⟨fun r hr => exec_setWindow ha hr, ?clearWindow, fun h => ?setHook, ?clearHook⟩
  case clearWindow => exact hostOp_run s unitResult (fun s => .ok { s with window := Window.none }) ha.1 ha.2
  case setHook => exact hostOp_run s unitResult (fun s => .ok { s with hook := some h }) ha.1 ha.2
  case clearHook => exact hostOp_run s unitResult (fun s => .ok { s with hook := none }) ha.1 ha.2

end Sys2Proof.Machine
end

section
/-! SUPPORT. The remove command and FREE from READY (43_registry.md R148), and O44. -/

namespace Sys2Proof.Machine

/-! ## The remove command is spelled by every configuration -/

/-- Literal bytes need no argument, so the directives of a token list decide whether every argument is found (30_encoding.md R78). -/
theorem tokensEffect_isSome_of_directives (ts : List Token) : ∀ args : List Arg,
    (tokensEffect (ts.filter fun t => !t.isLit) args).isSome = true → (tokensEffect ts args).isSome = true := by
  induction ts with
  | nil => exact fun _ h => h
  | cons t rest ih =>
    intro args h
    cases t with
    | lit b =>
      have hrest := ih args (by simpa [Token.isLit] using h)
      obtain ⟨⟨l, k⟩, hl⟩ := Option.isSome_iff_exists.1 hrest
      simp [tokensEffect, tokenBytes, Token.takesArg, hl]
    | _ =>
      rw [List.filter_cons_of_pos (by simp [Token.isLit])] at h
      simp only [tokensEffect] at h ⊢
      split at h
      next b bs k hb hr =>
        obtain ⟨⟨l, k'⟩, hl⟩ := Option.isSome_iff_exists.1 (ih _ (by rw [hr]; rfl))
        simp [hb, hl]
      next => cases h

/-- A format string whose directives find their arguments spells its bytes. -/
theorem formatTokens_effect_isSome {fmt : List Byte} {args : List Arg} (h : (tokensEffect (formatDirectives fmt) args).isSome = true) :
    ∃ l, (tokensEffect (formatTokens fmt) args).map (·.1) = some l := by
  obtain ⟨⟨l, k⟩, hl⟩ := Option.isSome_iff_exists.1 (tokensEffect_isSome_of_directives _ _ h)
  exact ⟨l, by rw [hl]; rfl⟩

/-- R7's constraint on the two remove formats gives every slot a remove command. -/
theorem exists_removeBytes (s : State) (i : Nat) : ∃ l, removeBytes s i = some l := by
  obtain ⟨hCode, hPoint⟩ := cfg_removeFormats s.cfg
  unfold removeBytes
  simp only
  split
  · exact formatTokens_effect_isSome (by rw [hCode]; rfl)
  · exact formatTokens_effect_isSome (by rw [hPoint]; rfl)

/-! ## What FREE stages -/

theorem appendAll_append (l l' : List Byte) : ∀ s : State, appendAll (l ++ l') s = (appendAll l s).andThen (appendAll l') := by
  induction l with
  | nil => exact fun _ => rfl
  | cons b rest ih =>
    intro s
    rw [List.cons_append, appendAll, appendAll, andThen_assoc, funext ih]

/-- Tokens that find their arguments and emit no diagnostic append their bytes, as far as they fit. -/
theorem encodeTokens_eq_appendAll (ts : List Token) : ∀ {args : List Arg} {l : List Byte} {k : Nat} (s : State),
    (∀ t ∈ ts, tokenDiags t = 0) → tokensEffect ts args = some (l, k) → encodeTokens ts args s = appendAll l s := by
  induction ts with
  | nil =>
    intro args l k s _ h
    cases h
    rfl
  | cons t rest ih =>
    intro args l k s hd h
    simp only [tokensEffect] at h
    split at h
    next b bs k' hb hr =>
      cases h
      have hrest : encodeTokens rest (if t.takesArg then args.tail else args) = appendAll bs :=
        funext fun u => ih u (fun v hv => hd v (List.mem_cons_of_mem t hv)) hr
      simp only [encodeTokens, opToken_found t _ b hb, hd t List.mem_cons_self, withUnknown_zero, hrest, appendAll_append,
        andThen_assoc, andThen_ok]
    next => cases h

theorem encodeBody_eq_appendAll {fmt : List Byte} {args : List Arg} {l : List Byte} {s : State} (hs : s.state = .ready)
    (hd : ∀ t ∈ formatDirectives fmt, tokenDiags t = 0) (h : (tokensEffect (formatTokens fmt) args).map (·.1) = some l) :
    encodeBody fmt args s = appendAll l s := by
  obtain ⟨⟨l', k⟩, he, rfl⟩ := Option.map_eq_some_iff.1 h
  rw [encodeBody, staging_ready hs, encodeTokens_eq_appendAll _ s (formatTokens_no_diags hd) he]

/-- In READY the remove command appends its bytes, as far as they fit (43_registry.md R148). -/
theorem removeCommand_eq_appendAll {i : Nat} {l : List Byte} {s : State} (hs : s.state = .ready) (h : removeBytes s i = some l) :
    removeCommand i s = appendAll l s := by
  obtain ⟨hCode, hPoint⟩ := cfg_removeFormats s.cfg
  unfold removeBytes at h
  unfold removeCommand zeroArea
  simp only [decide_eq_true_eq] at h ⊢
  split at h
  next hz =>
    rw [if_pos hz]
    exact encodeBody_eq_appendAll hs (by simp [hCode, tokenDiags]) h
  next hz =>
    rw [if_neg hz, toNat_centroidX, toNat_centroidY]
    exact encodeBody_eq_appendAll hs (by simp [hPoint, tokenDiags]) h

/-- In READY, FREE behind its first loop appends ESC and the remove command, and goes on with its FLUSH. -/
theorem freeRest_eq_appendAll {i : Nat} {l : List Byte} {s : State} (hs : s.state = .ready) (h : removeBytes s i = some l) :
    freeRest i s = (appendAll (0x1B :: l) s).andThen (freeFromFlush i) := by
  rw [freeRest, beginRest, cfg_esc, appendAll, andThen_assoc]
  by_cases hEsc : fits [0x1B] s
  · rw [appendByte_ok _ _ hEsc, andThen_ok, andThen_ok, removeCommand_eq_appendAll (s := s.staged [0x1B]) hs h]
  · rw [appendByte_full _ _ hEsc]
    rfl

theorem exec_free_ready {s : State} {i : Nat} {l : List Byte} (hs : Staging s) (hp : s.pos = .idle) (hi : i < s.cfg.nSlots)
    (hc : (slotAt s i).cb ≠ none) (h : removeBytes s i = some l) :
    exec (.free i) s = ((appendAll (0x1B :: l) s).andThen (freeFromFlush i)).toOutcome unitResult := by
  obtain ⟨ha, hst⟩ := hs
  rw [exec_free_idle ha hp hi hc, driving_ok _ (drive_ready _ _ ha.1 hst), freeRest_eq_appendAll hst h]

/-! ## A blocking FREE -/

/-- The state after a blocking FLUSH of the staged payload `p` that the display acknowledged at once, its further answers being `rest`
(41_session.md R113, R116, R119). -/
def flushedAtOnce (p rest : List Byte) (s : State) : State :=
  { s with
    outBuf := s.armed.outBuf
    outLen := 0
    outSum := 0
    nextState := .reset
    tIdx := s.outLen + 3
    tCnt := 0
    tWait := 0
    tRetries := 0
    tAck := s.cfg.ack
    env := { s.env with rx := rest }
    out := { s.out with bus := s.out.bus ++ attemptBus (frameBytes s.cfg.ctrlNoresp p) s.cfg.dummyTx s.cfg.ack } }

/-- FLUSH's pseudocode, in whichever loop it would wait: it arms, sends once and takes the RESET step. -/
theorem flushBody_acknowledged {s : State} {p rest : List Byte} (q : HostPos) (hs : Staging s) (hb : s.cfg.transport = .blocking)
    (ht : s.tstate = .ready) (hctrl : s.ctrl = s.cfg.ctrlNoresp) (h0 : 0 < s.outLen) (hroom : fits [] s)
    (hp : readRange s.outBuf 2 s.outLen = some p) (hsum : sum8 p = s.outSum) (hx : s.env.rx = s.cfg.ack :: rest) :
    flushBody q s = .ok (flushedAtOnce p rest s) := by
  obtain ⟨⟨hf, _⟩, hst⟩ := hs
  have hc : CodecInv s := ⟨hroom, p, hp, hsum⟩
  have hnext : s.armed.nextState = .reset := if_neg (by rw [hctrl]; exact cfg_ctrl_ne s.cfg)
  have hsent := sessionArm_transmitted (refusals := []) (sending_armed hc hb ht hp hsum) hx nofun (by simp)
  have hloop : drive q s.armed = .ok (resetStepped (transmitted (byteOf s.outLen) (frameBytes s.ctrl p) [] rest s.armed)) := by
    rw [drive_blocking q (by exact hb) (by exact hf) (by simp [State.armed]), hsent, at_ok, andThen_ok,
      drive_reset q (by exact hf) (isReady_blocking (by exact hb)) (by simp [transmitted, hnext, NextState.session])]
  rw [flushBody_eq, drive_ready _ _ hf hst, andThen_ok, flushRest, if_pos h0, arm_ok s hroom, andThen_ok, hloop]
  simp [resetStepped, transmitted, flushedAtOnce, State.armed, hc.toNat_lengthByte, hctrl, cfg_ctrl_ne, hst]

/-- Settles O44: FREE from READY appends ESC and its command (`exec_free_ready`); where they fit, its FLUSH sends the frame and the slot is
cleared behind it. -/
theorem freeSendsTheRemoveCommandThenClears : Obligations.FreeSendsTheRemoveCommandThenClears := by
  refine ⟨exists_removeBytes, ?sends, ?full⟩
  case sends =>
    intro s i p l rest ha hpos hb hst ht hctrl hp hsum hsize hi hc hl hfit hx
    have hsum' : sum8 (p ++ 0x1B :: l) = (s.staged (0x1B :: l)).outSum := by rw [sum8_append, hsum]; rfl
    have hflush := flushBody_acknowledged (s := s.staged (0x1B :: l)) .freeingFlush ⟨ha, hst⟩ hb ht hctrl (by simp [State.staged]) hfit
      (readRange_staged _ hp) hsum' hx
    have hexec := exec_free_ready ⟨ha, hst⟩ hpos hi hc hl
    rw [appendAll_ok _ _ hfit, andThen_ok, freeFromFlush, hflush, andThen_ok, freeClear, toOutcome_ok, unitResult] at hexec
    obtain ⟨hcleared, hothers, -⟩ :=
      slot_written (s := flushedAtOnce (p ++ 0x1B :: l) rest (s.staged (0x1B :: l))) Slot.empty .unit (hsize ▸ hi)
    refine ⟨_, hexec, hcleared, hothers, ?_, ?_⟩
    · rw [← hctrl]
      exact armedFrame_of_outBuf rfl
    · rw [State.ret, ← hpos]
      rfl
  case full =>
    intro s i l hs hpos hi hc hl hroom hfull
    have hraise : appendAll (0x1B :: l) s
        = .raised { s.staged ((0x1B :: l).take (s.cfg.cOut - 3 - s.outLen)) with fault := .frameTooLarge } := by
      rw [appendAll_full _ _ hfull hroom, raise_running _ _ (by exact hs.1.1)]
    have hexec := exec_free_ready hs hpos hi hc hl
    rw [hraise, andThen_raised, toOutcome_raised] at hexec
    refine ⟨_, hexec, storedAt_of_writeBytes rfl, ?_⟩
    rw [State.staged, outLen_staged_full hroom hfull]
    rfl

end Sys2Proof.Machine
end

section
/-! SUPPORT. What the registry's operations may write in the table (43_registry.md R149, R150), O46 and O47. -/

namespace Sys2Proof.Machine

/-! ## Operations that write one slot at most -/

/-- A host operation leaves the table, or the common checks let its body through. -/
theorem hostOp_slots_or_body {su ok : Bool} {s t : State} {g : State → Result} {body : State → Res} (h : hostOp su ok s g body = .next t) :
    t.slots = s.slots ∨ (s.fault = .none ∧ (body s).toOutcome g = .next t) := by
  rcases hostOp_cases su ok s g body with ⟨_, e⟩ | ⟨_, _, _, e⟩ | ⟨_, _, _, e⟩ | ⟨hf, _, _, e⟩ <;> rw [e] at h
  case inr.inr.inr => exact .inr ⟨hf, h⟩
  all_goals
    cases h
    exact .inl rfl

/-- A host operation whose body leaves the table leaves it. -/
theorem hostOp_slots {su ok : Bool} {s t : State} {g : State → Result} {body : State → Res} (h : hostOp su ok s g body = .next t)
    (hb : (body s).ends fun u => u.slots = s.slots) : t.slots = s.slots :=
  (hostOp_slots_or_body h).elim id fun ⟨_, hbody⟩ => toOutcome_ends (fun _ _ hu => hu) hb hbody

/-- An allocation writes the slot its scan found and delivers its index, or it writes no slot (43_registry.md R145, R146). -/
theorem allocation_atomic {ok : Bool} {found : Option Nat} {v : Slot} {s t : State}
    (h : hostOp false ok s (slotResult found) (allocate found v) = .next t) :
    t.slots = s.slots
      ∨ (t.fault = .none ∧ ∃ j, found = some j ∧ t.slots = s.slots.set j v ∧ t.out.results = s.out.results ++ [.slot j]) := by
  rcases hostOp_slots_or_body h with hsame | ⟨hf, hbody⟩
  · exact .inl hsame
  · cases found with
    | some j =>
      cases hbody
      exact .inr ⟨hf, j, rfl, rfl, rfl⟩
    | none =>
      rw [allocate_full hf] at hbody
      cases hbody
      exact .inl rfl

/-- SET_ENABLED writes the slot it names, or no slot (43_registry.md R151). -/
theorem exec_setEnabled_slots {i e : Nat} {s t : State} (h : exec (.setEnabled i e) s = .next t) :
    t.slots = s.slots ∨ t.slots = s.slots.set i { slotAt s i with enabled := decide (e = 1) } := by
  rcases hostOp_slots_or_body h with hsame | ⟨hf, hbody⟩
  · exact .inl hsame
  · cases hu : slotInUse i s with
    | true =>
      rw [setEnabledBody_inUse hu] at hbody
      cases hbody
      exact .inr rfl
    | false =>
      rw [setEnabledBody_badSlot hu, raise_toOutcome hf] at hbody
      cases hbody
      exact .inl rfl

/-! ## No part of FREE before its last line delivers a result or writes the table -/

theorem raise_sameResults (c : FaultCode) (s : State) : (raise c s).ends (SameResults s) := by
  show SameResults s (if s.fault = .none then { s with fault := c } else s)
  split <;> rfl

theorem appendByte_sameResults (b : Byte) (s : State) : (appendByte b s).ends (SameResults s) := by
  by_cases h : fits [b] s
  · rw [appendByte_ok b s h]
    exact rfl
  · rw [appendByte_full b s h]
    exact raise_sameResults _ s

theorem appendAll_sameResults (l : List Byte) : ∀ s : State, (appendAll l s).ends (SameResults s) := by
  induction l with
  | nil => exact fun _ => rfl
  | cons b rest ih => exact fun s => ends_andThen (appendByte_sameResults b s) fun t _ ht => ends_sameResults_of ht (ih t)

theorem opToken_sameResults (t : Token) (arg : Option Arg) (s : State) : (opToken t arg s).ends (SameResults s) := by
  cases hb : tokenBytes t arg with
  | none =>
    rw [opToken_lacking t arg hb]
    exact raise_sameResults _ s
  | some b =>
    rw [opToken_found t arg b hb]
    exact ends_andThen (appendAll_sameResults b s) fun _ _ hu => hu

theorem encodeTokens_sameResults (ts : List Token) : ∀ (args : List Arg) (s : State), (encodeTokens ts args s).ends (SameResults s) := by
  induction ts with
  | nil => exact fun _ _ => rfl
  | cons t rest ih =>
    exact fun args s => ends_andThen (opToken_sameResults t args.head? s) fun u _ hu => ends_sameResults_of hu (ih _ u)

theorem encodeBody_sameResults (fmt : List Byte) (args : List Arg) (s : State) : (encodeBody fmt args s).ends (SameResults s) := by
  unfold encodeBody staging
  split
  · exact raise_sameResults _ s
  · exact encodeTokens_sameResults _ args s

theorem removeCommand_sameResults (i : Nat) (s : State) : (removeCommand i s).ends (SameResults s) := by
  unfold removeCommand
  simp only
  split <;> exact encodeBody_sameResults _ _ s

theorem beginBody_sameResults (p : HostPos) (s : State) : (beginBody p s).ends (SameResults s) :=
  ends_andThen (drive_sameResults p s) fun t _ ht => ends_sameResults_of ht (appendByte_sameResults _ t)

/-- FREE from its BEGIN_FRAME up to the end of its FLUSH (43_registry.md R148). -/
def freeUpToFlush (i : Nat) (s : State) : Res :=
  (beginBody .freeingBegin s).andThen fun t => (removeCommand i t).andThen (flushBody .freeingFlush)

theorem freeFromBegin_eq_upToFlush (i : Nat) (s : State) : freeFromBegin i s = (freeUpToFlush i s).andThen (freeClear i) := by
  rw [freeUpToFlush, andThen_assoc]
  simp only [andThen_assoc]
  rfl

/-- A part of FREE that stands before its last line: it writes no slot and delivers no result, and where it ends nothing is faulted. -/
structure BeforeClear (s : State) (r : Res) : Prop where
  slots : r.ends fun t => t.slots = s.slots
  results : r.ends (SameResults s)
  running : ∀ t, r = .ok t → t.fault = .none

theorem WritesAllowed.slots {s t : State} (h : WritesAllowed .flush s t) : t.slots = s.slots := by
  obtain ⟨hslots, -⟩ := h.registry rfl
  exact hslots

theorem flushBody_running {p : HostPos} {s t : State} (h : flushBody p s = .ok t) : t.fault = .none := by
  obtain ⟨u, hdrive, hrest⟩ := andThen_eq_ok_iff.1 (flushBody_eq p s ▸ h)
  rw [flushRest] at hrest
  split at hrest
  next =>
    obtain ⟨v, -, hloop⟩ := andThen_eq_ok_iff.1 hrest
    exact (drive_ok _ _ _ hloop).2
  next =>
    obtain rfl := Res.ok.inj hrest
    exact (drive_ok _ _ _ hdrive).2

theorem flushBody_beforeClear (p : HostPos) (s : State) : BeforeClear s (flushBody p s) where
  slots := ends_mono (fun _ => WritesAllowed.slots) ((writesAllowed_kept .flush s).flushBody p (.refl _ s))
  results := flushBody_sameResults p s
  running _ := flushBody_running

theorem freeUpToFlush_beforeClear (i : Nat) (s : State) : BeforeClear s (freeUpToFlush i s) where
  slots := by
    have hk := writesAllowed_kept .flush s
    refine ends_mono (fun _ => WritesAllowed.slots) (ends_andThen (hk.beginBody _ (.refl _ s)) fun t _ ht => ?_)
    exact ends_andThen (hk.removeCommand i ht) fun u _ hu => hk.flushBody _ hu
  results := ends_andThen (beginBody_sameResults _ s) fun t _ ht => ends_andThen (ends_sameResults_of ht (removeCommand_sameResults i t))
    fun u _ hu => ends_sameResults_of hu (flushBody_sameResults _ u)
  running t h := by
    obtain ⟨u, -, hu⟩ := andThen_eq_ok_iff.1 h
    obtain ⟨v, -, hv⟩ := andThen_eq_ok_iff.1 hu
    exact flushBody_running hv

/-- FREE cleared the slot it names as its last action, or it wrote no slot (43_registry.md R149). -/
def FreedOrKept (j : Nat) (s t : State) : Prop :=
  t.slots = s.slots ∨ (t.fault = .none ∧ t.slots = s.slots.set j Slot.empty ∧ t.out.results = s.out.results ++ [.unit])

theorem BeforeClear.freedOrKept {s t : State} {r : Res} {j : Nat} (h : BeforeClear s r)
    (he : (r.andThen (freeClear j)).toOutcome unitResult = .next t) : FreedOrKept j s t := by
  obtain ⟨hslots, hresults, hrunning⟩ := h
  cases r with
  | ok u =>
    cases he
    have hsame : u.slots = s.slots := hslots
    have hres : u.out.results = s.out.results := hresults
    exact .inr ⟨hrunning u rfl, by rw [ret_slots, setSlot_slots, hsame], by rw [ret_out, setSlot_out, hres]; rfl⟩
  | wait u =>
    cases he
    exact .inl hslots
  | raised u =>
    cases he
    exact .inl hslots
  | stop f => cases he

theorem exec_free_freedOrKept {j : Nat} {s t : State} (h : exec (.free j) s = .next t) : FreedOrKept j s t := by
  have h : execFree j s = .next t := h
  unfold execFree at h
  split at h
  · exact (freeUpToFlush_beforeClear j s).freedOrKept (freeFromBegin_eq_upToFlush j s ▸ h)
  · exact (flushBody_beforeClear _ s).freedOrKept h
  · rcases hostOp_slots_or_body h with hsame | ⟨hf, hbody⟩
    · exact .inl hsame
    · unfold freeBody at hbody
      split at hbody
      · exact (freeUpToFlush_beforeClear j s).freedOrKept (freeFromBegin_eq_upToFlush j s ▸ hbody)
      · rw [raise_toOutcome hf] at hbody
        cases hbody
        exact .inl rfl

/-- Settles O46: an allocation's one write follows its scan, and FREE's follows everything that can fault. -/
theorem allocationAndRemovalAreAtomic : Obligations.AllocationAndRemovalAreAtomic :=
  fun _ _ => ⟨fun _ _ h => allocation_atomic h, fun _ _ _ h => allocation_atomic h, fun _ h => exec_free_freedOrKept h⟩

/-! ## Occupied slots -/

theorem slotAt_of_slots_set {s t : State} {i j : Nat} {v : Slot} (h : t.slots = s.slots.set i v) (hj : j ≠ i) : slotAt t j = slotAt s j :=
  (slotAt_congr (s := setSlot i v s) h j).trans (slotAt_setSlot_ne v s hj)

/-- An allocation's slot was empty, so an occupied slot is another one. -/
theorem slotAt_allocation {s t : State} {found : Option Nat} {ok : Bool} {v : Slot} {j : Nat}
    (h : hostOp false ok s (slotResult found) (allocate found v) = .next t) (hempty : ∀ k, found = some k → (slotAt s k).cb = none)
    (hj : (slotAt s j).cb ≠ none) : slotAt t j = slotAt s j := by
  rcases allocation_atomic h with hsame | ⟨_, k, hk, hset, _⟩
  · exact slotAt_congr hsame j
  · refine slotAt_of_slots_set hset ?_
    rintro rfl
    exact hj (hempty j hk)

/-- An occupied slot stays as it is, but for its FREE, its SET_ENABLED and RESET (43_registry.md R150). -/
theorem slotAt_exec {i : Instr} {s t : State} {j : Nat} (h : exec i s = .next t) (hj : (slotAt s j).cb ≠ none) (hfree : i ≠ .free j)
    (hreset : i ≠ .reset) (hset : ∀ e, i ≠ .setEnabled j e) : slotAt t j = slotAt s j := by
  cases i
  case allocCode cb user =>
    refine slotAt_allocation h (fun k hk => ?_) hj
    obtain ⟨-, hempty, -⟩ := (firstEmpty_eq_some_iff s k).1 hk
    exact hempty
  case allocArea r cb user =>
    refine slotAt_allocation h (fun k hk => ?_) hj
    obtain ⟨-, hempty, -⟩ := (lastEmpty_eq_some_iff s k).1 hk
    exact hempty
  case free k =>
    rcases exec_free_freedOrKept h with hsame | ⟨_, hclear, _⟩
    · exact slotAt_congr hsame j
    · exact slotAt_of_slots_set hclear fun hjk => hfree (by rw [hjk])
  case setEnabled k e =>
    rcases exec_setEnabled_slots h with hsame | hwrite
    · exact slotAt_congr hsame j
    · exact slotAt_of_slots_set hwrite fun hjk => hset e (by rw [hjk])
  case reset => exact absurd rfl hreset
  case setWindow r => exact slotAt_congr (hostOp_slots (show execSetWindow r s = .next t from h) rfl) j
  case clearWindow => exact slotAt_congr (hostOp_slots (show execClearWindow s = .next t from h) rfl) j
  case setHook k => exact slotAt_congr (hostOp_slots (show execSetHook k s = .next t from h) rfl) j
  case clearHook => exact slotAt_congr (hostOp_slots (show execClearHook s = .next t from h) rfl) j
  all_goals
    obtain ⟨hsame, -⟩ := (exec_writesAllowed (by simp) h).registry rfl
    exact slotAt_congr hsame j

/-- Settles O47: apart from FREE and RESET only SET_ENABLED writes an occupied slot (`slotAt_exec`), and it writes the bit. -/
theorem occupiedSlotsKeepTheirWidget : Obligations.OccupiedSlotsKeepTheirWidget := by
  intro i s t j h hj hfree hreset
  by_cases hset : ∃ e, i = .setEnabled j e
  · obtain ⟨e, rfl⟩ := hset
    rcases exec_setEnabled_slots h with hsame | hwrite
    · rw [slotAt_congr hsame]
      exact ⟨rfl, rfl, rfl, fun _ => rfl⟩
    · have hslot : slotAt t j = { slotAt s j with enabled := decide (e = 1) } :=
        (slotAt_congr (s := setSlot j _ s) hwrite j).trans ((slotAt_setSlot s j j _ (lt_length_of_cb_ne hj)).trans (if_pos rfl))
      rw [hslot]
      exact ⟨rfl, rfl, rfl, fun hno => absurd rfl (hno e)⟩
  · rw [slotAt_exec h hj hfree hreset fun e he => hset ⟨e, he⟩]
    exact ⟨rfl, rfl, rfl, fun _ => rfl⟩

end Sys2Proof.Machine
end

section
/-! SUPPORT. The hit test (43_registry.md R159 to R161), O51 and O52. -/

namespace Sys2Proof.Machine

theorem occupied_contains_iff (s : State) (i : Nat) (x y : U16) :
    (occupied s i && contains (slotAt s i).rect x y) = true ↔ PointInSlot s i x.toNat y.toNat := by
  simp only [Bool.and_eq_true, occupied_iff, contains, decide_eq_true_eq, PointInSlot]

theorem occupied_contains_eq_false_iff (s : State) (i : Nat) (x y : U16) :
    (occupied s i && contains (slotAt s i).rect x y) = false ↔ ¬ PointInSlot s i x.toNat y.toNat := by
  rw [← occupied_contains_iff, Bool.not_eq_true]

theorem hitTest_eq_some_iff (s : State) (x y : U16) (i : Nat) :
    hitTest s x y = some i ↔ i < s.cfg.nSlots ∧ PointInSlot s i x.toNat y.toNat
      ∧ ∀ j, i < j → j < s.cfg.nSlots → ¬ PointInSlot s j x.toNat y.toNat := by
  simp only [hitTest, find?_range_reverse_some, occupied_contains_iff, occupied_contains_eq_false_iff]

theorem hitTest_eq_none_iff (s : State) (x y : U16) :
    hitTest s x y = none ↔ ∀ j, j < s.cfg.nSlots → ¬ PointInSlot s j x.toNat y.toNat := by
  simp only [hitTest, find?_range_reverse_none, occupied_contains_eq_false_iff]

/-- Settles O51: the scan from the back finds the highest slot in use that contains the point. -/
theorem hitTestFindsTheHighestSlot : Obligations.HitTestFindsTheHighestSlot :=
  fun s x y => ⟨hitTest_eq_some_iff s x y, hitTest_eq_none_iff s x y⟩

theorem hitTest_ne_of_outside {s : State} {x y : U16} {i : Nat} (h : ¬ PointInSlot s i x.toNat y.toNat) : hitTest s x y ≠ some i :=
  fun hit => by
    obtain ⟨-, hin, -⟩ := (hitTest_eq_some_iff s x y i).1 hit
    exact h hin

/-- Settles O52: at the far corner every comparison holds with equality, and beyond each edge one of them fails. -/
theorem rectanglesAreInclusiveOnBothEdges : Obligations.RectanglesAreInclusiveOnBothEdges := by
  intro s i x y hi hc hhigher
  refine ⟨fun hx hy => ?corner, fun hx _ => ?right, fun _ hy => ?below, fun _ _ => ⟨fun hx _ => ?left, fun _ hy => ?above⟩⟩
  case corner => exact (hitTest_eq_some_iff s x y i).2 ⟨hi, ⟨hc, by omega, by omega, by omega, by omega⟩, hhigher⟩
  case right => exact hitTest_ne_of_outside fun ⟨_, _, hright, _⟩ => by omega
  case below => exact hitTest_ne_of_outside fun ⟨_, _, _, _, hbelow⟩ => by omega
  case left => exact hitTest_ne_of_outside fun ⟨_, hleft, _⟩ => by omega
  case above => exact hitTest_ne_of_outside fun ⟨_, _, _, habove, _⟩ => by omega

end Sys2Proof.Machine
end

section
/-! SUPPORT. The dispatcher's rows by themselves (43_registry.md R156 to R158, R164; log 13), O53, O54 and O55. -/

namespace Sys2Proof.Machine

/-- The EVENT step can run: the dispatcher's rows are taken (41_session.md R110, R115). -/
theorem dispatching_eq_true {s : State} (h : Dispatching s) : dispatching s = true := by
  obtain ⟨hst, ht, hf⟩ := h
  simp [dispatching, running, hst, isReady_between_transfers ht, hf]

/-- A row whose whole effect is to append records (43_registry.md R157, R158). -/
theorem transition_records {s : State} {f : State → State} {l : List Event} (h : Dispatching s) (hf : f s = s.withEvents l) :
    transition (dispatching s) s (fun u => .ok (f u)) = .next (s.withEvents l) :=
  transition_ok (dispatching_eq_true h) (congrArg Res.ok hf)

/-! ## Button codes -/

theorem exec_buttonCode {s : State} (h : Dispatching s) (press : Bool) (k : BitVec 7) :
    exec (.buttonCode press k) s = .next (s.withEvents (codeEvents s press k.toNat)) := by
  show transition (dispatching s) s (fun u => .ok (resolveCode (codeByte press k) u)) = _
  exact transition_records h (by rw [resolveCode_eq, codePress_codeByte, codeNumber_codeByte])

theorem codeEvents_bad {s : State} {k : Nat} (press : Bool) (h : k = 0 ∨ s.cfg.nSlots < k) : codeEvents s press k = [.diag .badCode] := if_pos h

theorem dispatchEvent_empty {s : State} {i : Nat} (h : (slotAt s i).cb = none) (down : Bool) : dispatchEvent s i down = none := by
  rw [dispatchEvent, h, Option.map_none]

theorem dispatchEvent_occupied {s : State} {i : Nat} {cb : Handle} (h : (slotAt s i).cb = some cb) (down : Bool) :
    dispatchEvent s i down = some (.dispatch i cb (slotAt s i).user down) := by
  rw [dispatchEvent, h, Option.map_some]

theorem codeEvents_unregistered {s : State} {k : Nat} (press : Bool) (h0 : 1 ≤ k) (hk : k ≤ s.cfg.nSlots)
    (h : (slotAt s (k - 1)).cb = none) : codeEvents s press k = [.diag .unregisteredCode] := by
  rw [codeEvents, if_neg (by omega), dispatchEvent_empty h]

theorem codeEvents_registered {s : State} {k : Nat} {cb : Handle} (press : Bool) (h0 : 1 ≤ k) (hk : k ≤ s.cfg.nSlots)
    (h : (slotAt s (k - 1)).cb = some cb) : codeEvents s press k = [.dispatch (k - 1) cb (slotAt s (k - 1)).user press] := by
  rw [codeEvents, if_neg (by omega), dispatchEvent_occupied h]

/-- Settles O53: a code byte by itself brings the records of its number. -/
theorem buttonCodesResolveByIndex : Obligations.ButtonCodesResolveByIndex := by
  intro s press k hd
  rw [exec_buttonCode hd]
  refine ⟨fun hbad => ?_, fun h0 hk => ⟨fun hempty => ?_, fun cb hcb => ?_⟩⟩
  · rw [codeEvents_bad press hbad]
  · rw [codeEvents_unregistered press h0 hk hempty]
  · rw [codeEvents_registered press h0 hk hcb]

/-! ## Touch sub-bytes -/

theorem exec_subPress {s : State} (h : Dispatching s) (x y : U16) :
    exec (.subPress x y) s = .next (s.withEvents (pointEvents s true x y)) := by
  have hev : subEvents s s.cfg.subPress x y = pointEvents s true x y := by
    rw [subEvents, if_neg (cfg_subRepeat_ne s.cfg).2.symm, if_pos rfl]
  show transition (dispatching s) s (fun u => .ok (touchSub u.cfg.subPress x y u)) = _
  exact transition_records h ((touchSub_eq s _ _ _).trans (by rw [hev]))

theorem exec_subRelease {s : State} (h : Dispatching s) (x y : U16) :
    exec (.subRelease x y) s = .next (s.withEvents (pointEvents s false x y)) := by
  have hev : subEvents s s.cfg.subRelease x y = pointEvents s false x y := by
    rw [subEvents, if_neg (cfg_subRepeat_ne s.cfg).1.symm, if_neg (cfg_subPress_ne_subRelease s.cfg).symm, if_pos rfl]
  show transition (dispatching s) s (fun u => .ok (touchSub u.cfg.subRelease x y u)) = _
  exact transition_records h ((touchSub_eq s _ _ _).trans (by rw [hev]))

theorem exec_subRepeat {s : State} (h : Dispatching s) : exec .subRepeat s = .next s := by
  show transition (dispatching s) s (fun u => .ok (touchSub u.cfg.subRepeat 0 0 u)) = _
  exact transition_ok (dispatching_eq_true h) (congrArg Res.ok (if_pos rfl))

theorem exec_subOther {s : State} (h : Dispatching s) {b : Byte} (h0 : b ≠ 0) (h1 : b ≠ 1) (h2 : b ≠ 2) :
    exec (.subOther b) s = .next (s.withEvents [.diag .badTouchSub]) := by
  obtain ⟨hRelease, hPress, hRepeat⟩ := cfg_subBytes s.cfg
  have hev : subEvents s b 0 0 = [.diag .badTouchSub] := by
    rw [subEvents, hRepeat, hPress, hRelease, if_neg h2, if_neg h1, if_neg h0]
  show transition (dispatching s) s (fun u => .ok (touchSub b 0 0 u)) = _
  exact transition_records h ((touchSub_eq s _ _ _).trans (by rw [hev]))

theorem pointEvents_hit {s : State} {x y : U16} {i : Nat} {cb : Handle} (hit : hitTest s x y = some i) (hcb : (slotAt s i).cb = some cb)
    (down : Bool) : pointEvents s down x y = [.dispatch i cb (slotAt s i).user down] := by
  simp only [pointEvents, hit, dispatchEvent_occupied hcb, Option.toList_some]

theorem pointEvents_noHit {s : State} {x y : U16} (hit : hitTest s x y = none) (down : Bool) :
    pointEvents s down x y = [.diag .noHit] := by
  simp only [pointEvents, hit]

/-- Settles O54: a press and a release bring the records of their point, and the other sub-bytes do not look at it. -/
theorem touchSubBytesDispatchTheHit : Obligations.TouchSubBytesDispatchTheHit := by
  intro s x y hd
  rw [exec_subPress hd, exec_subRelease hd]
  refine ⟨fun i cb hit hcb => ?_, fun hit => ?_, exec_subRepeat hd, fun b => exec_subOther hd⟩
  · exact ⟨by rw [pointEvents_hit hit hcb], by rw [pointEvents_hit hit hcb]⟩
  · exact ⟨by rw [pointEvents_noHit hit], by rw [pointEvents_noHit hit]⟩

/-! ## Events -/

/-- An event row appends the records of its event, then the hook's (43_registry.md R164). -/
theorem transition_event {s : State} {r : Res} {l : List Event} (h : Dispatching s) (hr : r = .ok (s.withEvents l)) :
    transition (dispatching s) s (fun _ => r.andThen fun t => .ok (hookCall t)) = .next (s.withEvents (l ++ hookEvents s)) := by
  refine transition_ok (dispatching_eq_true h) ?_
  rw [hr, andThen_ok, hookCall_withEvents]

theorem toNat_codeNumber (c : Byte) : (codeNumber c).toNat = c.toNat % 128 := by
  simp [codeNumber]

theorem buttonEvent_eq {s : State} {p : List Byte} {c : Byte} (h : p.getLast? = some c) :
    buttonEvent p s = .ok (s.withEvents (codeEvents s (c.getLsbD 7) (c.toNat % 128))) := by
  rw [buttonEvent, h, ← toNat_codeNumber]
  exact congrArg Res.ok (resolveCode_eq s c)

theorem touchEvent_badLength {s : State} {p : List Byte} (h : p.length ≠ s.cfg.touchLen) :
    touchEvent p s = .ok (s.withEvents [.diag .badTouchLength]) := if_pos h

theorem touchEvent_eq {s : State} {p : List Byte} {sub x0 x1 y0 y1 : Byte} (hl : p.length = s.cfg.touchLen)
    (hsub : p[s.cfg.offSub]? = some sub) (hx0 : p[s.cfg.offX]? = some x0) (hx1 : p[s.cfg.offX + 1]? = some x1)
    (hy0 : p[s.cfg.offY]? = some y0) (hy1 : p[s.cfg.offY + 1]? = some y1) :
    touchEvent p s = .ok (s.withEvents (subEvents s sub (x1 ++ x0) (y1 ++ y0))) := by
  rw [touchEvent, if_neg (not_not.2 hl), hsub, u16At_eq hx0 hx1, u16At_eq hy0 hy1]
  exact congrArg Res.ok (touchSub_eq s sub _ _)

/-- Settles O55: each event row is its event's own records with the hook behind them (`transition_event`). -/
theorem eventsDispatchThenCallTheHook : Obligations.EventsDispatchThenCallTheHook := by
  intro s p hd
  refine ⟨fun _ c hc => ?button, fun _ => ⟨fun hl => ?badLength, fun sub x0 x1 y0 y1 hl hsub hx0 hx1 hy0 hy1 => ?touch⟩, fun _ => ?unknown⟩
  case button => exact transition_event hd (buttonEvent_eq hc)
  case badLength => exact transition_event hd (touchEvent_badLength hl)
  case touch => exact transition_event hd (touchEvent_eq hl hsub hx0 hx1 hy0 hy1)
  case unknown => exact transition_event (r := .ok (unknownEvent s)) (l := [.diag .unknownEvent]) hd rfl

end Sys2Proof.Machine
end

section
/-! SUPPORT. The common checks of every host operation, and what a halted block still does (60_exceptions.md R168 to R174, R179), O9 to
O12 and O36. -/

namespace Sys2Proof.Machine

/-! ## What each common check answers -/

/-- The first check (R172). -/
theorem hostOp_halted {s : State} (hf : s.fault ≠ .none) (su ok : Bool) (g : State → Result) (body : State → Res) :
    hostOp su ok s g body = .next (s.ret .halted) := if_pos hf

/-- The second check (R169). -/
theorem hostOp_unattached {s : State} (hf : s.fault = .none) (ha : s.attached = false) (ok : Bool) (g : State → Result)
    (body : State → Res) : hostOp false ok s g body = .next ({ s with fault := .notAttached }.ret (.fault .notAttached)) := by
  rw [hostOp, if_neg (not_not_intro hf), if_pos (by rw [ha]; rfl), raise_toOutcome hf]

/-- The third check, for an operation that passes the second. -/
theorem hostOp_badOperands {s : State} {su : Bool} (hf : s.fault = .none) (hatt : s.attached = true ∨ su = true) (g : State → Result)
    (body : State → Res) : hostOp su false s g body = .next ({ s with fault := .badArgument }.ret (.fault .badArgument)) := by
  rw [hostOp, if_neg (not_not_intro hf), if_neg (by rcases hatt with h | h <;> simp [h]), Bool.not_false, if_pos rfl, raise_toOutcome hf]

/-! ## Operations that begin, and operations that go on -/

/-- The host's position is inside this operation, so its next turn goes on there without the common checks (10_state.md R18). -/
inductive GoesOn : Instr → HostPos → Prop where
  | beginFrame : GoesOn .beginFrame .beginning
  | flush : GoesOn .flush .flushing
  | step : GoesOn .step .stepping
  | freeBegin (i : Nat) : GoesOn (.free i) .freeingBegin
  | freeFlush (i : Nat) : GoesOn (.free i) .freeingFlush

theorem not_goesOn_idle {i : Instr} {s : State} (hp : s.pos = .idle) : ¬ GoesOn i s.pos := by
  rw [hp]
  exact nofun

/-- What the third check looks at (60_exceptions.md R168, 30_encoding.md R64): the operands of a listed row; an unlisted record never
passes. -/
def operandsAdmitted (c : Cfg) : Instr → Bool
  | .undefinedHostOpcode _ _ => false
  | i => i.wf c

theorem operandsAdmitted_listed {i : Instr} (c : Cfg) (h : ∀ o ops, i ≠ .undefinedHostOpcode o ops) : operandsAdmitted c i = i.wf c := by
  cases i
  case undefinedHostOpcode o ops => exact absurd rfl (h o ops)
  all_goals rfl

/-- An operation that can be in progress has no operand for the third check. -/
theorem GoesOn.wf {i : Instr} {p : HostPos} (h : GoesOn i p) (c : Cfg) : i.wf c = true := by
  cases h <;> rfl

/-- Every host operation begins with the common checks (60_exceptions.md R168). -/
theorem exec_begins {i : Instr} {s : State} (hi : isHostOp i = true) (hp : ¬ GoesOn i s.pos) :
    ∃ g body, exec i s = hostOp (isSetupOp i) (operandsAdmitted s.cfg i) s g body := by
  cases i
  case beginFrame =>
    refine ⟨unitResult, beginBody .beginning, ?_⟩
    show execBeginFrame s = _
    unfold execBeginFrame
    split
    · next h => exact absurd (h ▸ .beginFrame) hp
    · rfl
  case flush =>
    refine ⟨unitResult, flushBody .flushing, ?_⟩
    show execFlush s = _
    unfold execFlush
    split
    · next h => exact absurd (h ▸ .flush) hp
    · rfl
  case step =>
    show ∃ g body, execStep s = _
    unfold execStep
    split
    · next h => exact absurd (h ▸ .step) hp
    · split
      · exact ⟨_, _, rfl⟩
      · exact ⟨_, _, rfl⟩
  case free n =>
    refine ⟨unitResult, freeBody n, ?_⟩
    show execFree n s = _
    unfold execFree
    split
    · next h => exact absurd (h ▸ .freeBegin n) hp
    · next h => exact absurd (h ▸ .freeFlush n) hp
    · rfl
  case allocArea r cb user =>
    show ∃ g body, execAllocArea r cb user s = hostOp false (r.wf && cb.isSome) s g body
    rw [← isRect_eq_wf]
    exact ⟨_, _, rfl⟩
  case setWindow r =>
    show ∃ g body, execSetWindow r s = hostOp false r.wf s g body
    rw [← isRect_eq_wf]
    exact ⟨_, _, rfl⟩
  case clearWindow => exact ⟨_, _, show execClearWindow s = _ from rfl⟩
  case setHook h => exact ⟨_, _, show execSetHook h s = _ from rfl⟩
  case clearHook => exact ⟨_, _, show execClearHook s = _ from rfl⟩
  case setup | putU8 | putU16le | putCstr | encode | isReady | allocCode | setEnabled | undefinedHostOpcode => exact ⟨_, _, rfl⟩
  all_goals cases hi

/-! ## A halted block -/

theorem ret_idle {s : State} (hp : s.pos = .idle) (r : Result) :
    s.ret r = { s with out := { s.out with results := s.out.results ++ [r] } } := by
  rw [State.ret, ← hp]

/-- An operation in progress finds the block halted at the head of its loop, and returns the fault (R171). -/
theorem exec_goesOn_halted {i : Instr} {s : State} (hp : GoesOn i s.pos) (hf : s.fault ≠ .none) :
    exec i s = .next (s.ret (.fault s.fault)) := by
  generalize hq : s.pos = p at hp
  cases hp with
  | beginFrame => rw [exec_beginFrame_beginning hq, driving_halted _ _ hf]
  | flush => rw [exec_flush_flushing hq, driving_halted _ _ hf]
  | step =>
    show execStep s = _
    rw [execStep, hq]
    simp only [running, hf, decide_false, Bool.false_eq_true, if_false, toOutcome_raised]
  | freeBegin i => rw [exec_free_freeingBegin hq, driving_halted _ _ hf]
  | freeFlush i => rw [exec_free_freeingFlush hq, driving_halted _ _ hf]

/-- No transition of the session, the transport or the dispatcher is enabled while halted. -/
theorem transition_halted {s : State} (hf : s.fault ≠ .none) (enabled : Bool) (body : State → Res) :
    transition (enabled && running s) s body = .next s := by
  rw [running, decide_eq_false hf, Bool.and_false, transition_disabled]

/-- While halted, an instruction other than RESET changes nothing, or no more than to return a result to the host (R171, R172). -/
theorem exec_halted {i : Instr} {s : State} (hi : i ≠ .reset) (hf : s.fault ≠ .none) :
    exec i s = .next s ∨ ∃ r, exec i s = .next (s.ret r) := by
  by_cases hop : isHostOp i = true
  · by_cases hp : GoesOn i s.pos
    · exact .inr ⟨_, exec_goesOn_halted hp hf⟩
    · obtain ⟨g, body, e⟩ := exec_begins hop hp
      exact .inr ⟨_, e.trans (hostOp_halted hf _ _ _ _)⟩
  · cases i
    case reset => exact absurd rfl hi
    case lit | dirChar | dirWord | dirStr | dirPercent | dirUnknown | trailingPct | esc => exact .inr ⟨_, hostOp_halted hf _ _ _ _⟩
    case tick => exact .inl (show execTick s = _ from transition_halted hf _ _)
    case poll => exact .inl (show execPoll s = _ from transition_halted hf _ _)
    case ack => exact .inl (show execAck s = _ from transition_halted hf _ _)
    case nak b => exact .inl (show execNak b s = _ from transition_halted hf _ _)
    case ctrlNoresp => exact .inl (show execCtrlNoresp s = _ from transition_halted hf _ _)
    case ctrlResp => exact .inl (show execCtrlResp s = _ from transition_halted hf _ _)
    case evButton p => exact .inl (show execEvButton p s = _ from transition_halted hf _ _)
    case evTouch p => exact .inl (show execEvTouch p s = _ from transition_halted hf _ _)
    case evUnknown p => exact .inl (show execEvUnknown p s = _ from transition_halted hf _ _)
    case buttonCode press k => exact .inl (show execButtonCode press k s = _ from transition_halted hf _ _)
    case subRelease x y => exact .inl (show execSubRelease x y s = _ from transition_halted hf _ _)
    case subPress x y => exact .inl (show execSubPress x y s = _ from transition_halted hf _ _)
    case subRepeat => exact .inl (show execSubRepeat s = _ from transition_halted hf _ _)
    case subOther b => exact .inl (show execSubOther b s = _ from transition_halted hf _ _)
    all_goals exact absurd rfl hop

/-! ## The obligations -/

/-- Settles O36: each of the three keeps the tick from being delivered. -/
theorem maskedTicksAreLost : Obligations.MaskedTicksAreLost := by
  intro s hmask
  refine exec_tick_masked (Bool.eq_false_iff.2 fun hd => ?_)
  obtain ⟨htick, hen, hrun⟩ := (tickDelivered_iff s).1 hd
  rcases hmask with hb | hoff | hf
  · rw [htick] at hb
    cases hb
  · rw [hen] at hoff
    cases hoff
  · exact hf hrun

/-- Settles O9: an operation begins with the common checks (`exec_begins`), and the first of them answers. -/
theorem haltedOperationsReturnHalted : Obligations.HaltedOperationsReturnHalted := by
  intro i s hi hp hf
  obtain ⟨g, body, e⟩ := exec_begins hi (not_goesOn_idle hp)
  rw [e, hostOp_halted hf, ret_idle hp]

/-- Settles O10: what is left to a halted block is to return a result (`exec_halted`). -/
theorem haltedBlockStaysAsItIs : Obligations.HaltedBlockStaysAsItIs := by
  intro i s hi hf
  rcases exec_halted hi hf with e | ⟨r, e⟩
  · exact ⟨s, e, rfl, rfl, rfl, rfl⟩
  · exact ⟨s.ret r, e, rfl, rfl, rfl, rfl⟩

/-- Settles O11: the second check answers for every operation but SETUP's opcode. -/
theorem unattachedOperationsFault : Obligations.UnattachedOperationsFault := by
  intro i s hi hsetup hp hf ha
  obtain ⟨g, body, e⟩ := exec_begins hi (not_goesOn_idle hp)
  rw [e, hsetup, hostOp_unattached hf ha]

/-- Settles O12: the third check answers, and an operation it could answer is never one in progress (`GoesOn.wf`). -/
theorem badOperandsFault : Obligations.BadOperandsFault := by
  refine ⟨fun i s hi hlisted hwf ⟨hf, ha⟩ => ?listed, fun o ops s ⟨hf, ha⟩ => ?unlisted, fun ops s hf => ?setupOpcode⟩
  case listed =>
    have hp : ¬ GoesOn i s.pos := fun h => by simp [h.wf s.cfg] at hwf
    obtain ⟨g, body, e⟩ := exec_begins hi hp
    rw [e, operandsAdmitted_listed _ hlisted, hwf, hostOp_badOperands hf (.inl ha)]
  case unlisted => exact hostOp_badOperands hf (.inl ha) _ _
  case setupOpcode => exact hostOp_badOperands hf (.inr rfl) _ _

end Sys2Proof.Machine
end

section
/-! SUPPORT. The RESET input and the state it leaves (70_reset_and_hazards.md R189, R190), O8, O57 and O58. -/

namespace Sys2Proof.Machine

/-- The choice of who moves next draws from the environment only, and not from the host's port. -/
theorem nextTurn_frame (s : State) : ∃ e, (nextTurn s).2 = { s with env := e } ∧ e.port = s.env.port := by
  unfold nextTurn
  split
  · exact ⟨_, rfl, rfl⟩
  · exact ⟨_, rfl, rfl⟩

/-- With nothing to issue and the tick masked, neither the host nor the tick source does more than take its turn (R190, R179). -/
theorem step_waiting {s u : State} {x : Turn} (hn : nextTurn s = (x, u)) (hx : x ≠ .reset) (hport : u.env.port = [])
    (hoff : u.tickEn = false) : step s = .next u := by
  cases x with
  | host => rw [step_host hn, hostTurn_empty (List.head?_eq_none_iff.2 hport)]
  | tick => rw [step_tick hn, maskedTicksAreLost u (.inr (.inl hoff))]
  | reset => exact absurd rfl hx

/-- Settles O8: a turn without an operation and without a delivered tick is the choice of that turn (`step_waiting`), which leaves the
block as it is (`nextTurn_frame`). -/
theorem emptyPortWaits : Obligations.EmptyPortWaits := by
  refine ⟨fun s hport hoff hturn => ?_, rfl, rfl⟩
  obtain ⟨e, hu, he⟩ := nextTurn_frame s
  have hn : nextTurn s = ((nextTurn s).1, { s with env := e }) := Prod.ext rfl hu
  exact ⟨_, step_waiting hn hturn (he.trans hport) hoff, rfl, rfl, rfl⟩

/-- RESET has no precondition: its next state is the reset state of its own configuration, under the same environment and behind the
outputs already delivered. -/
theorem exec_reset (s : State) : exec .reset s = .next { State.resetOf s.cfg with env := s.env, out := s.out } := rfl

/-- Settles O57: RESET's next state is `State.resetOf`'s, which lists R189's values. -/
theorem resetClearsEveryField : Obligations.ResetClearsEveryField := exec_reset

/-- Settles O58: `resetOf_good` on this hardware's configuration. -/
theorem resetStateIsGood : Obligations.ResetStateIsGood := resetOf_good Config.hardware

end Sys2Proof.Machine
end
